-- ==== Sys2Proof/Word.lean ====
section
/-! DEFINITION. The word types of PMCORE (spec/00_scope.md R7, R9): unsigned 8, 16 and 32 bit words, bit 0 the
least significant, and the sequences the commands work on. Addition `add32` (R8) is `+` on `Word`, which wraps. -/

namespace Sys2Proof

/-- `u32` (R7): a register, a bus word, a cell of the word buffer. -/
abbrev Word := BitVec 32

/-- `u8` (R7): a cell of a byte buffer. -/
abbrev Byte := BitVec 8

/-- `u16` (R9): one UTF-16 code unit, a cell of a text buffer. -/
abbrev CodeUnit := BitVec 16

/-- A byte string (R9). -/
abbrev Bytes := List Byte

/-- A text (R9): a sequence of UTF-16 code units. -/
abbrev Text := List CodeUnit

/-- A sequence of 32-bit words: a message packed, padded or not. -/
abbrev Words := List Word

end Sys2Proof
end

