-- ==== Sys2Proof/Config.lean ====
section
/-! DEFINITION. What one instance of PMCORE fixes (spec/00_scope.md R5, R13; spec/10_state.md R37, R40;
spec/93_implementation_defined.md U6): the open parameters, as plain data, with the ranges the spec gives them; and the
free values, opaque constants with no body, for what the spec leaves unspecified (U1, U3). -/

namespace Sys2Proof

/-- The name of a buffer (R20, R60): the word buffer, a byte buffer or a text buffer. -/
inductive BufId where
  | wbuf
  | byt (k : Fin 4)
  | txt (k : Fin 8)
deriving DecidableEq, Repr

/-- What a `LOWER` puts in place of one code unit: the unit a fixed distance away (a whole range of letters in one row), or
a text of any length, the empty one included. -/
inductive LowerImage where
  | shift (distance : CodeUnit)
  | text (image : Text)
deriving DecidableEq, Repr

/-- One move of a scan over a text: in state `state`, a code unit from `lo` to `hi` leads to state `next`. -/
structure LowerMove where
  state : Nat
  lo : CodeUnit
  hi : CodeUnit
  next : Nat
deriving DecidableEq, Repr

/-- One row of a lowercasing table: the image of the code units from `lo` to `hi` where the scan of what stands before
the unit is in state `before` and the scan of what stands after it in state `after`; `none` is any state. -/
structure LowerRow where
  before : Option Nat
  lo : CodeUnit
  hi : CodeUnit
  after : Option Nat
  image : LowerImage
deriving DecidableEq, Repr

/-- A concrete function for `LOWER` (R256), written down as data: two scans with finitely many states, one from the front
and one from the back, tell the contexts of a code unit apart, and the first row that fits gives its image. A code unit may
so depend on the whole text (a surrogate on its other half, a letter on being the last of its word), and units may be
deleted, merged or doubled. Every function that meets R256 has such a table for the texts up to any length
(`lower_table_complete`; log 10). -/
structure LowerTable where
  forward : List LowerMove
  backward : List LowerMove
  rows : List LowerRow
deriving DecidableEq, Repr

/-- The function an instance takes as `LOWER` (R5, R256): the default, ASCII-only, or one of its own. -/
inductive Lowering where
  | ascii
  | table (t : LowerTable)
deriving DecidableEq, Repr

/-- The `OPEN` parameters of R5. `WBUF_CAP` is derived from `bytCap` (`Machine.wbufCap`), `N_TXT` = 8 and `N_BYT` = 4
are fixed. Carried beside the state so that every statement holds for every instance (log 3). -/
structure Params where
  /-- `TXT_CAP`: cells in each text buffer. -/
  txtCap : Nat
  /-- `BYT_CAP`: cells in each byte buffer. -/
  bytCap : Nat
  /-- `LEET_TOK_MAX`: the greatest length of a token. -/
  leetTokMax : Nat
  /-- `LEET_ROM`: nine rows (levels 0 to 8) of 26 tokens (R257). -/
  leetRom : List (List Text)
  /-- `LOWER` (R256). -/
  lower : Lowering
deriving DecidableEq, Repr

/-- The five entries of level 0 that R257 fixes: (letter index, code unit) for a, e, l, o, t. -/
def fixedLeetEntries : List (Nat × CodeUnit) :=
  [(0, 0x34), (4, 0x33), (11, 0x31), (14, 0x30), (19, 0x37)]

/-- The shape R257 demands of `LEET_ROM`: 9 rows of 26 tokens, each of 1 to `LEET_TOK_MAX` code units, and the five
fixed entries. -/
def Params.romLegal (p : Params) : Bool :=
  p.leetRom.length == 9 &&
  p.leetRom.all (fun row => row.length == 26 && row.all fun t => 1 ≤ t.length && t.length ≤ p.leetTokMax) &&
  fixedLeetEntries.all fun e => (p.leetRom.getD 0 []).getD e.1 [] == [e.2]

/-- The ranges R5 gives the open parameters. Every `Lowering` is a function R256 admits, so nothing is asked of it here. -/
def Params.legal (p : Params) : Bool :=
  256 ≤ p.txtCap && p.txtCap ≤ 32768 && 128 ≤ p.bytCap && p.bytCap ≤ 32768 &&
  1 ≤ p.leetTokMax && p.leetTokMax ≤ 64 && p.romLegal

namespace Config

/-- FREE VALUE (U1, log 4): what a cell of width `w` holds when nothing has written it since the reset numbered
`epoch`; arbitrary but fixed, per reset, buffer and index. -/
opaque unspecifiedCell : (w : Nat) → (epoch : Nat) → BufId → (i : Nat) → BitVec w

/-- FREE VALUE (U3, log 6): what the `n`-th open read of the bus, at offset `off`, returns while a command runs. -/
opaque busyReadData : (n : Nat) → (off : Nat) → Word

end Config

end Sys2Proof
end

