-- ==== Sys2Proof/Machine/Rom.lean ====
section
/-! DEFINITION. The constant tables of PMCORE (spec/00_scope.md R13, spec/10_state.md R37): the hash tables of files 41 to 44 and the
default `LEET_ROM` of spec/47_leet.md R258. No command, host access or reset changes them. -/

namespace Sys2Proof.Machine

/-- The `count` digits of `w` bits of a number, most significant first. -/
def unpack (w count n : Nat) : List Nat :=
  (List.range count).map fun k => n >>> (w * (count - 1 - k)) % 2 ^ w

/-- A table of words laid out as the spec prints it: each number is one line of the spec's table, four words. -/
def wordRows (rows : List Nat) : Words := rows.flatMap fun r => (unpack 32 4 r).map (BitVec.ofNat 32)

/-- A table of amounts and word orders, all below 16, each number a run of sixteen entries, one hexadecimal digit each. -/
def nibbleRows (rows : List Nat) : List Nat := rows.flatMap (unpack 4 16)

/-- The MD4 message-word order, 48 steps (R132; log 26). -/
def md4Order : List Nat :=
  nibbleRows [
    0x0123456789abcdef, 0x048c159d26ae37bf, 0x084c2a6e195d3b7f]

/-- The MD5 constants `T[0..63]` (R140; log 26). -/
def md5T : Words :=
  wordRows [
    0xd76aa478e8c7b756242070dbc1bdceee, 0xf57c0faf4787c62aa8304613fd469501,
    0x698098d88b44f7afffff5bb1895cd7be, 0x6b901122fd987193a679438e49b40821,
    0xf61e2562c040b340265e5a51e9b6c7aa, 0xd62f105d02441453d8a1e681e7d3fbc8,
    0x21e1cde6c33707d6f4d50d87455a14ed, 0xa9e3e905fcefa3f8676f02d98d2a4c8a,
    0xfffa39428771f6816d9d6122fde5380c, 0xa4beea444bdecfa9f6bb4b60bebfbc70,
    0x289b7ec6eaa127fad4ef308504881d05, 0xd9d4d039e6db99e51fa27cf8c4ac5665,
    0xf4292244432aff97ab9423a7fc93a039, 0x655b59c38f0ccc92ffeff47d85845dd1,
    0x6fa87e4ffe2ce6e0a30143144e0811a1, 0xf7537e82bd3af2352ad7d2bbeb86d391]

/-- The SHA-256 constants `K[0..63]` (R178; log 26). -/
def sha256K : Words :=
  wordRows [
    0x428a2f9871374491b5c0fbcfe9b5dba5, 0x3956c25b59f111f1923f82a4ab1c5ed5,
    0xd807aa9812835b01243185be550c7dc3, 0x72be5d7480deb1fe9bdc06a7c19bf174,
    0xe49b69c1efbe47860fc19dc6240ca1cc, 0x2de92c6f4a7484aa5cb0a9dc76f988da,
    0x983e5152a831c66db00327c8bf597fc7, 0xc6e00bf3d5a7914706ca635114292967,
    0x27b70a852e1b21384d2c6dfc53380d13, 0x650a7354766a0abb81c2c92e92722c85,
    0xa2bfe8a1a81a664bc24b8b70c76c51a3, 0xd192e819d6990624f40e3585106aa070,
    0x19a4c1161e376c082748774c34b0bcb5, 0x391c0cb34ed8aa4a5b9cca4f682e6ff3,
    0x748f82ee78a5636f84c878148cc70208, 0x90befffaa4506cebbef9a3f7c67178f2]

/-- RIPEMD-160: message-word order of the left line, 80 entries (R197; log 26). -/
def rmdRl : List Nat :=
  nibbleRows [
    0x0123456789abcdef, 0x74d1a6f3c0952eb8, 0x3ae49f812706db5c, 0x19ba08c4d37fe562,
    0x40597c2ae138b6fd]

/-- RIPEMD-160: message-word order of the right line, 80 entries (R197; log 26). -/
def rmdRr : List Nat :=
  nibbleRows [
    0x5e7092b4d6f81a3c, 0x6b370d5aef8c4912, 0xf5137e69b8c2a04d, 0x86413bf05c2d97ae,
    0xcfa4158762de039b]

/-- RIPEMD-160: rotate amounts of the left line, 80 entries (R197; log 26). -/
def rmdSl : List Nat :=
  nibbleRows [
    0xbefc5879bdef6798, 0x768db97f7cf9b7dc, 0xbd67e9dfe8d65c75, 0xbcefef989e56865c,
    0x9f5b68dc5cdeb856]

/-- RIPEMD-160: rotate amounts of the right line, 80 entries (R197; log 26). -/
def rmdSr : List Nat :=
  nibbleRows [
    0x899bdff5778beec6, 0x9df7c89b77c76fdb, 0x97fb866ecd5edd75, 0xf58bee6e69c9c5f8,
    0x85c9c5e68d65fdbb]

/-- RIPEMD-160: the constants `KL` of the left line, by range (R197; log 26). -/
def rmdKl : Words := [0x00000000, 0x5a827999, 0x6ed9eba1, 0x8f1bbcdc, 0xa953fd4e]

/-- RIPEMD-160: the constants `KR` of the right line, by range (R197; log 26). -/
def rmdKr : Words := [0x50a28be6, 0x5c4dd124, 0x6d703ef3, 0x7a6d76e9, 0x00000000]

/-- Level 0 of R258's table, tokens of `a` to `z` as code unit numbers. -/
def leetRow0 : List (List Nat) :=
  [[0x34], [0x62], [0x63], [0x64], [0x33], [0x66], [0x67], [0x68], [0x69],
   [0x6A], [0x6B], [0x31], [0x6D], [0x6E], [0x30], [0x70], [0x39], [0x72],
   [0x73], [0x37], [0x75], [0x76], [0x77], [0x78], [0x79], [0x7A]]

/-- Level 1 of R258's table, tokens of `a` to `z` as code unit numbers. -/
def leetRow1 : List (List Nat) :=
  [[0x34], [0x62], [0x63], [0x64], [0x33], [0x66], [0x67], [0x68], [0x31],
   [0x6A], [0x6B], [0x31], [0x6D], [0x6E], [0x30], [0x70], [0x39], [0x72],
   [0x35], [0x37], [0x75], [0x76], [0x77], [0x78], [0x79], [0x32]]

/-- Level 2 of R258's table, tokens of `a` to `z` as code unit numbers. -/
def leetRow2 : List (List Nat) :=
  [[0x34], [0x38], [0x63], [0x64], [0x33], [0x66], [0x36], [0x68], [0x27],
   [0x6A], [0x6B], [0x31], [0x6D], [0x6E], [0x30], [0x70], [0x39], [0x72],
   [0x35], [0x37], [0x75], [0x76], [0x77], [0x78], [0x27, 0x2F], [0x32]]

/-- Level 3 of R258's table, tokens of `a` to `z` as code unit numbers. -/
def leetRow3 : List (List Nat) :=
  [[0x40], [0x38], [0x63], [0x64], [0x33], [0x66], [0x36], [0x68], [0x27],
   [0x6A], [0x6B], [0x31], [0x6D], [0x6E], [0x30], [0x70], [0x39], [0x72],
   [0x35], [0x37], [0x75], [0x76], [0x77], [0x78], [0x27, 0x2F], [0x32]]

/-- Level 4 of R258's table, tokens of `a` to `z` as code unit numbers. -/
def leetRow4 : List (List Nat) :=
  [[0x40], [0x7C, 0x33], [0x63], [0x64], [0x33], [0x66], [0x36], [0x23], [0x21],
   [0x37], [0x7C, 0x3C], [0x31], [0x6D], [0x6E], [0x30], [0x7C, 0x3E], [0x39], [0x7C, 0x32],
   [0x24], [0x37], [0x75], [0x5C, 0x2F], [0x77], [0x78], [0x27, 0x2F], [0x32]]

/-- Level 5 of R258's table, tokens of `a` to `z` as code unit numbers. -/
def leetRow5 : List (List Nat) :=
  [[0x40], [0x7C, 0x33], [0x63], [0x7C, 0x29], [0x26], [0x7C, 0x3D], [0x36], [0x23], [0x21],
   [0x2C, 0x7C], [0x7C, 0x3C], [0x31], [0x6D], [0x6E], [0x30], [0x7C, 0x3E], [0x39], [0x7C, 0x32],
   [0x24], [0x37], [0x75], [0x5C, 0x2F], [0x77], [0x78], [0x27, 0x2F], [0x32]]

/-- Level 6 of R258's table, tokens of `a` to `z` as code unit numbers. -/
def leetRow6 : List (List Nat) :=
  [[0x40], [0x7C, 0x33], [0x5B], [0x7C, 0x29], [0x26], [0x7C, 0x3D], [0x36], [0x23], [0x21],
   [0x2C, 0x7C], [0x7C, 0x3C], [0x31], [0x5E, 0x5E], [0x5E, 0x2F], [0x30], [0x7C, 0x2A], [0x39], [0x7C, 0x32],
   [0x35], [0x37], [0x28, 0x5F, 0x29], [0x5C, 0x2F], [0x5C, 0x2F, 0x5C, 0x2F], [0x3E, 0x3C], [0x27, 0x2F], [0x32]]

/-- Level 7 of R258's table, tokens of `a` to `z` as code unit numbers. -/
def leetRow7 : List (List Nat) :=
  [[0x40], [0x38], [0x28], [0x7C, 0x29], [0x26], [0x7C, 0x3D], [0x36], [0x7C, 0x2D, 0x7C], [0x21],
   [0x5F, 0x7C], [0x7C, 0x28], [0x31], [0x7C, 0x5C, 0x2F, 0x7C], [0x7C, 0x5C, 0x7C], [0x28, 0x29], [0x7C, 0x3E], [0x28, 0x2C, 0x29], [0x7C, 0x32],
   [0x24], [0x7C], [0x7C, 0x5F, 0x7C], [0x5C, 0x2F], [0x5C, 0x5E, 0x2F], [0x29, 0x28], [0x27, 0x2F], [0x22, 0x2F, 0x5F]]

/-- Level 8 of R258's table, tokens of `a` to `z` as code unit numbers. -/
def leetRow8 : List (List Nat) :=
  [[0x40], [0x38], [0x28], [0x7C, 0x29], [0x26], [0x7C, 0x3D], [0x36], [0x7C, 0x2D, 0x7C], [0x21],
   [0x5F, 0x7C], [0x7C, 0x7B], [0x7C, 0x5F], [0x2F, 0x5C, 0x2F, 0x5C], [0x7C, 0x5C, 0x7C], [0x28, 0x29], [0x7C, 0x3E], [0x28, 0x2C, 0x29], [0x7C, 0x32],
   [0x24], [0x7C], [0x7C, 0x5F, 0x7C], [0x5C, 0x2F], [0x5C, 0x5E, 0x2F], [0x29, 0x28], [0x27, 0x2F], [0x22, 0x2F, 0x5F]]

/-- The default `LEET_ROM` (R258; log 11): nine rows of 26 tokens. -/
def defaultLeetRom : List (List Text) :=
  [leetRow0, leetRow1, leetRow2, leetRow3, leetRow4, leetRow5, leetRow6, leetRow7, leetRow8].map fun row =>
    row.map fun token => token.map (BitVec.ofNat 16)

/-- The defaults that R5 gives the open parameters. -/
def defaultParams : Params where
  txtCap := 1024
  bytCap := 4096
  leetTokMax := 4
  leetRom := defaultLeetRom
  lower := .ascii

/-- `WBUF_CAP` (R5, R6). -/
def wbufCap (p : Params) : Nat := 16 * ((p.bytCap + 8) / 64 + 1)

end Sys2Proof.Machine
end

