-- ==== Sys2Proof/Machine/State.lean ====
section
/-! DEFINITION. The state of PMCORE (spec/10_state.md R20 to R40), as plain data, and its value after reset (R39). The fields from
`cmd` on are the model's own and are named so in INVENTORY.md. -/

namespace Sys2Proof.Machine

/-- What the cells of a buffer hold where none is listed: 0 after `WIPE` or a scrub (R38, R291), or the free values of
an unwritten buffer after the reset numbered `epoch` (R39, U1; log 4). -/
inductive Base where
  | zero
  | unspecified (epoch : Nat) (buf : BufId)
deriving DecidableEq, Repr

/-- The cells of one buffer: the listed (index, value) pairs over a background (log 5). -/
structure Cells (w : Nat) where
  base : Base
  map : List (Nat × BitVec w)
deriving DecidableEq, Repr

/-- The one form a buffer's cells are kept in: indices strictly rising, and over the background 0 no listed 0. -/
def Cells.wf {w : Nat} (c : Cells w) : Bool :=
  decide ((c.map.map Prod.fst).Pairwise (· < ·)) && (!(c.base == .zero) || c.map.all fun e => !(e.2 == 0))

/-- The text, byte and word spaces (R60): every buffer cell of the machine. -/
structure Memory where
  wbuf : Cells 32
  byt : Vector (Cells 8) 4
  txt : Vector (Cells 16) 8
deriving DecidableEq, Repr

/-- Every buffer's cells are in the canonical form. -/
abbrev Memory.wf (m : Memory) : Prop :=
  m.wbuf.wf = true ∧ (∀ k : Fin 4, m.byt[k].wf = true) ∧ ∀ k : Fin 8, m.txt[k].wf = true

/-- Memory after the reset numbered `epoch`: every cell unspecified (R39, R331). -/
def unwrittenMemory (epoch : Nat) : Memory where
  wbuf := ⟨.unspecified epoch .wbuf, []⟩
  byt := Vector.ofFn fun k => ⟨.unspecified epoch (.byt k), []⟩
  txt := Vector.ofFn fun k => ⟨.unspecified epoch (.txt k), []⟩

/-- What the host does in one step (R61, R330; U5): the machine's input (log 1). -/
inductive HostEvent where
  /-- The host does nothing; the sequencer moves (log 2). -/
  | idle
  /-- `HostRead(off)`. -/
  | read (off : Word)
  /-- `HostWrite(off, v)`. -/
  | write (off v : Word)
  /-- The reset input is asserted. -/
  | reset
deriving DecidableEq, Repr

/-- PMCORE stops with a fault for one cause only, and it lies outside the machine. -/
inductive Fault where
  /-- Raised by `step` for a host transaction at an offset outside the 22-bit window of R61, which addresses nothing of
  PMCORE. Safe: the model stops, no value is made up (log 9). -/
  | outsideWindow (off : Word)
deriving DecidableEq, Repr

/-- What the model has no meaning for. No command is refused. -/
inductive Refusal where
  /-- An instruction of the opcode table without a meaning. No arm of `exec` answers it. Safe. -/
  | notModelled (mnemonic : String)
  /-- Raised by `step` for a host write while `STATUS.BUSY` = 1, whose effect the spec leaves unspecified and tells a model
  to refuse (R70, R336, U3). Safe (log 7). -/
  | busyWrite (off : Word)
  /-- Raised by `step` for a host access at an offset that is not a multiple of 4, which R65 and U2 tell a model to
  refuse. Safe (log 8). -/
  | misaligned (off : Word)
deriving DecidableEq, Repr

/-- The state of one PMCORE instance. -/
structure State where
  /-- `H[0..7]` (R21). -/
  h : Vector Word 8
  /-- `STATUS` (R23); its bit 0, `BUSY`, is the sequencer state `SEQ` (R22; log 15). -/
  status : Word
  /-- `CTRL` (R24). -/
  ctrl : Word
  /-- `PWLEN` (R28). -/
  pwlen : Word
  /-- `LEETCTL` (R29). -/
  leetctl : Word
  /-- `BITLEN` (R30). -/
  bitlen : Word
  /-- `RND` (R31). -/
  rnd : Word
  /-- `WLEN` (R32). -/
  wlen : Word
  /-- `BLEN[0..3]` (R33). -/
  blen : Vector Word 4
  /-- `TLEN[0..7]` (R34). -/
  tlen : Vector Word 8
  /-- The cells of `WBUF`, `BYT[0..3]` and `TXT[0..7]` (R32 to R34). -/
  mem : Memory
  /-- Model's own: the command word in progress while `BUSY`, 0 otherwise (R27, R73; log 13). -/
  cmd : Word
  /-- Model's own: the parameters of this instance (R5, R40; log 3). -/
  params : Params
  /-- Model's own: the host's transactions still to come, first one first (R71; log 1). -/
  inputs : List HostEvent
  /-- Model's own: the datum the last transaction returned, if it was a read (R61; log 12). -/
  reply : Option Word
  /-- Model's own: the number of the next free value (log 14). -/
  freeIx : Nat
deriving DecidableEq, Repr

/-- The three outcomes of a step of this machine. -/
abbrev Result := Host.Outcome State Fault Refusal

/-- The state after reset (R39, R330): every register and length 0, every cell unspecified, the parameters at their
defaults (R5), no host transaction to come. -/
def State.reset : State where
  h := Vector.replicate 8 0
  status := 0
  ctrl := 0
  pwlen := 0
  leetctl := 0
  bitlen := 0
  rnd := 0
  wlen := 0
  blen := Vector.replicate 4 0
  tlen := Vector.replicate 8 0
  mem := unwrittenMemory 0
  cmd := 0
  params := defaultParams
  inputs := []
  reply := none
  freeIx := 1

end Sys2Proof.Machine
end

