-- ==== Sys2Proof/Machine/Flags.lean ====
section
/-! DEFINITION. The `STATUS` register (spec/10_state.md R23) and the error codes (spec/60_exceptions.md R301): PMCORE's only
flags. No arithmetic flag exists. -/

namespace Sys2Proof.Machine

/-- The six error classes (R301). -/
inductive ErrorCode where
  | invalidCharset
  | unknownAlgorithm
  /-- Reserved, never raised (R311). -/
  | malformedInput
  | illegalCommand
  | illegalParameter
  | capacityExceeded
deriving DecidableEq, Repr

/-- The number of an error class, the value of `STATUS.ECODE` (R301). -/
def ErrorCode.code : ErrorCode → BitVec 4
  | .invalidCharset => 1
  | .unknownAlgorithm => 2
  | .malformedInput => 3
  | .illegalCommand => 4
  | .illegalParameter => 5
  | .capacityExceeded => 6

/-- `STATUS` from its fields (R23); bits 31:8 are 0. -/
def statusWord (busy done err warn : Bool) (ecode : BitVec 4) : Word :=
  0#24 ++ ecode ++ BitVec.ofBool warn ++ BitVec.ofBool err ++ BitVec.ofBool done ++ BitVec.ofBool busy

/-- `STATUS.BUSY` (R23): the sequencer is `BUSY` (R22). -/
def State.busy (s : State) : Bool := s.status.getLsbD 0

/-- `STATUS.DONE` (R23). -/
def State.done (s : State) : Bool := s.status.getLsbD 1

/-- `STATUS.ERR` (R23). -/
def State.err (s : State) : Bool := s.status.getLsbD 2

/-- `STATUS.WARN` (R23). -/
def State.warn (s : State) : Bool := s.status.getLsbD 3

/-- `STATUS.ECODE` (R23). -/
def State.ecode (s : State) : BitVec 4 := s.status.extractLsb' 4 4

/-- `STATUS` from the accept of a command to its completion: `BUSY` alone (R309). -/
def statusRunning : Word := statusWord true false false false 0

/-- `STATUS` after a completion without error (R309): `DONE` alone. -/
def statusDone : Word := statusWord false true false false 0

/-- `STATUS` after a silent compat-mode path (R306): `DONE`, `WARN` and the suppressed code. -/
def statusWarn (e : ErrorCode) : Word := statusWord false true false true e.code

/-- `STATUS` after an error (R303): `DONE`, `ERR` and the code. -/
def statusError (e : ErrorCode) : Word := statusWord false true true false e.code

end Sys2Proof.Machine
end

