-- ==== Sys2Proof/Machine/Ops.lean ====
section
/-! DEFINITION. The operations the commands share: reading and writing buffer cells (spec/20_memory.md R63, R74, R75), the scrub
(spec/10_state.md R38), and the completion of a command, without error, on a silent path, or by `raise`
(spec/60_exceptions.md R303, R306, R309). -/

namespace Sys2Proof.Machine

/-- What cell `i` holds when it is not listed: the background. -/
def Cells.unlisted {w : Nat} (c : Cells w) (i : Nat) : BitVec w :=
  match c.base with
  | .zero => 0
  | .unspecified epoch buf => Config.unspecifiedCell w epoch buf i

/-- The value of cell `i`. -/
def Cells.get {w : Nat} (c : Cells w) (i : Nat) : BitVec w :=
  match c.map.lookup i with
  | some v => v
  | none => c.unlisted i

/-- Put `(i, v)` in its place in a list whose indices rise. -/
def insertCell {w : Nat} (i : Nat) (v : BitVec w) : List (Nat × BitVec w) → List (Nat × BitVec w)
  | [] => [(i, v)]
  | (j, u) :: rest =>
    if i < j then (i, v) :: (j, u) :: rest
    else if i = j then (i, v) :: rest
    else (j, u) :: insertCell i v rest

/-- An entry is listed unless it says what the background says. -/
def Base.lists {w : Nat} (b : Base) (e : Nat × BitVec w) : Bool := !(b == .zero) || !(e.2 == 0)

/-- One cell written. -/
def Cells.set {w : Nat} (c : Cells w) (i : Nat) (v : BitVec w) : Cells w :=
  if c.base.lists (i, v) then { c with map := insertCell i v c.map }
  else { c with map := c.map.filter fun e => !(e.1 == i) }

/-- Cells `0` to `|vs| - 1` written with the sequence `vs`; the others keep their values (R75). -/
def Cells.load {w : Nat} (c : Cells w) (vs : List (BitVec w)) : Cells w :=
  { c with map := (vs.zipIdx.map fun e => (e.2, e.1)).filter c.base.lists
                    ++ c.map.filter fun e => vs.length ≤ e.1 }

/-- Every cell 0. -/
def Cells.cleared {w : Nat} : Cells w := ⟨.zero, []⟩

/-- `CellRead` (R10), zero-extended to a bus word as `HostRead` gives it (R63). -/
def Memory.read (m : Memory) : BufId → Nat → Word
  | .wbuf, i => m.wbuf.get i
  | .byt k, i => (m.byt[k].get i).setWidth 32
  | .txt k, i => (m.txt[k].get i).setWidth 32

/-- `CellWrite` (R10) of a bus word: a text cell stores bits 15:0, a byte cell bits 7:0, a word cell all (R63). -/
def Memory.write (m : Memory) (b : BufId) (i : Nat) (v : Word) : Memory :=
  match b with
  | .wbuf => { m with wbuf := m.wbuf.set i v }
  | .byt k => { m with byt := m.byt.set k (m.byt[k].set i (v.setWidth 8)) }
  | .txt k => { m with txt := m.txt.set k (m.txt[k].set i (v.setWidth 16)) }

/-- The value of one buffer cell, as the host would read it. -/
def State.cellRead (s : State) (b : BufId) (i : Nat) : Word := s.mem.read b i

/-- The content of `WBUF` (R10, R32): its first `WLEN` cells. -/
def State.words (s : State) : Words := (List.range s.wlen.toNat).map s.mem.wbuf.get

/-- The content of `BYT[k]` (R10, R33): its first `BLEN[k]` cells. -/
def State.bytes (s : State) (k : Fin 4) : Bytes := (List.range s.blen[k].toNat).map s.mem.byt[k].get

/-- The content of `TXT[k]` (R10, R34): its first `TLEN[k]` cells. -/
def State.text (s : State) (k : Fin 8) : Text := (List.range s.tlen[k].toNat).map s.mem.txt[k].get

/-- `WBUF` and `WLEN` after `WBUF <- ws`, the capacity apart. -/
def State.setWords (s : State) (ws : Words) : State :=
  { s with mem := { s.mem with wbuf := s.mem.wbuf.load ws }, wlen := BitVec.ofNat 32 ws.length }

/-- `BYT[k]` and `BLEN[k]` after `BYT[k] <- bs`, the capacity apart. -/
def State.setBytes (s : State) (k : Fin 4) (bs : Bytes) : State :=
  { s with mem := { s.mem with byt := s.mem.byt.set k (s.mem.byt[k].load bs) },
           blen := s.blen.set k (BitVec.ofNat 32 bs.length) }

/-- `TXT[k]` and `TLEN[k]` after `TXT[k] <- t`, the capacity apart. -/
def State.setText (s : State) (k : Fin 8) (t : Text) : State :=
  { s with mem := { s.mem with txt := s.mem.txt.set k (s.mem.txt[k].load t) },
           tlen := s.tlen.set k (BitVec.ofNat 32 t.length) }

/-- Destination write (R75) to `WBUF`: `none` is `CapacityExceeded`, nothing written. -/
def State.storeWords (s : State) (ws : Words) : Option State :=
  if ws.length ≤ wbufCap s.params then some (s.setWords ws) else none

/-- Destination write (R75) to `BYT[k]`: `none` is `CapacityExceeded`, nothing written. -/
def State.storeBytes (s : State) (k : Fin 4) (bs : Bytes) : Option State :=
  if bs.length ≤ s.params.bytCap then some (s.setBytes k bs) else none

/-- Destination write (R75) to `TXT[k]`: `none` is `CapacityExceeded`, nothing written. -/
def State.storeText (s : State) (k : Fin 8) (t : Text) : Option State :=
  if t.length ≤ s.params.txtCap then some (s.setText k t) else none

/-- The scrub (R38): every cell of `WBUF`, `WLEN` and `H[0..7]` become 0. `BITLEN` stays. -/
def State.scrub (s : State) : State :=
  { s with mem := { s.mem with wbuf := Cells.cleared }, wlen := 0, h := Vector.replicate 8 0 }

/-- The command word is consumed and `STATUS` takes its final value (R27, R309; log 16). -/
def State.finish (s : State) (status : Word) : State := { s with status := status, cmd := 0 }

/-- Completion without error (R309). -/
def complete (s : State) : Result := .next (s.finish statusDone)

/-- Completion on a silent compat-mode path (R306): no error, `WARN` and the suppressed code. -/
def completeWarn (s : State) (e : ErrorCode) : Result := .next (s.finish (statusWarn e))

/-- `raise E` (R303): PMCORE's one way of taking an exception. `STATUS` reports the code; every other piece of state
keeps the value it had when the command was issued. There is no trap entry and no return (R314, R315). -/
def raise (s : State) (e : ErrorCode) : Result := .next (s.finish (statusError e))

/-- A command that ends with a destination write: completed if the result fits, else `CapacityExceeded` (R75, R303). -/
def deliver (s : State) (written : Option State) : Result :=
  match written with
  | some t => complete t
  | none => raise s .capacityExceeded

/-- A compound command that ends with a destination write and the scrub (R38). -/
def deliverScrubbed (s : State) (written : Option State) : Result :=
  match written with
  | some t => complete t.scrub
  | none => raise s .capacityExceeded

/-- The accept of the command word `c` (R27, R309): `STATUS` shows `BUSY` alone, the word is sampled. -/
def State.accept (s : State) (c : Word) : State := { s with status := statusRunning, cmd := c }

/-- `WIPE`'s state change (R291): every buffer cell, every length, `H`, `BITLEN`, `PWLEN`, `LEETCTL` and `RND` become 0. -/
def State.wiped (s : State) : State :=
  { s with
    mem := { wbuf := Cells.cleared, byt := Vector.replicate 4 Cells.cleared, txt := Vector.replicate 8 Cells.cleared }
    wlen := 0
    blen := Vector.replicate 4 0
    tlen := Vector.replicate 8 0
    h := Vector.replicate 8 0
    bitlen := 0
    pwlen := 0
    leetctl := 0
    rnd := 0 }

end Sys2Proof.Machine
end

