-- ==== Sys2Proof/Machine/Primitives.lean ====
section
/-! DEFINITION. The 32-bit primitives of spec/00_scope.md R8 beside addition and the bitwise operators, and the sign extension of R10. -/

namespace Sys2Proof.Machine

/-- `rotl32(x, n)` for 0 < n < 32: circular left rotate (R8). -/
def rotl32 (x : Word) (n : Nat) : Word := (x <<< n) ||| (x >>> (32 - n))

/-- `rotr32(x, n) = rotl32(x, 32 - n)` for 0 < n < 32 (R8). -/
def rotr32 (x : Word) (n : Nat) : Word := rotl32 x (32 - n)

/-- `shr32(x, n)`: zeros shifted in (R8). -/
def shr32 (x : Word) (n : Nat) : Word := x >>> n

/-- `not32(x)` (R8). -/
def not32 (x : Word) : Word := x ^^^ 0xFFFFFFFF

/-- `sext_8(v)` (R10): the byte read as two's complement. -/
def sext8 (v : Byte) : Int := if v.toNat < 128 then v.toNat else (v.toNat : Int) - 256

end Sys2Proof.Machine
end

