-- ==== Sys2Proof/Syntax.lean ====
section
/-! DEFINITION. The commands of PMCORE (spec/30_encoding.md R81 to R87; spec/opcode_table.json): one constructor per row of
the opcode table, its arguments the raw fields of the command word. Also the seven hash variants (spec/00_scope.md R11)
and the thirteen algorithm tags (R12), which select a meaning and are no operands of their own. -/

namespace Sys2Proof

/-- The seven hash variants (R11, R85), in the order of their `HV` numbers. -/
inductive Variant where
  | md4 | md5 | md5l | sha1 | sha256 | sha256l | rmd160
deriving DecidableEq, Repr

/-- The thirteen algorithm tags (R12, R86), in the order of their `ALG` numbers. -/
inductive Tag where
  | sha256 | hmacSha256 | hmacSha256Legacy | sha1 | hmacSha1 | md4 | hmacMd4 | md5 | md5Legacy | hmacMd5
  | hmacMd5Legacy | rmd160 | hmacRmd160
deriving DecidableEq, Repr

/-- A 3-bit buffer index field (`A`, `B` or `D` of R81). A "t" operand takes every value; a "b" operand only 0 to 3
(R87), which `Instr.wellFormed` checks. -/
abbrev BufField := BitVec 3

/-- One constructor per row of the opcode table (R84). -/
inductive Instr where
  | nop
  | wipe
  | utf8 (a d : BufField)
  | packle (a : BufField)
  | packbe (a : BufField)
  | padle
  | padbe
  | hinitMd4
  | hinitMd5
  | hinitMd5l
  | hinitSha1
  | hinitSha256
  | hinitSha256l
  | hinitRmd160
  | hblkMd4 (imm : BitVec 16)
  | hblkMd5 (imm : BitVec 16)
  | hblkMd5l (imm : BitVec 16)
  | hblkSha1 (imm : BitVec 16)
  | hblkSha256 (imm : BitVec 16)
  | hblkSha256l (imm : BitVec 16)
  | hblkRmd160 (imm : BitVec 16)
  | houtMd4 (d : BufField)
  | houtMd5 (d : BufField)
  | houtMd5l (d : BufField)
  | houtSha1 (d : BufField)
  | houtSha256 (d : BufField)
  | houtSha256l (d : BufField)
  | houtRmd160 (d : BufField)
  | digestMd4 (a d : BufField)
  | digestMd5 (a d : BufField)
  | digestMd5l (a d : BufField)
  | digestSha1 (a d : BufField)
  | digestSha256 (a d : BufField)
  | digestSha256l (a d : BufField)
  | digestRmd160 (a d : BufField)
  | hmacMd4 (a b d : BufField)
  | hmacMd5 (a b d : BufField)
  | hmacMd5l (a b d : BufField)
  | hmacSha1 (a b d : BufField)
  | hmacSha256 (a b d : BufField)
  | hmacSha256l (a b d : BufField)
  | hmacRmd160 (a b d : BufField)
  | radix (a d : BufField)
  | leet (a d : BufField)
  | genonce (alg : BitVec 4) (a b d : BufField)
  | derive (alg : BitVec 4)
deriving DecidableEq, Repr

/-- The `HINIT` row of a variant. -/
def Instr.hinit : Variant → Instr
  | .md4 => .hinitMd4 | .md5 => .hinitMd5 | .md5l => .hinitMd5l | .sha1 => .hinitSha1
  | .sha256 => .hinitSha256 | .sha256l => .hinitSha256l | .rmd160 => .hinitRmd160

/-- The `HBLK` row of a variant. -/
def Instr.hblk : Variant → BitVec 16 → Instr
  | .md4 => .hblkMd4 | .md5 => .hblkMd5 | .md5l => .hblkMd5l | .sha1 => .hblkSha1
  | .sha256 => .hblkSha256 | .sha256l => .hblkSha256l | .rmd160 => .hblkRmd160

/-- The `HOUT` row of a variant. -/
def Instr.hout : Variant → BufField → Instr
  | .md4 => .houtMd4 | .md5 => .houtMd5 | .md5l => .houtMd5l | .sha1 => .houtSha1
  | .sha256 => .houtSha256 | .sha256l => .houtSha256l | .rmd160 => .houtRmd160

/-- The `DIGEST` row of a variant. -/
def Instr.digest : Variant → BufField → BufField → Instr
  | .md4 => .digestMd4 | .md5 => .digestMd5 | .md5l => .digestMd5l | .sha1 => .digestSha1
  | .sha256 => .digestSha256 | .sha256l => .digestSha256l | .rmd160 => .digestRmd160

/-- The `HMAC` row of a variant. -/
def Instr.hmac : Variant → BufField → BufField → BufField → Instr
  | .md4 => .hmacMd4 | .md5 => .hmacMd5 | .md5l => .hmacMd5l | .sha1 => .hmacSha1
  | .sha256 => .hmacSha256 | .sha256l => .hmacSha256l | .rmd160 => .hmacRmd160

end Sys2Proof
end

