-- ==== Sys2Proof/Machine/Operands.lean ====
section
/-! DEFINITION. The operand forms of the commands: buffer indices (spec/30_encoding.md R87), block indices (R83), the fields of the
registers a command reads (spec/10_state.md R24, R29), the variants (spec/00_scope.md R11) and the tags (R12). -/

namespace Sys2Proof.Machine

/-- A "t" field with value `k` names `TXT[k]` (R87). -/
def textBuf (k : BufField) : Fin 8 := ⟨k.toNat, k.isLt⟩

/-- A "b" field with value `k ≤ 3` names `BYT[k]`; 4 to 7 name none (R87). -/
def byteBuf (k : BufField) : Option (Fin 4) := if h : k.toNat < 4 then some ⟨k.toNat, h⟩ else none

/-- Run `f` on the byte buffer that a "b" field names. A field of 4 to 7 makes the command illegal (R87, R88; log 17). -/
def withByteBuf (s : State) (k : BufField) (f : Fin 4 → Result) : Result :=
  match byteBuf k with
  | some i => f i
  | none => raise s .illegalCommand

/-- `TXT[5]`, `ALPHA`: the alphabet of `RADIX`, `GENONCE` and `DERIVE` (R34, R240). -/
def alphaBuf : Fin 8 := 5

/-- `TXT[7]`, `OUT`: the destination of `DERIVE` (R34). -/
def outBuf : Fin 8 := 7

/-- `CTRL.COMPAT` (R24). -/
def State.compat (s : State) : Bool := s.ctrl.getLsbD 0

/-- `CTRL.IE` (R24). -/
def State.ie (s : State) : Bool := s.ctrl.getLsbD 1

/-- `LEETCTL.TIMING` (R29): 0 none, 1 before-hashing, 2 after-hashing, 3 both. -/
def State.leetTiming (s : State) : BitVec 2 := s.leetctl.extractLsb' 0 2

/-- The leet level `sext_8(LEETCTL.LEVEL)` (R29). -/
def State.leetLevel (s : State) : Int := sext8 (s.leetctl.extractLsb' 8 8)

/-- Block `i` of a word sequence: words `16·i` to `16·i + 15` (R130). -/
def blockAt (ws : Words) (i : Nat) : Words := (ws.drop (16 * i)).take 16

end Sys2Proof.Machine

namespace Sys2Proof

/-- `K`: the number of state words of a variant (R11). -/
def Variant.stateWords : Variant → Nat
  | .md4 | .md5 | .md5l => 4
  | .sha1 | .rmd160 => 5
  | .sha256 | .sha256l => 8

/-- `DW`: the digest width of a variant in bytes (R11). -/
def Variant.digestBytes : Variant → Nat
  | .md4 | .md5 | .md5l => 16
  | .sha1 | .rmd160 => 20
  | .sha256 | .sha256l => 32

/-- The variant packs and unpacks little-endian (R11). -/
def Variant.littleEndian : Variant → Bool
  | .md4 | .md5 | .md5l | .rmd160 => true
  | .sha1 | .sha256 | .sha256l => false

/-- `ALG` numbers (R12, R86); 13, 14 and 15 name no tag. -/
def Tag.ofField (alg : BitVec 4) : Option Tag :=
  match alg.toNat with
  | 0 => some .sha256
  | 1 => some .hmacSha256
  | 2 => some .hmacSha256Legacy
  | 3 => some .sha1
  | 4 => some .hmacSha1
  | 5 => some .md4
  | 6 => some .hmacMd4
  | 7 => some .md5
  | 8 => some .md5Legacy
  | 9 => some .hmacMd5
  | 10 => some .hmacMd5Legacy
  | 11 => some .rmd160
  | 12 => some .hmacRmd160
  | _ => none

/-- `hv(tag)`: the variant of a tag (R12, R270). -/
def Tag.variant : Tag → Variant
  | .sha256 | .hmacSha256 => .sha256
  | .hmacSha256Legacy => .sha256l
  | .sha1 | .hmacSha1 => .sha1
  | .md4 | .hmacMd4 => .md4
  | .md5 | .hmacMd5 => .md5
  | .md5Legacy | .hmacMd5Legacy => .md5l
  | .rmd160 | .hmacRmd160 => .rmd160

/-- `keyed(tag)`: the tag is an HMAC variant (R12, R270). -/
def Tag.keyed : Tag → Bool
  | .hmacSha256 | .hmacSha256Legacy | .hmacSha1 | .hmacMd4 | .hmacMd5 | .hmacMd5Legacy | .hmacRmd160 => true
  | .sha256 | .sha1 | .md4 | .md5 | .md5Legacy | .rmd160 => false

end Sys2Proof
end

