-- ==== Sys2Proof/Machine/Codec.lean ====
section
/-! DEFINITION. The codecs (spec/40_codecs.md): `UTF8`, `PACKLE`, `PACKBE`, `PADLE`, `PADBE`, `HOUT.v`, and the functions
`toUtf8Bytes`, `packLE`, `packBE`, `padLE`, `padBE`, `unpackLE`, `unpackBE` that files 45 and 48 use. -/

namespace Sys2Proof.Machine

/-- 0xD800 to 0xDBFF (R101). -/
def isHighSurrogate (u : CodeUnit) : Bool := 0xD800 ≤ u.toNat && u.toNat ≤ 0xDBFF

/-- 0xDC00 to 0xDFFF (R101). -/
def isLowSurrogate (u : CodeUnit) : Bool := 0xDC00 ≤ u.toNat && u.toNat ≤ 0xDFFF

/-- The code point of a surrogate pair (R101; log 26). -/
def pairCodePoint (hi lo : CodeUnit) : Nat := 0x10000 + ((hi.toNat &&& 0x3FF) <<< 10) + (lo.toNat &&& 0x3FF)

/-- The UTF-8 bytes of one code point, by range (R102; log 26). -/
def encodeCp (cp : Nat) : Bytes :=
  let cont (n : Nat) : Byte := BitVec.ofNat 8 (0x80 ||| (n &&& 0x3F))
  if cp ≤ 0x7F then [BitVec.ofNat 8 cp]
  else if cp ≤ 0x7FF then [BitVec.ofNat 8 (0xC0 ||| (cp >>> 6)), cont cp]
  else if cp ≤ 0xFFFF then [BitVec.ofNat 8 (0xE0 ||| (cp >>> 12)), cont (cp >>> 6), cont cp]
  else [BitVec.ofNat 8 (0xF0 ||| (cp >>> 18)), cont (cp >>> 12), cont (cp >>> 6), cont cp]

/-- `toUtf8Bytes` (R101): a high surrogate with a low one right after it is one code point; every other unit, an unpaired
surrogate too, is its own. -/
def toUtf8Bytes : Text → Bytes
  | [] => []
  | [u] => encodeCp u.toNat
  | u :: v :: rest =>
    if isHighSurrogate u && isLowSurrogate v then encodeCp (pairCodePoint u v) ++ toUtf8Bytes rest
    else encodeCp u.toNat ++ toUtf8Bytes (v :: rest)

/-- `UTF8 tA, bD` (R100). -/
def execUtf8 (a d : BufField) (s : State) : Result :=
  withByteBuf s d fun d => deliver s (s.storeBytes d (toUtf8Bytes (s.text (textBuf a))))

/-- Four bytes as a word, byte 0 the low byte (R104). -/
def wordLE (b0 b1 b2 b3 : Byte) : Word := b3 ++ b2 ++ b1 ++ b0

/-- Four bytes as a word, byte 0 the high byte (R105). -/
def wordBE (b0 b1 b2 b3 : Byte) : Word := b0 ++ b1 ++ b2 ++ b3

/-- Four bytes to a word, the missing bytes of a partial last word 0 (R104, R105). -/
def packWords (word : Byte → Byte → Byte → Byte → Word) : Bytes → Words
  | [] => []
  | [b0] => [word b0 0 0 0]
  | [b0, b1] => [word b0 b1 0 0]
  | [b0, b1, b2] => [word b0 b1 b2 0]
  | b0 :: b1 :: b2 :: b3 :: rest => word b0 b1 b2 b3 :: packWords word rest

/-- `packLE` (R104). -/
def packLE (m : Bytes) : Words := packWords wordLE m

/-- `packBE` (R105). -/
def packBE (m : Bytes) : Words := packWords wordBE m

/-- `WBUF <- ws; BITLEN <- 8·n` (R104, R105). -/
def packInto (s : State) (ws : Words) (n : Nat) : Result :=
  deliver s ((s.storeWords ws).map fun t => { t with bitlen := BitVec.ofNat 32 (8 * n) })

/-- `PACKLE bA` (R104). -/
def execPackle (a : BufField) (s : State) : Result :=
  withByteBuf s a fun a => packInto s (packLE (s.bytes a)) (s.bytes a).length

/-- `PACKBE bA` (R105). -/
def execPackbe (a : BufField) (s : State) : Result :=
  withByteBuf s a fun a => packInto s (packBE (s.bytes a)) (s.bytes a).length

/-- `NW(L)`: the padded word count for a bit length (R108). -/
def paddedWords (bits : Nat) : Nat := 16 * ((bits + 64) / 512) + 16

/-- The words of `ws` under the bit length, zero words up to `NW`, and the marker byte ORed in at `shift` (R109, R110). Words
beyond the bit length are not cleared (R107). -/
def markPadding (ws : Words) (bits shift : Nat) : Words :=
  let p := ws ++ List.replicate (paddedWords bits - ws.length) 0
  p.set (bits / 32) (p.getD (bits / 32) 0 ||| (0x80#32 <<< shift))

/-- `padLE` (R109): the bit length in the last word but one, 0 in the last. -/
def padLE (ws : Words) (bits : Nat) : Words :=
  ((markPadding ws bits (bits % 32)).set (paddedWords bits - 2) (BitVec.ofNat 32 bits)).set (paddedWords bits - 1) 0

/-- `padBE` (R110): 0 in the last word but one, the bit length in the last. -/
def padBE (ws : Words) (bits : Nat) : Words :=
  ((markPadding ws bits (24 - bits % 32)).set (paddedWords bits - 2) 0).set (paddedWords bits - 1) (BitVec.ofNat 32 bits)

/-- The three checks of a padder, in the order of R109, then the padded sequence into `WBUF` (R109, R110, R312). -/
def padInto (s : State) (pad : Words → Nat → Words) : Result :=
  if s.bitlen.toNat % 8 ≠ 0 then raise s .illegalParameter
  else if wbufCap s.params < paddedWords s.bitlen.toNat then raise s .capacityExceeded
  else if paddedWords s.bitlen.toNat < s.wlen.toNat then raise s .illegalParameter
  else complete (s.setWords (pad s.words s.bitlen.toNat))

/-- `PADLE` (R109). -/
def execPadle (s : State) : Result := padInto s padLE

/-- `PADBE` (R110). -/
def execPadbe (s : State) : Result := padInto s padBE

/-- `unpackLE(w)`: low byte first (R112). -/
def unpackLE (w : Word) : Bytes :=
  [w.extractLsb' 0 8, w.extractLsb' 8 8, w.extractLsb' 16 8, w.extractLsb' 24 8]

/-- `unpackBE(w)`: high byte first (R112). -/
def unpackBE (w : Word) : Bytes :=
  [w.extractLsb' 24 8, w.extractLsb' 16 8, w.extractLsb' 8 8, w.extractLsb' 0 8]

/-- The digest bytes of a chaining state: the first `K` words in the variant's byte order (R112; log 26). -/
def unpackState (v : Variant) (h : Vector Word 8) : Bytes :=
  (h.toList.take v.stateWords).flatMap (if v.littleEndian then unpackLE else unpackBE)

/-- `HOUT.v bD` for any variant (R112). -/
def houtOp (v : Variant) (d : BufField) (s : State) : Result :=
  withByteBuf s d fun d => deliver s (s.storeBytes d (unpackState v s.h))

/-- `HOUT.MD4 bD` (R112). -/
def execHoutMd4 (d : BufField) (s : State) : Result := houtOp .md4 d s

/-- `HOUT.MD5 bD` (R112). -/
def execHoutMd5 (d : BufField) (s : State) : Result := houtOp .md5 d s

/-- `HOUT.MD5L bD` (R112): as `HOUT.MD5`. -/
def execHoutMd5l (d : BufField) (s : State) : Result := houtOp .md5l d s

/-- `HOUT.SHA1 bD` (R112). -/
def execHoutSha1 (d : BufField) (s : State) : Result := houtOp .sha1 d s

/-- `HOUT.SHA256 bD` (R112). -/
def execHoutSha256 (d : BufField) (s : State) : Result := houtOp .sha256 d s

/-- `HOUT.SHA256L bD` (R112): as `HOUT.SHA256`. -/
def execHoutSha256l (d : BufField) (s : State) : Result := houtOp .sha256l d s

/-- `HOUT.RMD160 bD` (R112). -/
def execHoutRmd160 (d : BufField) (s : State) : Result := houtOp .rmd160 d s

end Sys2Proof.Machine
end

