-- ==== Sys2Proof/Machine/Compress.lean ====
section
/-! DEFINITION. The compression functions and initial values: spec/41_md4_md5.md, spec/42_sha1.md, spec/43_sha256.md,
spec/44_ripemd160.md. A compression function takes the whole chaining register file and changes its first `K` words. -/

namespace Sys2Proof.Machine

/-- The working variables of MD4 and MD5 (R130). -/
structure MdVars where
  a : Word
  b : Word
  c : Word
  d : Word
deriving DecidableEq, Repr

/-- The working variables of SHA-1 (R163) and of one line of RIPEMD-160 (R198). -/
structure ShaVars where
  a : Word
  b : Word
  c : Word
  d : Word
  e : Word
deriving DecidableEq, Repr

/-- The working variables of SHA-256 (R179). -/
structure Sha2Vars where
  a : Word
  b : Word
  c : Word
  d : Word
  e : Word
  f : Word
  g : Word
  h : Word
deriving DecidableEq, Repr

/-- "Choose": `(x & y) | (not32(x) & z)`, the F of MD4 and MD5, the Ch of SHA-1 (R132, R140, R162). -/
def choose (x y z : Word) : Word := (x &&& y) ||| (not32 x &&& z)

/-- "Majority" with or: the G of MD4, the Maj of SHA-1 (R132, R162). -/
def majority (x y z : Word) : Word := (x &&& y) ||| (x &&& z) ||| (y &&& z)

/-- "Parity" (R132, R140, R162, R197). -/
def parity (x y z : Word) : Word := x ^^^ y ^^^ z

/-- The MD4 function of step `j` (R132). -/
def md4F (j : Nat) : Word → Word → Word → Word :=
  if j < 16 then choose else if j < 32 then majority else parity

/-- The MD4 constant of step `j` (R132). -/
def md4C (j : Nat) : Word := if j < 16 then 0x00000000 else if j < 32 then 0x5a827999 else 0x6ed9eba1

/-- The MD4 shift amount of step `j` (R132). -/
def md4S (j : Nat) : Nat :=
  (if j < 16 then [3, 7, 11, 19] else if j < 32 then [3, 5, 9, 13] else [3, 9, 11, 15]).getD (j % 4) 0

/-- One MD4 step (R133). -/
def md4Step (x : Words) (v : MdVars) (j : Nat) : MdVars :=
  let t := rotl32 (v.a + md4F j v.b v.c v.d + x.getD (md4Order.getD j 0) 0 + md4C j) (md4S j)
  ⟨v.d, t, v.b, v.c⟩

/-- The MD5 function of step `j` (R140). -/
def md5F (j : Nat) (b c d : Word) : Word :=
  if j < 16 then choose b c d
  else if j < 32 then (b &&& d) ||| (c &&& not32 d)
  else if j < 48 then parity b c d
  else c ^^^ (b ||| not32 d)

/-- The MD5 message-word index of step `j` (R140). -/
def md5Index (j : Nat) : Nat :=
  if j < 16 then j else if j < 32 then (5 * j + 1) % 16 else if j < 48 then (3 * j + 5) % 16 else 7 * j % 16

/-- The MD5 shift amount of step `j` (R140). -/
def md5S (j : Nat) : Nat :=
  (if j < 16 then [7, 12, 17, 22] else if j < 32 then [5, 9, 14, 20] else if j < 48 then [4, 11, 16, 23]
    else [6, 10, 15, 21]).getD (j % 4) 0

/-- One MD5 step (R143). -/
def md5Step (x : Words) (v : MdVars) (j : Nat) : MdVars :=
  let t := v.b + rotl32 (v.a + md5F j v.b v.c v.d + x.getD (md5Index j) 0 + md5T.getD j 0) (md5S j)
  ⟨v.d, t, v.b, v.c⟩

/-- The steps and the feed-forward of MD4 and MD5 (R130, R133, R143); `H[4..7]` are neither read nor written. -/
def mdCompress (step : MdVars → Nat → MdVars) (steps : Nat) (h : Vector Word 8) : Vector Word 8 :=
  let r := (List.range steps).foldl step ⟨h[0], h[1], h[2], h[3]⟩
  #v[h[0] + r.a, h[1] + r.b, h[2] + r.c, h[3] + r.d, h[4], h[5], h[6], h[7]]

/-- The SHA-1 function of step `t` (R162). -/
def sha1F (t : Nat) : Word → Word → Word → Word :=
  if t < 20 then choose else if t < 40 then parity else if t < 60 then majority else parity

/-- The SHA-1 constant of step `t` (R162). -/
def sha1K (t : Nat) : Word :=
  if t < 20 then 0x5a827999 else if t < 40 then 0x6ed9eba1 else if t < 60 then 0x8f1bbcdc else 0xca62c1d6

/-- A message schedule: from the sixteen block words, `more` further words, each from the words before it, which `next` is given
last first (`W[t-1]` at index 0). -/
def schedule (next : Words → Word) (more : Nat) (x : Words) : Words :=
  ((List.range more).foldl (fun acc _ => next acc :: acc) x.reverse).reverse

/-- `W[t]` of SHA-1 from the words before it, last first (R162). -/
def sha1Next (w : Words) : Word := rotl32 (w.getD 2 0 ^^^ w.getD 7 0 ^^^ w.getD 13 0 ^^^ w.getD 15 0) 1

/-- One SHA-1 step (R163). -/
def sha1Step (w : Words) (v : ShaVars) (t : Nat) : ShaVars :=
  ⟨rotl32 v.a 5 + sha1F t v.b v.c v.d + v.e + sha1K t + w.getD t 0, v.a, rotl32 v.b 30, v.c, v.d⟩

/-- The SHA-1 compression (R163). -/
def sha1Compress (h : Vector Word 8) (x : Words) : Vector Word 8 :=
  let r := (List.range 80).foldl (sha1Step (schedule sha1Next 64 x)) ⟨h[0], h[1], h[2], h[3], h[4]⟩
  #v[h[0] + r.a, h[1] + r.b, h[2] + r.c, h[3] + r.d, h[4] + r.e, h[5], h[6], h[7]]

/-- `Ch` of SHA-256 (R178). -/
def sha2Ch (e f g : Word) : Word := (e &&& f) ^^^ (not32 e &&& g)

/-- `Maj` of SHA-256 (R178). -/
def sha2Maj (a b c : Word) : Word := (a &&& b) ^^^ (a &&& c) ^^^ (b &&& c)

/-- `Sigma0` (R178). -/
def bigSigma0 (x : Word) : Word := rotr32 x 2 ^^^ rotr32 x 13 ^^^ rotr32 x 22

/-- `Sigma1` (R178). -/
def bigSigma1 (x : Word) : Word := rotr32 x 6 ^^^ rotr32 x 11 ^^^ rotr32 x 25

/-- `Gamma0` (R178). -/
def gamma0 (x : Word) : Word := rotr32 x 7 ^^^ rotr32 x 18 ^^^ shr32 x 3

/-- `Gamma1` (R178). -/
def gamma1 (x : Word) : Word := rotr32 x 17 ^^^ rotr32 x 19 ^^^ shr32 x 10

/-- `W[t]` of SHA-256 from the words before it, last first (R178). -/
def sha2Next (w : Words) : Word := gamma1 (w.getD 1 0) + w.getD 6 0 + gamma0 (w.getD 14 0) + w.getD 15 0

/-- One SHA-256 step (R179). -/
def sha2Step (w : Words) (v : Sha2Vars) (t : Nat) : Sha2Vars :=
  let t1 := v.h + bigSigma1 v.e + sha2Ch v.e v.f v.g + sha256K.getD t 0 + w.getD t 0
  let t2 := bigSigma0 v.a + sha2Maj v.a v.b v.c
  ⟨t1 + t2, v.a, v.b, v.c, v.d + t1, v.e, v.f, v.g⟩

/-- The SHA-256 compression (R179). -/
def sha2Compress (h : Vector Word 8) (x : Words) : Vector Word 8 :=
  let r := (List.range 64).foldl (sha2Step (schedule sha2Next 48 x))
    ⟨h[0], h[1], h[2], h[3], h[4], h[5], h[6], h[7]⟩
  #v[h[0] + r.a, h[1] + r.b, h[2] + r.c, h[3] + r.d, h[4] + r.e, h[5] + r.f, h[6] + r.g, h[7] + r.h]

/-- The RIPEMD-160 selection function of step `j` (R197). -/
def rmdF (j : Nat) (x y z : Word) : Word :=
  if j < 16 then parity x y z
  else if j < 32 then choose x y z
  else if j < 48 then (x ||| not32 y) ^^^ z
  else if j < 64 then (x &&& z) ||| (y &&& not32 z)
  else x ^^^ (y ||| not32 z)

/-- One step of one RIPEMD-160 line: function number `j`, message word `m`, constant `k`, rotate amount `r` (R198). -/
def rmdLineStep (j : Nat) (m k : Word) (r : Nat) (v : ShaVars) : ShaVars :=
  let t := rotl32 (v.a + rmdF j v.b v.c v.d + m + k) r + v.e
  ⟨v.e, t, v.b, rotl32 v.c 10, v.d⟩

/-- Step `j` of the left line (R197, R198). -/
def rmdLeftStep (x : Words) (v : ShaVars) (j : Nat) : ShaVars :=
  rmdLineStep j (x.getD (rmdRl.getD j 0) 0) (rmdKl.getD (j / 16) 0) (rmdSl.getD j 0) v

/-- Step `j` of the right line, the functions in the opposite order (R197, R198). -/
def rmdRightStep (x : Words) (v : ShaVars) (j : Nat) : ShaVars :=
  rmdLineStep (79 - j) (x.getD (rmdRr.getD j 0) 0) (rmdKr.getD (j / 16) 0) (rmdSr.getD j 0) v

/-- The RIPEMD-160 compression: two lines of 80 steps, which do not interact before the end, and their combination (R198). -/
def rmdCompress (h : Vector Word 8) (x : Words) : Vector Word 8 :=
  let start : ShaVars := ⟨h[0], h[1], h[2], h[3], h[4]⟩
  let l := (List.range 80).foldl (rmdLeftStep x) start
  let r := (List.range 80).foldl (rmdRightStep x) start
  #v[h[1] + l.c + r.d, h[2] + l.d + r.e, h[3] + l.e + r.a, h[4] + l.a + r.b, h[0] + l.b + r.c, h[5], h[6], h[7]]

/-- The initial values that `HINIT.v` loads, the registers a variant does not use at 0
(R131, R141, R142, R161, R176, R177, R196; log 26). -/
def initialH : Variant → Vector Word 8
  | .md4 | .md5 | .md5l => #v[0x67452301, 0xefcdab89, 0x98badcfe, 0x10325476, 0, 0, 0, 0]
  | .sha1 | .rmd160 => #v[0x67452301, 0xefcdab89, 0x98badcfe, 0x10325476, 0xc3d2e1f0, 0, 0, 0]
  | .sha256 | .sha256l =>
    #v[0x6a09e667, 0xbb67ae85, 0x3c6ef372, 0xa54ff53a, 0x510e527f, 0x9b05688c, 0x1f83d9ab, 0x5be0cd19]

/-- The compression function of a variant on one block of sixteen words
(R133, R143, R144, R163, R179, R180, R198). -/
def compress (v : Variant) (h : Vector Word 8) (x : Words) : Vector Word 8 :=
  match v with
  | .md4 => mdCompress (md4Step x) 48 h
  | .md5 | .md5l => mdCompress (md5Step x) 64 h
  | .sha1 => sha1Compress h x
  | .sha256 | .sha256l => sha2Compress h x
  | .rmd160 => rmdCompress h x

end Sys2Proof.Machine
end

