-- ==== Sys2Proof/Machine/Hash.lean ====
section
/-! DEFINITION. The hash primitives: `HINIT.v` and `HBLK.v #i` for the seven variants (spec/41_md4_md5.md, spec/42_sha1.md,
spec/43_sha256.md, spec/44_ripemd160.md). -/

namespace Sys2Proof.Machine

/-- `HINIT.v` for any variant: all eight registers (R131). -/
def hinitOp (v : Variant) (s : State) : Result := complete { s with h := initialH v }

/-- `HBLK.v #i` for any variant: the block must lie in the content of `WBUF` (R130, R304). -/
def hblkOp (v : Variant) (imm : BitVec 16) (s : State) : Result :=
  if s.wlen.toNat < 16 * imm.toNat + 16 then raise s .illegalParameter
  else complete { s with h := compress v s.h (blockAt s.words imm.toNat) }

/-- `HINIT.MD4` (R131). -/
def execHinitMd4 (s : State) : Result := hinitOp .md4 s

/-- `HINIT.MD5` (R141). -/
def execHinitMd5 (s : State) : Result := hinitOp .md5 s

/-- `HINIT.MD5L` (R142). -/
def execHinitMd5l (s : State) : Result := hinitOp .md5l s

/-- `HINIT.SHA1` (R161). -/
def execHinitSha1 (s : State) : Result := hinitOp .sha1 s

/-- `HINIT.SHA256` (R176). -/
def execHinitSha256 (s : State) : Result := hinitOp .sha256 s

/-- `HINIT.SHA256L` (R177). -/
def execHinitSha256l (s : State) : Result := hinitOp .sha256l s

/-- `HINIT.RMD160` (R196). -/
def execHinitRmd160 (s : State) : Result := hinitOp .rmd160 s

/-- `HBLK.MD4 #i` (R133). -/
def execHblkMd4 (imm : BitVec 16) (s : State) : Result := hblkOp .md4 imm s

/-- `HBLK.MD5 #i` (R143). -/
def execHblkMd5 (imm : BitVec 16) (s : State) : Result := hblkOp .md5 imm s

/-- `HBLK.MD5L #i` (R144). -/
def execHblkMd5l (imm : BitVec 16) (s : State) : Result := hblkOp .md5l imm s

/-- `HBLK.SHA1 #i` (R163). -/
def execHblkSha1 (imm : BitVec 16) (s : State) : Result := hblkOp .sha1 imm s

/-- `HBLK.SHA256 #i` (R179). -/
def execHblkSha256 (imm : BitVec 16) (s : State) : Result := hblkOp .sha256 imm s

/-- `HBLK.SHA256L #i` (R180). -/
def execHblkSha256l (imm : BitVec 16) (s : State) : Result := hblkOp .sha256l imm s

/-- `HBLK.RMD160 #i` (R198). -/
def execHblkRmd160 (imm : BitVec 16) (s : State) : Result := hblkOp .rmd160 imm s

end Sys2Proof.Machine
end

