-- ==== Sys2Proof/Machine/Digest.lean ====
section
/-! DEFINITION. `DIGEST.v` and `HMAC.v` for the seven variants, and the functions `hashWords`, `digest`, `hmac`, `hmacLegacy` that
file 48 uses (spec/45_digest_hmac.md). -/

namespace Sys2Proof.Machine

/-- The variant's packer (R11, R216). -/
def packFor (v : Variant) (m : Bytes) : Words := if v.littleEndian then packLE m else packBE m

/-- The variant's padder (R11, R215). -/
def padFor (v : Variant) (ws : Words) (bits : Nat) : Words := if v.littleEndian then padLE ws bits else padBE ws bits

/-- Blocks 0 to `|p|/16 - 1` compressed in order, each from the state the one before left (R215). -/
def compressBlocks (v : Variant) (h : Vector Word 8) (p : Words) : Vector Word 8 :=
  (List.range (p.length / 16)).foldl (fun h i => compress v h (blockAt p i)) h

/-- `hashWords(v, W, L)` (R215): the words `W` under a stated bit length. -/
def hashWords (v : Variant) (ws : Words) (bits : Nat) : Bytes :=
  unpackState v (compressBlocks v (initialH v) (padFor v ws bits))

/-- `digest(v, m)` (R216). -/
def digest (v : Variant) (m : Bytes) : Bytes := hashWords v (packFor v m) (8 * m.length)

/-- `prepKey(v, key)` (R218; log 26): 64 bytes; a key longer than the block is replaced by its digest. -/
def prepKey (v : Variant) (key : Bytes) : Bytes :=
  let k0 := if 64 < key.length then digest v key else key
  k0 ++ List.replicate (64 - k0.length) 0

/-- `ipad(k)` (R219). -/
def ipad (k : Bytes) : Bytes := k.map (· ^^^ 0x36)

/-- `opad(k)` (R219). -/
def opad (k : Bytes) : Bytes := k.map (· ^^^ 0x5c)

/-- `hmac(v, key, data)` (R220). -/
def hmac (v : Variant) (key data : Bytes) : Bytes :=
  let k := prepKey v key
  digest v (opad k ++ digest v (ipad k ++ data))

/-- `hmacLegacy(key, data)` (R222): the outer hash is given all 24 words and told 672 bits. -/
def hmacLegacy (key data : Bytes) : Bytes :=
  let k := prepKey .sha256 key
  hashWords .sha256 (packBE (opad k ++ digest .sha256 (ipad k ++ data))) 672

/-- `DIGEST.v bA, bD` for any variant (R217). -/
def digestOp (v : Variant) (a d : BufField) (s : State) : Result :=
  withByteBuf s a fun a => withByteBuf s d fun d =>
    deliverScrubbed s (s.storeBytes d (digest v (s.bytes a)))

/-- `HMAC.v bA, bB, bD` with the keyed hash `mac` (R221, R222): `A` the key, `B` the data. -/
def hmacOp (mac : Bytes → Bytes → Bytes) (a b d : BufField) (s : State) : Result :=
  withByteBuf s a fun a => withByteBuf s b fun b => withByteBuf s d fun d =>
    deliverScrubbed s (s.storeBytes d (mac (s.bytes a) (s.bytes b)))

/-- `DIGEST.MD4 bA, bD` (R217). -/
def execDigestMd4 (a d : BufField) (s : State) : Result := digestOp .md4 a d s

/-- `DIGEST.MD5 bA, bD` (R217). -/
def execDigestMd5 (a d : BufField) (s : State) : Result := digestOp .md5 a d s

/-- `DIGEST.MD5L bA, bD` (R217). -/
def execDigestMd5l (a d : BufField) (s : State) : Result := digestOp .md5l a d s

/-- `DIGEST.SHA1 bA, bD` (R217). -/
def execDigestSha1 (a d : BufField) (s : State) : Result := digestOp .sha1 a d s

/-- `DIGEST.SHA256 bA, bD` (R217). -/
def execDigestSha256 (a d : BufField) (s : State) : Result := digestOp .sha256 a d s

/-- `DIGEST.SHA256L bA, bD` (R217). -/
def execDigestSha256l (a d : BufField) (s : State) : Result := digestOp .sha256l a d s

/-- `DIGEST.RMD160 bA, bD` (R217). -/
def execDigestRmd160 (a d : BufField) (s : State) : Result := digestOp .rmd160 a d s

/-- `HMAC.MD4 bA, bB, bD` (R221). -/
def execHmacMd4 (a b d : BufField) (s : State) : Result := hmacOp (hmac .md4) a b d s

/-- `HMAC.MD5 bA, bB, bD` (R221). -/
def execHmacMd5 (a b d : BufField) (s : State) : Result := hmacOp (hmac .md5) a b d s

/-- `HMAC.MD5L bA, bB, bD` (R221). -/
def execHmacMd5l (a b d : BufField) (s : State) : Result := hmacOp (hmac .md5l) a b d s

/-- `HMAC.SHA1 bA, bB, bD` (R221). -/
def execHmacSha1 (a b d : BufField) (s : State) : Result := hmacOp (hmac .sha1) a b d s

/-- `HMAC.SHA256 bA, bB, bD` (R221). -/
def execHmacSha256 (a b d : BufField) (s : State) : Result := hmacOp (hmac .sha256) a b d s

/-- `HMAC.SHA256L bA, bB, bD` (R222): the compatibility variant. -/
def execHmacSha256l (a b d : BufField) (s : State) : Result := hmacOp hmacLegacy a b d s

/-- `HMAC.RMD160 bA, bB, bD` (R221). -/
def execHmacRmd160 (a b d : BufField) (s : State) : Result := hmacOp (hmac .rmd160) a b d s

end Sys2Proof.Machine
end

