-- ==== Sys2Proof/Machine/Leet.lean ====
section
/-! DEFINITION. The leet transformer: `LEET` and the function `leet` that file 48 uses (spec/47_leet.md). -/

namespace Sys2Proof.Machine

/-- The lowercase form of a code unit below 0x80, and of every code unit under the default `LOWER` (R256). -/
def asciiLower (u : CodeUnit) : CodeUnit := if 0x41 ≤ u.toNat ∧ u.toNat ≤ 0x5A then u + 32 else u

/-- The default `LOWER` (R256). -/
def asciiLowerText (s : Text) : Text := s.map asciiLower

/-- What R256 asks of every `LOWER`: each code unit of the text has its image, in order, the image of an ASCII unit is the one
of (a) and (b), and the length at most doubles (c). -/
def LowerAdmissible (f : Text → Text) : Prop :=
  ∀ s : Text, (f s).length ≤ 2 * s.length ∧
    ∃ pieces : List Text, f s = pieces.flatten ∧ pieces.length = s.length ∧
      ∀ (i : Nat) (u : CodeUnit), s[i]? = some u → u.toNat < 0x80 → pieces[i]? = some [asciiLower u]

/-- The state a scan of a `LOWER` table moves to; 0, its first state, where the table gives no move. -/
def lowerMove (moves : List LowerMove) (q : Nat) (u : CodeUnit) : Nat :=
  match moves.find? fun m => m.state == q && m.lo ≤ u && u ≤ m.hi with
  | some m => m.next
  | none => 0

/-- Whether a row speaks of the code unit `u` between the scan states `q` and `r`. -/
def lowerRowFits (row : LowerRow) (q : Nat) (u : CodeUnit) (r : Nat) : Bool :=
  row.before.all (· == q) && row.lo ≤ u && u ≤ row.hi && row.after.all (· == r)

/-- The image a row gives the code unit `u`. -/
def lowerImage (image : LowerImage) (u : CodeUnit) : Text :=
  match image with
  | .shift d => [u + d]
  | .text x => x

/-- What a `LOWER` table puts in place of the code unit `u` between the scan states `q` and `r`: R256 (a) and (b) below 0x80,
the first row that fits from there up, the unit itself where none does. -/
def tableUnit (t : LowerTable) (q : Nat) (u : CodeUnit) (r : Nat) : Text :=
  if u.toNat < 0x80 then [asciiLower u]
  else
    match t.rows.find? fun row => lowerRowFits row q u r with
    | some row => lowerImage row.image u
    | none => [u]

/-- The images of the code units of a text, one after another, where the scan from the front is in state `q`; and the
state in which the scan from the back ends. -/
def tablePieces (t : LowerTable) (q : Nat) : Text → List Text × Nat
  | [] => ([], 0)
  | u :: rest =>
    let (pieces, r) := tablePieces t (lowerMove t.forward q u) rest
    (tableUnit t q u r :: pieces, lowerMove t.backward r u)

/-- The function a `LOWER` table stands for. On a text it would lengthen beyond R256 (c) a table is the default instead, so
that every table is a function R256 admits (log 10). -/
def tableLower (t : LowerTable) (s : Text) : Text :=
  let image := (tablePieces t 0 s).1.flatten
  if image.length ≤ 2 * s.length then image else asciiLowerText s

/-- The function an instance takes as `LOWER` (R256). -/
def lowerText (l : Lowering) : Text → Text :=
  match l with
  | .ascii => asciiLowerText
  | .table t => tableLower t

/-- What R260 puts in place of one lowercased code unit, with the level's row of `LEET_ROM` (R257). -/
def leetUnit (row : List Text) (u : CodeUnit) : Text :=
  if 0x61 ≤ u.toNat ∧ u.toNat ≤ 0x7A then row.getD (u.toNat - 0x61) [] else [u]

/-- `leet(level, s)` (R260), with the two parameters of R5 it depends on as arguments: the function `LOWER` and the table
`LEET_ROM`. -/
def leetWith (lower : Text → Text) (rom : List (List Text)) (level : Int) (s : Text) : Text :=
  if level < 0 then s else (lower s).flatMap (leetUnit (rom.getD level.toNat []))

/-- `leet(level, s)` (R260) of one instance. -/
def leetText (p : Params) (level : Int) (s : Text) : Text := leetWith (lowerText p.lower) p.leetRom level s

/-- `LEET tA, tD` (R259). -/
def execLeet (a d : BufField) (s : State) : Result :=
  if 8 < s.leetLevel then raise s .illegalParameter
  else deliver s (s.storeText (textBuf d) (leetText s.params s.leetLevel (s.text (textBuf a))))

end Sys2Proof.Machine
end

