-- ==== Sys2Proof/Machine/Radix.lean ====
section
/-! DEFINITION. The radix encoder: `RADIX` and the functions `charsetOk`, `radixEncode` that file 48 uses (spec/46_radix.md). -/

namespace Sys2Proof.Machine

/-- `distinctCount(alpha)` (R246). -/
def distinctCount (alpha : Text) : Nat := alpha.dedup.length

/-- `charsetOk(alpha)` (R246). -/
def charsetOk (alpha : Text) : Bool := 2 ≤ distinctCount alpha

/-- `words(b)` (R242): the byte string as big-endian 16-bit words. -/
def dividendWords : Bytes → List Nat
  | hi :: lo :: rest => (hi.toNat * 256 + lo.toNat) :: dividendWords rest
  | _ => []

/-- Long division of a dividend by `n`, most significant word first, from the carry `x`: every quotient word, and the
remainder (R243). -/
def divideWords (n : Nat) : (x : Nat) → List Nat → List Nat × Nat
  | x, [] => ([], x)
  | x, w :: ws =>
    let y := x * 65536 + w
    let r := divideWords n (y % n) ws
    (y / n :: r.1, r.2)

/-- `pass(dv, N)` (R243): the quotient words without leading zeros, and the remainder. -/
def radixPass (dv : List Nat) (n : Nat) : List Nat × Nat :=
  let r := divideWords n 0 dv
  (r.1.dropWhile (· == 0), r.2)

/-- The loop of R244 with at most `fuel` passes: the remainders, the last computed first. -/
def radixDigits (n : Nat) : (fuel : Nat) → List Nat → List Nat
  | 0, _ => []
  | _ + 1, [] => []
  | fuel + 1, w :: ws =>
    let r := radixPass (w :: ws) n
    radixDigits n fuel r.1 ++ [r.2]

/-- `radixEncode(b, alpha)` (R244). A dividend of `k` words takes at most `16·k` passes when `N ≥ 2` (R245; log 21). -/
def radixEncode (b : Bytes) (alpha : Text) : Text :=
  (radixDigits alpha.length (16 * (dividendWords b).length) (dividendWords b)).map fun r => alpha.getD r 0

/-- `RADIX bA, tD` (R241). -/
def execRadix (a d : BufField) (s : State) : Result :=
  withByteBuf s a fun a =>
    let alpha := s.text alphaBuf
    if (s.bytes a).length % 2 = 1 then raise s .illegalParameter
    else if charsetOk alpha = false then
      if s.compat then completeWarn (s.setText (textBuf d) []) .invalidCharset else raise s .invalidCharset
    else deliver s (s.storeText (textBuf d) (radixEncode (s.bytes a) alpha))

end Sys2Proof.Machine
end

