-- ==== Sys2Proof/Machine/Derive.lean ====
section
/-! DEFINITION. The derivation engine: `GENONCE` and `DERIVE` (spec/48_derive.md R270 to R286). -/

namespace Sys2Proof.Machine

/-- `hashOf(tag, key, data)` (R270). -/
def hashOf (tag : Tag) (key data : Bytes) : Bytes :=
  if tag.keyed = false then digest tag.variant key
  else if tag = .hmacSha256Legacy then hmacLegacy key data
  else hmac tag.variant key data

/-- Timing before-hashing or both (R272). -/
def leetBefore (timing : BitVec 2) : Bool := timing == 1 || timing == 3

/-- Timing after-hashing or both (R272). -/
def leetAfter (timing : BitVec 2) : Bool := timing == 2 || timing == 3

/-- `leet` applied where the timing says so (R272, steps 2 and 5). -/
def leetIf (on : Bool) (p : Params) (level : Int) (s : Text) : Text := if on then leetText p level s else s

/-- `generateOnce` (R272): the fold of the data into an unkeyed key comes before the leet pre-pass. DESIGN CHOICE (log 10): under a
`LOWER` that lengthens or deletes, the chunk is what R256 and R260 make it, up to twice the length that R284 derives, or empty
against the derived sentence of R272. -/
def generateOnce (p : Params) (tag : Tag) (key data : Text) (timing : BitVec 2) (level : Int) (alpha : Text) : Text :=
  let key1 := if tag.keyed then key else key ++ data
  let key2 := leetIf (leetBefore timing) p level key1
  let data2 := leetIf (leetBefore timing && tag.keyed) p level data
  let chunk := radixEncode (hashOf tag (toUtf8Bytes key2) (toUtf8Bytes data2)) alpha
  leetIf (leetAfter timing) p level chunk

/-- The silent charset path of `GENONCE` and `DERIVE` (R306): the empty text, no round, the scrub. -/
def silentCharset (s : State) (d : Fin 8) : Result :=
  completeWarn { (s.setText d []) with rnd := 0 }.scrub .invalidCharset

/-- `GENONCE tag, tA, tB, tD` (R271, R273). -/
def execGenonce (alg : BitVec 4) (a b d : BufField) (s : State) : Result :=
  let alpha := s.text alphaBuf
  if 8 < s.leetLevel then raise s .illegalParameter
  else if charsetOk alpha = false then
    if s.compat then silentCharset s (textBuf d) else raise s .invalidCharset
  else
    match Tag.ofField alg with
    | none =>
      if s.compat then completeWarn { (s.setText (textBuf d) []) with rnd := 1 }.scrub .unknownAlgorithm
      else raise s .unknownAlgorithm
    | some tag =>
      let chunk :=
        generateOnce s.params tag (s.text (textBuf a)) (s.text (textBuf b)) s.leetTiming s.leetLevel alpha
      deliverScrubbed s ((s.storeText (textBuf d) chunk).map fun t => { t with rnd := 1 })

/-- The decimal digits of `n`, most significant first, at most `fuel` of them. -/
def decimalDigits : (fuel n : Nat) → Text
  | 0, _ => []
  | fuel + 1, n => (if n < 10 then [] else decimalDigits fuel (n / 10)) ++ [BitVec.ofNat 16 (0x30 + n % 10)]

/-- `dec(n)` (R282). -/
def decimal (n : Nat) : Text := decimalDigits (n + 1) n

/-- The key of round `n` (R283). -/
def roundKey (mkey : Text) (n : Nat) : Text := if n = 0 then mkey else mkey ++ [0x000A] ++ decimal n

/-- The loop of R283 from round `n` with the text accumulated so far, at most `fuel` rounds: the text and the number of
rounds run. An empty chunk ends it. -/
def deriveRounds (chunkOf : Nat → Text) (len : Nat) : (fuel n : Nat) → (acc : Text) → Text × Nat
  | 0, n, acc => (acc, n)
  | fuel + 1, n, acc =>
    if acc.length < len then
      match chunkOf n with
      | [] => (acc, n + 1)
      | u :: rest => deriveRounds chunkOf len fuel (n + 1) (acc ++ u :: rest)
    else (acc, n)

/-- `postProcess` (R285). -/
def postProcess (pre acc suf : Text) (len : Nat) : Text :=
  let r := pre ++ acc
  (if suf.length = 0 then r else r.take (len - suf.length) ++ suf).take len

/-- The chunk of round `n` of `DERIVE` (R273, R283): under an unrecognised tag, the empty text. -/
def deriveChunk (s : State) (tag : Option Tag) (n : Nat) : Text :=
  match tag with
  | none => []
  | some tag =>
    generateOnce s.params tag (roundKey (s.text 1) n) (s.text 0 ++ s.text 2 ++ s.text 6) s.leetTiming s.leetLevel
      (s.text alphaBuf)

/-- The accumulated text and the number of rounds of `DERIVE` (R283). Every round that does not end the loop adds a code unit,
so `PWLEN` rounds are enough (log 21). -/
def deriveAcc (s : State) (tag : Option Tag) : Text × Nat :=
  deriveRounds (deriveChunk s tag) s.pwlen.toNat s.pwlen.toNat 0 []

/-- The state change of a `DERIVE` that passed the checks (R280): `TXT[7]`, `RND` and the scrub. -/
def State.derived (s : State) (tag : Option Tag) : State :=
  { (s.setText outBuf (postProcess (s.text 3) (deriveAcc s tag).1 (s.text 4) s.pwlen.toNat)) with
    rnd := BitVec.ofNat 32 (deriveAcc s tag).2 }.scrub

/-- `DERIVE tag` (R280), its checks in the order of R281. The result has at most `PWLEN` code units and always fits. -/
def execDerive (alg : BitVec 4) (s : State) : Result :=
  if 8 < s.leetLevel then raise s .illegalParameter
  else if charsetOk (s.text alphaBuf) = false then
    if s.compat then silentCharset s outBuf else raise s .invalidCharset
  else
    match Tag.ofField alg with
    | none =>
      if s.compat = false then raise s .unknownAlgorithm
      else if s.params.txtCap < s.pwlen.toNat then raise s .capacityExceeded
      else completeWarn (s.derived none) .unknownAlgorithm
    | some tag =>
      if s.params.txtCap < s.pwlen.toNat then raise s .capacityExceeded
      else complete (s.derived (some tag))

end Sys2Proof.Machine
end

