-- ==== Sys2Proof/Machine/System.lean ====
section
/-! DEFINITION. `NOP` and `WIPE` (spec/48_derive.md R290, R291). -/

namespace Sys2Proof.Machine

/-- `NOP` (R290): nothing but the completion. -/
def execNop (s : State) : Result := complete s

/-- `WIPE` (R291). -/
def execWipe (s : State) : Result := complete s.wiped

end Sys2Proof.Machine
end

