-- ==== Sys2Proof/Machine/Dispatch.lean ====
section
/-! DEFINITION. The meaning of every instruction, one arm per row of spec/opcode_table.json (spec/30_encoding.md R84). -/

namespace Sys2Proof.Machine

def exec (i : Instr) (s : State) : Host.Outcome State Fault Refusal :=
  match i with
  | .nop => Sys2Proof.Machine.execNop s
  | .wipe => Sys2Proof.Machine.execWipe s
  | .utf8 a d => Sys2Proof.Machine.execUtf8 a d s
  | .packle a => Sys2Proof.Machine.execPackle a s
  | .packbe a => Sys2Proof.Machine.execPackbe a s
  | .padle => Sys2Proof.Machine.execPadle s
  | .padbe => Sys2Proof.Machine.execPadbe s
  | .hinitMd4 => Sys2Proof.Machine.execHinitMd4 s
  | .hinitMd5 => Sys2Proof.Machine.execHinitMd5 s
  | .hinitMd5l => Sys2Proof.Machine.execHinitMd5l s
  | .hinitSha1 => Sys2Proof.Machine.execHinitSha1 s
  | .hinitSha256 => Sys2Proof.Machine.execHinitSha256 s
  | .hinitSha256l => Sys2Proof.Machine.execHinitSha256l s
  | .hinitRmd160 => Sys2Proof.Machine.execHinitRmd160 s
  | .hblkMd4 imm => Sys2Proof.Machine.execHblkMd4 imm s
  | .hblkMd5 imm => Sys2Proof.Machine.execHblkMd5 imm s
  | .hblkMd5l imm => Sys2Proof.Machine.execHblkMd5l imm s
  | .hblkSha1 imm => Sys2Proof.Machine.execHblkSha1 imm s
  | .hblkSha256 imm => Sys2Proof.Machine.execHblkSha256 imm s
  | .hblkSha256l imm => Sys2Proof.Machine.execHblkSha256l imm s
  | .hblkRmd160 imm => Sys2Proof.Machine.execHblkRmd160 imm s
  | .houtMd4 d => Sys2Proof.Machine.execHoutMd4 d s
  | .houtMd5 d => Sys2Proof.Machine.execHoutMd5 d s
  | .houtMd5l d => Sys2Proof.Machine.execHoutMd5l d s
  | .houtSha1 d => Sys2Proof.Machine.execHoutSha1 d s
  | .houtSha256 d => Sys2Proof.Machine.execHoutSha256 d s
  | .houtSha256l d => Sys2Proof.Machine.execHoutSha256l d s
  | .houtRmd160 d => Sys2Proof.Machine.execHoutRmd160 d s
  | .digestMd4 a d => Sys2Proof.Machine.execDigestMd4 a d s
  | .digestMd5 a d => Sys2Proof.Machine.execDigestMd5 a d s
  | .digestMd5l a d => Sys2Proof.Machine.execDigestMd5l a d s
  | .digestSha1 a d => Sys2Proof.Machine.execDigestSha1 a d s
  | .digestSha256 a d => Sys2Proof.Machine.execDigestSha256 a d s
  | .digestSha256l a d => Sys2Proof.Machine.execDigestSha256l a d s
  | .digestRmd160 a d => Sys2Proof.Machine.execDigestRmd160 a d s
  | .hmacMd4 a b d => Sys2Proof.Machine.execHmacMd4 a b d s
  | .hmacMd5 a b d => Sys2Proof.Machine.execHmacMd5 a b d s
  | .hmacMd5l a b d => Sys2Proof.Machine.execHmacMd5l a b d s
  | .hmacSha1 a b d => Sys2Proof.Machine.execHmacSha1 a b d s
  | .hmacSha256 a b d => Sys2Proof.Machine.execHmacSha256 a b d s
  | .hmacSha256l a b d => Sys2Proof.Machine.execHmacSha256l a b d s
  | .hmacRmd160 a b d => Sys2Proof.Machine.execHmacRmd160 a b d s
  | .radix a d => Sys2Proof.Machine.execRadix a d s
  | .leet a d => Sys2Proof.Machine.execLeet a d s
  | .genonce alg a b d => Sys2Proof.Machine.execGenonce alg a b d s
  | .derive alg => Sys2Proof.Machine.execDerive alg s

end Sys2Proof.Machine
end

