-- ==== Sys2Proof/WellFormed.lean ====
section
/-! DEFINITION. Which instruction terms a command word can hold (spec/30_encoding.md R82, R87): every byte-buffer operand is 0 to 3.
The other fields are legal at every value their width admits (R83, R86). -/

namespace Sys2Proof

/-- A "b" field names a byte buffer: the top bit of the 3-bit field is 0 (R82, R87). -/
def BufField.isByte (k : BufField) : Bool := k.toNat < 4

/-- The checks of R82 and R87, operand by operand. -/
def Instr.wellFormed : Instr → Bool
  | .nop => true
  | .wipe => true
  | .utf8 _ d => BufField.isByte d
  | .packle a => BufField.isByte a
  | .packbe a => BufField.isByte a
  | .padle => true
  | .padbe => true
  | .hinitMd4 => true
  | .hinitMd5 => true
  | .hinitMd5l => true
  | .hinitSha1 => true
  | .hinitSha256 => true
  | .hinitSha256l => true
  | .hinitRmd160 => true
  | .hblkMd4 _ => true
  | .hblkMd5 _ => true
  | .hblkMd5l _ => true
  | .hblkSha1 _ => true
  | .hblkSha256 _ => true
  | .hblkSha256l _ => true
  | .hblkRmd160 _ => true
  | .houtMd4 d => BufField.isByte d
  | .houtMd5 d => BufField.isByte d
  | .houtMd5l d => BufField.isByte d
  | .houtSha1 d => BufField.isByte d
  | .houtSha256 d => BufField.isByte d
  | .houtSha256l d => BufField.isByte d
  | .houtRmd160 d => BufField.isByte d
  | .digestMd4 a d => BufField.isByte a && BufField.isByte d
  | .digestMd5 a d => BufField.isByte a && BufField.isByte d
  | .digestMd5l a d => BufField.isByte a && BufField.isByte d
  | .digestSha1 a d => BufField.isByte a && BufField.isByte d
  | .digestSha256 a d => BufField.isByte a && BufField.isByte d
  | .digestSha256l a d => BufField.isByte a && BufField.isByte d
  | .digestRmd160 a d => BufField.isByte a && BufField.isByte d
  | .hmacMd4 a b d => BufField.isByte a && BufField.isByte b && BufField.isByte d
  | .hmacMd5 a b d => BufField.isByte a && BufField.isByte b && BufField.isByte d
  | .hmacMd5l a b d => BufField.isByte a && BufField.isByte b && BufField.isByte d
  | .hmacSha1 a b d => BufField.isByte a && BufField.isByte b && BufField.isByte d
  | .hmacSha256 a b d => BufField.isByte a && BufField.isByte b && BufField.isByte d
  | .hmacSha256l a b d => BufField.isByte a && BufField.isByte b && BufField.isByte d
  | .hmacRmd160 a b d => BufField.isByte a && BufField.isByte b && BufField.isByte d
  | .radix a _ => BufField.isByte a
  | .leet _ _ => true
  | .genonce _ _ _ _ => true
  | .derive _ => true

end Sys2Proof
end

