-- ==== Sys2Proof/Decode.lean ====
section
/-! DEFINITION. The command encoding (spec/30_encoding.md R80 to R89), read in both directions: `decode` is total on 32-bit words and
rejects by name every word that R88 calls illegal; `encode` writes the word of an instruction from the same fields. -/

namespace Sys2Proof

/-- Why a word is an illegal command (R88, R302). All four raise `IllegalCommand`. -/
inductive DecodeError where
  /-- `OPC` is not in the opcode map of R84. -/
  | unknownOpcode
  /-- `HV` = 7 in a format that has `HV` (R85). -/
  | reservedVariant
  /-- A must-be-zero bit or an unused field is not 0 (R81). -/
  | mustBeZero
  /-- A "b" index of 4 to 7 (R87). -/
  | byteIndex
deriving DecidableEq, Repr

/-- The fields of a command word (R81). `IMM16` overlays the upper six and is read by `imm16Of`. -/
structure Fields where
  opc : BitVec 8
  hv : BitVec 3
  z11 : BitVec 1
  alg : BitVec 4
  a : BufField
  z19 : BitVec 1
  b : BufField
  z23 : BitVec 1
  d : BufField
  z27 : BitVec 5
deriving DecidableEq, Repr

/-- The fields of `w` at the bit positions of R81. -/
def fieldsOf (w : Word) : Fields where
  opc := w.extractLsb' 0 8
  hv := w.extractLsb' 8 3
  z11 := w.extractLsb' 11 1
  alg := w.extractLsb' 12 4
  a := w.extractLsb' 16 3
  z19 := w.extractLsb' 19 1
  b := w.extractLsb' 20 3
  z23 := w.extractLsb' 23 1
  d := w.extractLsb' 24 3
  z27 := w.extractLsb' 27 5

/-- `IMM16` = bits 31:16 (R81, R83). -/
def imm16Of (w : Word) : BitVec 16 := w.extractLsb' 16 16

/-- `HV` numbers (R85); 7 is reserved. -/
def variantOf (hv : BitVec 3) : Option Variant :=
  match hv.toNat with
  | 0 => some .md4
  | 1 => some .md5
  | 2 => some .md5l
  | 3 => some .sha1
  | 4 => some .sha256
  | 5 => some .sha256l
  | 6 => some .rmd160
  | _ => none

/-- What a format does with a buffer index field: not used, a text-buffer index "t" or a byte-buffer index "b" (R82). -/
inductive IndexUse where
  | unused
  | text
  | byte
deriving DecidableEq, Repr

/-- Which fields beside `OPC` a format uses (R82). -/
structure Format where
  hv : Bool := false
  alg : Bool := false
  a : IndexUse := .unused
  b : IndexUse := .unused
  d : IndexUse := .unused
deriving DecidableEq, Repr

/-- The index field `k` is 0 where the format does not use it (R81). -/
def IndexUse.zeroOk (u : IndexUse) (k : BufField) : Bool := !(u == .unused) || k == 0

/-- The index field `k` is 0 to 3 where the format takes it as a byte-buffer index (R87). -/
def IndexUse.byteOk (u : IndexUse) (k : BufField) : Bool := !(u == .byte) || BufField.isByte k

/-- Every must-be-zero bit and unused field of a format without immediate is 0 (R81, R82). -/
def Format.zeroOk (m : Format) (f : Fields) : Bool :=
  f.z11 == 0 && f.z19 == 0 && f.z23 == 0 && f.z27 == 0 &&
  (m.hv || f.hv == 0) && (m.alg || f.alg == 0) && m.a.zeroOk f.a && m.b.zeroOk f.b && m.d.zeroOk f.d

/-- Every "b" index of the format is 0 to 3 (R87). -/
def Format.byteOk (m : Format) (f : Fields) : Bool := m.a.byteOk f.a && m.b.byteOk f.b && m.d.byteOk f.d

/-- The instruction `i`, if the fields obey its format; else the reason by name (R88). -/
def checked (m : Format) (f : Fields) (i : Instr) : Except DecodeError Instr :=
  if m.zeroOk f = false then .error .mustBeZero
  else if m.byteOk f = false then .error .byteIndex
  else .ok i

/-- The instruction of the variant that `HV` names; `HV` = 7 is illegal (R85). -/
def withVariant (f : Fields) (k : Variant → Except DecodeError Instr) : Except DecodeError Instr :=
  match variantOf f.hv with
  | some v => k v
  | none => .error .reservedVariant

/-- Format HI (R82): `OPC`, `HV` and `IMM16`; only bit 11 and the `ALG` field remain, and must be 0. -/
def checkedBlock (w : Word) (f : Fields) (v : Variant) : Except DecodeError Instr :=
  if f.z11 = 0 ∧ f.alg = 0 then .ok (.hblk v (imm16Of w)) else .error .mustBeZero

/-- The opcode map (R84), one line per `OPC`, with the formats of R82. -/
def decode (w : Word) : Except DecodeError Instr :=
  let f := fieldsOf w
  if f.opc = 0x00 then checked {} f .nop
  else if f.opc = 0x01 then checked {} f .wipe
  else if f.opc = 0x10 then checked { a := .text, d := .byte } f (.utf8 f.a f.d)
  else if f.opc = 0x11 then checked { a := .byte } f (.packle f.a)
  else if f.opc = 0x12 then checked { a := .byte } f (.packbe f.a)
  else if f.opc = 0x13 then checked {} f .padle
  else if f.opc = 0x14 then checked {} f .padbe
  else if f.opc = 0x20 then withVariant f fun v => checked { hv := true } f (.hinit v)
  else if f.opc = 0x21 then withVariant f fun v => checkedBlock w f v
  else if f.opc = 0x22 then withVariant f fun v => checked { hv := true, d := .byte } f (.hout v f.d)
  else if f.opc = 0x30 then
    withVariant f fun v => checked { hv := true, a := .byte, d := .byte } f (.digest v f.a f.d)
  else if f.opc = 0x31 then
    withVariant f fun v => checked { hv := true, a := .byte, b := .byte, d := .byte } f (.hmac v f.a f.b f.d)
  else if f.opc = 0x40 then checked { a := .byte, d := .text } f (.radix f.a f.d)
  else if f.opc = 0x41 then checked { a := .text, d := .text } f (.leet f.a f.d)
  else if f.opc = 0x50 then
    checked { alg := true, a := .text, b := .text, d := .text } f (.genonce f.alg f.a f.b f.d)
  else if f.opc = 0x51 then checked { alg := true } f (.derive f.alg)
  else .error .unknownOpcode

/-- A command word without immediate, from its fields, every must-be-zero bit 0 (R81). -/
def commandWord (opc : BitVec 8) (hv : BitVec 3) (alg : BitVec 4) (a b d : BufField) : Word :=
  0#5 ++ d ++ 0#1 ++ b ++ 0#1 ++ a ++ alg ++ 0#1 ++ hv ++ opc

/-- A command word of format HI: `HBLK` with its block index (R81, R82). -/
def blockWord (hv : BitVec 3) (imm : BitVec 16) : Word :=
  imm ++ 0#4 ++ 0#1 ++ hv ++ 0x21#8

/-- The command word of an instruction (R84, R85, R86). -/
def encode : Instr → Word
  | .nop => commandWord 0x00 0 0 0 0 0
  | .wipe => commandWord 0x01 0 0 0 0 0
  | .utf8 a d => commandWord 0x10 0 0 a 0 d
  | .packle a => commandWord 0x11 0 0 a 0 0
  | .packbe a => commandWord 0x12 0 0 a 0 0
  | .padle => commandWord 0x13 0 0 0 0 0
  | .padbe => commandWord 0x14 0 0 0 0 0
  | .hinitMd4 => commandWord 0x20 0 0 0 0 0
  | .hinitMd5 => commandWord 0x20 1 0 0 0 0
  | .hinitMd5l => commandWord 0x20 2 0 0 0 0
  | .hinitSha1 => commandWord 0x20 3 0 0 0 0
  | .hinitSha256 => commandWord 0x20 4 0 0 0 0
  | .hinitSha256l => commandWord 0x20 5 0 0 0 0
  | .hinitRmd160 => commandWord 0x20 6 0 0 0 0
  | .hblkMd4 imm => blockWord 0 imm
  | .hblkMd5 imm => blockWord 1 imm
  | .hblkMd5l imm => blockWord 2 imm
  | .hblkSha1 imm => blockWord 3 imm
  | .hblkSha256 imm => blockWord 4 imm
  | .hblkSha256l imm => blockWord 5 imm
  | .hblkRmd160 imm => blockWord 6 imm
  | .houtMd4 d => commandWord 0x22 0 0 0 0 d
  | .houtMd5 d => commandWord 0x22 1 0 0 0 d
  | .houtMd5l d => commandWord 0x22 2 0 0 0 d
  | .houtSha1 d => commandWord 0x22 3 0 0 0 d
  | .houtSha256 d => commandWord 0x22 4 0 0 0 d
  | .houtSha256l d => commandWord 0x22 5 0 0 0 d
  | .houtRmd160 d => commandWord 0x22 6 0 0 0 d
  | .digestMd4 a d => commandWord 0x30 0 0 a 0 d
  | .digestMd5 a d => commandWord 0x30 1 0 a 0 d
  | .digestMd5l a d => commandWord 0x30 2 0 a 0 d
  | .digestSha1 a d => commandWord 0x30 3 0 a 0 d
  | .digestSha256 a d => commandWord 0x30 4 0 a 0 d
  | .digestSha256l a d => commandWord 0x30 5 0 a 0 d
  | .digestRmd160 a d => commandWord 0x30 6 0 a 0 d
  | .hmacMd4 a b d => commandWord 0x31 0 0 a b d
  | .hmacMd5 a b d => commandWord 0x31 1 0 a b d
  | .hmacMd5l a b d => commandWord 0x31 2 0 a b d
  | .hmacSha1 a b d => commandWord 0x31 3 0 a b d
  | .hmacSha256 a b d => commandWord 0x31 4 0 a b d
  | .hmacSha256l a b d => commandWord 0x31 5 0 a b d
  | .hmacRmd160 a b d => commandWord 0x31 6 0 a b d
  | .radix a d => commandWord 0x40 0 0 a 0 d
  | .leet a d => commandWord 0x41 0 0 a 0 d
  | .genonce alg a b d => commandWord 0x50 0 alg a b d
  | .derive alg => commandWord 0x51 0 alg 0 0 0

/-- The instruction that `decode` reads from an instruction of `nbits` bits whose bits are `w`; every bit from
`nbits` up is 0. A command is one 32-bit word (R80), so the word is `w` itself. -/
def decodeTableWord (nbits w : Nat) : Option Instr :=
  match decode (BitVec.ofNat 32 (w % 2 ^ nbits)) with
  | .ok i => some i
  | .error _ => none

/-- One row of the opcode map as R84 prints it: `w` is the row's command when `w &&& mask = bits`. -/
structure OpcodeRow where
  bits : Word
  mask : Word
deriving DecidableEq, Repr

/-- A word matches a row (R84). -/
def OpcodeRow.matched (r : OpcodeRow) (w : Word) : Bool := w &&& r.mask == r.bits

/-- The seven rows of an opcode with an `HV` field: `HV` in bits 10:8 of the match (R84). -/
def variantRows (bits mask : Word) : List OpcodeRow :=
  (List.range 7).map fun hv => ⟨bits + 0x100#32 * BitVec.ofNat 32 hv, mask⟩

/-- The opcode map's `match` and `mask` columns (R84), 46 rows. `decode` does not use it: it is the second account of the
encoding that statements hold `decode` against. -/
def opcodeMap : List OpcodeRow :=
  [⟨0x00000000, 0xFFFFFFFF⟩, ⟨0x00000001, 0xFFFFFFFF⟩, ⟨0x00000010, 0xFCF8FFFF⟩, ⟨0x00000011, 0xFFFCFFFF⟩,
    ⟨0x00000012, 0xFFFCFFFF⟩, ⟨0x00000013, 0xFFFFFFFF⟩, ⟨0x00000014, 0xFFFFFFFF⟩] ++
  variantRows 0x00000020 0xFFFFFFFF ++ variantRows 0x00000021 0x0000FFFF ++ variantRows 0x00000022 0xFCFFFFFF ++
  variantRows 0x00000030 0xFCFCFFFF ++ variantRows 0x00000031 0xFCCCFFFF ++
  [⟨0x00000040, 0xF8FCFFFF⟩, ⟨0x00000041, 0xF8F8FFFF⟩, ⟨0x00000050, 0xF8880FFF⟩, ⟨0x00000051, 0xFFFF0FFF⟩]

/-- The number of an instruction's row in `opcodeMap` (R84). -/
def Instr.row : Instr → Nat
  | .nop => 0
  | .wipe => 1
  | .utf8 _ _ => 2
  | .packle _ => 3
  | .packbe _ => 4
  | .padle => 5
  | .padbe => 6
  | .hinitMd4 => 7
  | .hinitMd5 => 8
  | .hinitMd5l => 9
  | .hinitSha1 => 10
  | .hinitSha256 => 11
  | .hinitSha256l => 12
  | .hinitRmd160 => 13
  | .hblkMd4 _ => 14
  | .hblkMd5 _ => 15
  | .hblkMd5l _ => 16
  | .hblkSha1 _ => 17
  | .hblkSha256 _ => 18
  | .hblkSha256l _ => 19
  | .hblkRmd160 _ => 20
  | .houtMd4 _ => 21
  | .houtMd5 _ => 22
  | .houtMd5l _ => 23
  | .houtSha1 _ => 24
  | .houtSha256 _ => 25
  | .houtSha256l _ => 26
  | .houtRmd160 _ => 27
  | .digestMd4 _ _ => 28
  | .digestMd5 _ _ => 29
  | .digestMd5l _ _ => 30
  | .digestSha1 _ _ => 31
  | .digestSha256 _ _ => 32
  | .digestSha256l _ _ => 33
  | .digestRmd160 _ _ => 34
  | .hmacMd4 _ _ _ => 35
  | .hmacMd5 _ _ _ => 36
  | .hmacMd5l _ _ _ => 37
  | .hmacSha1 _ _ _ => 38
  | .hmacSha256 _ _ _ => 39
  | .hmacSha256l _ _ _ => 40
  | .hmacRmd160 _ _ _ => 41
  | .radix _ _ => 42
  | .leet _ _ => 43
  | .genonce _ _ _ _ => 44
  | .derive _ => 45

end Sys2Proof
end

