-- ==== Sys2Proof/Machine/Bus.lean ====
section
/-! DEFINITION. The host's side: the address map (spec/20_memory.md R62, R66), `HostRead` and `HostWrite` (R61, R63, R67), reset
(spec/70_reset_and_hazards.md R330, R331) and the interrupt line (spec/60_exceptions.md R310). -/

namespace Sys2Proof.Machine

/-- What an offset of the window names (R62). -/
inductive Target where
  | id | ctrl | status | cmd | pwlen | leetctl | bitlen | rnd
  | h (i : Fin 8)
  | wlen
  | blen (k : Fin 4)
  | tlen (k : Fin 8)
  | cap
  | cell (b : BufId) (i : Nat)
  | reserved
deriving DecidableEq, Repr

/-- The cell `i` of buffer `b`, or nothing at or beyond the buffer's capacity (R66). -/
def cellTarget (b : BufId) (cap i : Nat) : Target := if i < cap then .cell b i else .reserved

/-- The address map (R62), at offsets that are multiples of 4; every offset it does not list is reserved (R66). -/
def targetOf (p : Params) (off : Nat) : Target :=
  if off = 0x000 then .id
  else if off = 0x004 then .ctrl
  else if off = 0x008 then .status
  else if off = 0x00C then .cmd
  else if off = 0x010 then .pwlen
  else if off = 0x014 then .leetctl
  else if off = 0x018 then .bitlen
  else if off = 0x01C then .rnd
  else if 0x020 ≤ off ∧ off < 0x040 then .h (Fin.ofNat 8 ((off - 0x020) / 4))
  else if off = 0x040 then .wlen
  else if 0x050 ≤ off ∧ off < 0x060 then .blen (Fin.ofNat 4 ((off - 0x050) / 4))
  else if 0x060 ≤ off ∧ off < 0x080 then .tlen (Fin.ofNat 8 ((off - 0x060) / 4))
  else if off = 0x080 then .cap
  else if 0x100000 ≤ off ∧ off < 0x200000 then
    cellTarget (.txt (Fin.ofNat 8 ((off - 0x100000) / 0x20000))) p.txtCap ((off - 0x100000) % 0x20000 / 4)
  else if 0x200000 ≤ off ∧ off < 0x280000 then
    cellTarget (.byt (Fin.ofNat 4 ((off - 0x200000) / 0x20000))) p.bytCap ((off - 0x200000) % 0x20000 / 4)
  else if 0x300000 ≤ off ∧ off < 0x400000 then cellTarget .wbuf (wbufCap p) ((off - 0x300000) / 4)
  else .reserved

/-- `ID` (R25): "PMC" and 7. -/
def idWord : Word := 0x504D4307

/-- `CAP` (R26): `TXT_CAP` in bits 15:0, `BYT_CAP` in bits 31:16. -/
def capWord (p : Params) : Word := BitVec.ofNat 16 p.bytCap ++ BitVec.ofNat 16 p.txtCap

/-- What a read returns while no command runs (R62, R63, R66; `CMD` reads 0, R27). No read changes the state (R67). -/
def State.readTarget (s : State) : Target → Word
  | .id => idWord
  | .ctrl => s.ctrl
  | .status => s.status
  | .cmd => 0
  | .pwlen => s.pwlen
  | .leetctl => s.leetctl
  | .bitlen => s.bitlen
  | .rnd => s.rnd
  | .h i => s.h[i]
  | .wlen => s.wlen
  | .blen k => s.blen[k]
  | .tlen k => s.tlen[k]
  | .cap => capWord s.params
  | .cell b i => s.cellRead b i
  | .reserved => 0

/-- A write while no command runs: read-only and reserved offsets ignore it (R23, R25, R26, R31, R66), reserved bits of `CTRL`
and `LEETCTL` ignore it (R24, R29, R36), a length above the capacity is ignored (R35), a write to `CMD` issues the
command (R27). -/
def State.writeTarget (s : State) (t : Target) (v : Word) : State :=
  match t with
  | .id | .status | .rnd | .cap | .reserved => s
  | .ctrl => { s with ctrl := v &&& 0x00000003 }
  | .cmd => s.accept v
  | .pwlen => { s with pwlen := v }
  | .leetctl => { s with leetctl := v &&& 0x0000FF03 }
  | .bitlen => { s with bitlen := v }
  | .h i => { s with h := s.h.set i v }
  | .wlen => if v.toNat ≤ wbufCap s.params then { s with wlen := v } else s
  | .blen k => if v.toNat ≤ s.params.bytCap then { s with blen := s.blen.set k v } else s
  | .tlen k => if v.toNat ≤ s.params.txtCap then { s with tlen := s.tlen.set k v } else s
  | .cell b i => { s with mem := s.mem.write b i v }

/-- The bytes the 22-bit window spans (R61). -/
def windowSize : Nat := 0x400000

/-- An offset that the bus can carry to PMCORE: inside the window and a multiple of 4 (R61, R65); else how the access
stops (log 8, log 9). -/
def badOffset (off : Word) : Option Result :=
  if windowSize ≤ off.toNat then some (.fault (.outsideWindow off))
  else if off.toNat % 4 ≠ 0 then some (.refused (.misaligned off))
  else none

/-- `HostRead(off)`. While a command runs only `STATUS` has a defined value; any other read returns a free value
(R70, U3; log 6). -/
def hostRead (s : State) (off : Word) : Result :=
  match badOffset off with
  | some stop => stop
  | none =>
    if s.busy && off.toNat != 0x008 then
      .next { s with reply := some (Config.busyReadData s.freeIx off.toNat), freeIx := s.freeIx + 1 }
    else .next { s with reply := some (s.readTarget (targetOf s.params off.toNat)) }

/-- `HostWrite(off, v)`. While a command runs it is refused (R70, R336, U3; log 7). -/
def hostWrite (s : State) (off v : Word) : Result :=
  match badOffset off with
  | some stop => stop
  | none =>
    if s.busy then .refused (.busyWrite off)
    else .next { s.writeTarget (targetOf s.params off.toNat) v with reply := none }

/-- Reset (R330, R331), at any time: every register and length 0, a running command abandoned, every cell unspecified anew; the
parameters stay, and so do the host's transactions still to come (log 19). -/
def hostReset (s : State) : State :=
  { State.reset with
    mem := unwrittenMemory s.freeIx
    params := s.params
    inputs := s.inputs
    freeIx := s.freeIx + 1 }

/-- The interrupt output `irq = CTRL.IE & STATUS.DONE` (R310). -/
def State.irq (s : State) : Bool := s.ie && s.done

end Sys2Proof.Machine
end

