-- ==== Sys2Proof/Machine/Fetch.lean ====
section
/-! DEFINITION. Where a command comes from: the word sampled at the accept (spec/10_state.md R27, spec/20_memory.md R73). PMCORE fetches
nothing from memory (R22). -/

namespace Sys2Proof.Machine

/-- The instruction of the command in progress, or why its word is illegal (R88). -/
def fetch (s : State) : Except DecodeError Instr := decode s.cmd

/-- A word that is no command raises `IllegalCommand`, whatever made it illegal (R88, R302). -/
def illegalWord (s : State) (_why : DecodeError) : Result := raise s .illegalCommand

/-- The command word of `nbits` bits `w`, the bits above 0, as if the host had written it to an idle `CMD` and did nothing
further: the word is accepted and the next step executes it (log 1). -/
def placeCommand (s : State) (nbits w : Nat) : State :=
  { s.accept (BitVec.ofNat 32 (w % 2 ^ nbits)) with inputs := [] }

end Sys2Proof.Machine
end

