-- ==== Sys2Proof/Machine/Step.lean ====
section
/-! DEFINITION. One step of PMCORE: one host event, or a move of the sequencer (spec/60_exceptions.md R309; log 1, log 2). -/

namespace Sys2Proof.Machine

/-- The command in progress executes and completes, as one transition (R68, R309). -/
def runCommand (s : State) : Result :=
  match fetch s with
  | .ok i => exec i s
  | .error why => illegalWord s why

/-- The sequencer moves: a running command completes; with none, PMCORE waits in `IDLE` (R330). -/
def advance (s : State) : Result := if s.busy then runCommand s else .next s

/-- One step: the host's next event is served; when the host does nothing, or has nothing more to do, the sequencer
moves. -/
def step (s : State) : Host.Outcome State Fault Refusal :=
  match s.inputs with
  | [] => advance s
  | .idle :: rest => advance { s with inputs := rest }
  | .read off :: rest => hostRead { s with inputs := rest } off
  | .write off v :: rest => hostWrite { s with inputs := rest } off v
  | .reset :: rest => .next (hostReset { s with inputs := rest })

/-- `s` with a command word placed so that the next step executes it. -/
def State.withFetchWord (s : State) (nbits w : Nat) : State := placeCommand s nbits w

end Sys2Proof.Machine
end

