-- ==== Sys2Proof/Safety.lean ====
section
/-! DEFINITION. The terms in which statements about PMCORE are made: the invariant every step keeps, the frame of a command as
the host would read it, and the words of the spec that statements hold the model against. No meaning uses this file. -/

namespace Sys2Proof.Machine

/-- The values `STATUS` can take: after reset, running, done, five error classes, two silent paths
(spec/10_state.md R23, spec/60_exceptions.md R301, R303, R306, R309). -/
def legalStatuses : List Word := [0x00, 0x01, 0x02, 0x16, 0x26, 0x46, 0x56, 0x66, 0x1a, 0x2a]

/-- The parameters are in the ranges of R5 and every length register is at most its buffer's capacity (R32 to R35). -/
structure State.Fits (s : State) : Prop where
  params : s.params.legal = true
  wlen : s.wlen.toNat ≤ wbufCap s.params
  blen : ∀ k : Fin 4, s.blen[k].toNat ≤ s.params.bytCap
  tlen : ∀ k : Fin 8, s.tlen[k].toNat ≤ s.params.txtCap

/-- The cells of one buffer: canonical, none listed at or beyond the capacity, and the background 0 or the free values of
this buffer after a reset that has happened. -/
structure Cells.Sound {w : Nat} (c : Cells w) (buf : BufId) (cap freeIx : Nat) : Prop where
  canonical : c.wf = true
  listed : ∀ e ∈ c.map, e.1 < cap
  background : c.base = .zero ∨ ∃ epoch < freeIx, c.base = .unspecified epoch buf

/-- What every step keeps: the parameters legal and the lengths within the capacities (`Fits`), `STATUS` one of its ten values,
the reserved bits of `CTRL` and `LEETCTL` 0 (R36), every buffer's cells sound, no command word held while idle (R27). -/
structure State.Inv (s : State) : Prop where
  fits : s.Fits
  status : s.status ∈ legalStatuses
  ctrl : s.ctrl &&& 0xFFFFFFFC = 0
  leetctl : s.leetctl &&& 0xFFFF00FC = 0
  wbuf : s.mem.wbuf.Sound .wbuf (wbufCap s.params) s.freeIx
  byt : ∀ k : Fin 4, s.mem.byt[k].Sound (.byt k) s.params.bytCap s.freeIx
  txt : ∀ k : Fin 8, s.mem.txt[k].Sound (.txt k) s.params.txtCap s.freeIx
  idle : s.busy = false → s.cmd = 0

/-- Every cell of every buffer reads the same in both states. -/
def SameCells (s t : State) : Prop := ∀ b i, t.cellRead b i = s.cellRead b i

/-- The destination write of R75, as the host would read it afterwards: cell `i` of buffer `b` reads `out[i]` for every
`i < |out|`, and every other cell of the machine reads as it did in `s`. -/
def WroteCells (s t : State) (b : BufId) (out : Words) : Prop :=
  ∀ c i, t.cellRead c i = if c = b ∧ i < out.length then out.getD i 0 else s.cellRead c i

/-- As `WroteCells`, with the scrub of R38: every cell of `WBUF` reads 0. -/
def WroteCellsScrubbed (s t : State) (b : BufId) (out : Words) : Prop :=
  ∀ c i, t.cellRead c i =
    if c = .wbuf then 0 else if c = b ∧ i < out.length then out.getD i 0 else s.cellRead c i

/-- A byte string as the host reads it, one byte a bus word (R63). -/
def byteCells (m : Bytes) : Words := m.map fun x => x.setWidth 32

/-- A text as the host reads it, one code unit a bus word (R63). -/
def textCells (t : Text) : Words := t.map fun x => x.setWidth 32

/-- An ASCII string as a text (spec/00_scope.md R9). -/
def asciiText (s : String) : Text := s.toList.map fun c => BitVec.ofNat 16 c.toNat

/-- The commands `is`, each executed on the state the one before left; it stops where one of them stops. -/
def runCommands : List Instr → State → Result
  | [], s => .next s
  | i :: rest, s =>
    match exec i s with
    | .next t => runCommands rest t
    | .fault f => .fault f
    | .refused r => .refused r

/-- The sequence of primitive commands that R91(a) sets beside `DIGEST.v`, for `blocks` blocks. -/
def primitiveDigest (v : Variant) (a d : BufField) (blocks : Nat) : List Instr :=
  (if v.littleEndian then [.packle a, .padle] else [.packbe a, .padbe]) ++ [.hinit v] ++
  ((List.range blocks).map fun i => .hblk v (BitVec.ofNat 16 i)) ++ [.hout v d]

/-- The field that names `BYT[k]`: with `k` from 0 to 3, every well-formed "b" operand (R87). -/
def byteField (k : Fin 4) : BufField := BitVec.ofNat 3 k

/-- The field that names `TXT[k]`: with `k` from 0 to 7, every "t" operand (R87). -/
def textField (k : Fin 8) : BufField := BitVec.ofNat 3 k

/-- Byte `i` of a byte string as a word, 0 beyond its end: the summand of R104 and R105, not yet shifted. -/
def byteAt (m : Bytes) (i : Nat) : Word := (m.getD i 0).setWidth 32

/-- The byte string as one big-endian number: `value(b)` of spec/46_radix.md R242. -/
def bigEndianValue (b : Bytes) : Nat := b.foldl (fun n x => 256 * n + x.toNat) 0

/-- The offset of a register (R62). -/
inductive Register where
  | id | ctrl | status | cmd | pwlen | leetctl | bitlen | rnd
  | h (i : Fin 8)
  | wlen
  | blen (k : Fin 4)
  | tlen (k : Fin 8)
  | cap
deriving DecidableEq, Repr

/-- The offset of a register, the column "offset" of R62. -/
def Register.offset : Register → Nat
  | .id => 0x000
  | .ctrl => 0x004
  | .status => 0x008
  | .cmd => 0x00C
  | .pwlen => 0x010
  | .leetctl => 0x014
  | .bitlen => 0x018
  | .rnd => 0x01C
  | .h i => 0x020 + 4 * i
  | .wlen => 0x040
  | .blen k => 0x050 + 4 * k
  | .tlen k => 0x060 + 4 * k
  | .cap => 0x080

/-- The offset of a cell, the column "offset" of R62. -/
def cellOffset : BufId → Nat → Nat
  | .txt k, i => 0x100000 + 0x20000 * k + 4 * i
  | .byt k, i => 0x200000 + 0x20000 * k + 4 * i
  | .wbuf, i => 0x300000 + 4 * i

/-- The capacity of a buffer (R5, R32 to R34). -/
def capacityOf (p : Params) : BufId → Nat
  | .wbuf => wbufCap p
  | .byt _ => p.bytCap
  | .txt _ => p.txtCap

/-- What a bus word becomes in a cell of a buffer (R63). -/
def storedIn : BufId → Word → Word
  | .wbuf, v => v
  | .byt _, v => v &&& 0x000000FF
  | .txt _, v => v &&& 0x0000FFFF

/-- The offset stands in a row of the address map (R62). -/
def ListedOffset (p : Params) (off : Nat) : Prop :=
  (∃ r : Register, off = r.offset) ∨ ∃ b i, i < capacityOf p b ∧ off = cellOffset b i

/-- The offset is reserved (R66): a multiple of 4 inside the window that no row of R62 lists. -/
def ReservedOffset (p : Params) (off : Nat) : Prop := off < 0x400000 ∧ off % 4 = 0 ∧ ¬ ListedOffset p off

end Sys2Proof.Machine
end

