-- ==== Sys2Proof/Certificates/Slice0/Obligations.lean ====
section
/-! DEFINITION. The statements for the provers. Each docstring names the rules of spec/ it formalises; what a statement takes from
the model's own choices it says, with the entry of the assumption log. In a statement about a command, the record
`{ s with … }` lists every register the command writes (`cmd` is the model's own, log 13), so every register it does not
list is unchanged; the memory clause speaks of every cell of every buffer. -/

section
open Sys2Proof Sys2Proof.Machine

/-! ### The encoding -/

/-- R81, R82, R84: the decoder reads back every well-formed command from its word, every operand included. -/
def Obligations.DecodeOfEncode : Prop :=
  ∀ i : Instr, i.wellFormed = true → decode (encode i) = .ok i

/-- R81, R84, R88: what the decoder accepts is well formed, and its word is the one word of that command. -/
def Obligations.EncodeOfDecode : Prop :=
  ∀ (w : Word) (i : Instr), decode w = .ok i → i.wellFormed = true ∧ encode i = w

/-- R84: a word is the command of row `n` of the opcode map exactly when the row's mask and match say so. -/
def Obligations.DecodeFollowsOpcodeMap : Prop :=
  opcodeMap.length = 46 ∧
  (∀ (w : Word) (i : Instr), decode w = .ok i → i.row < 46 ∧ (opcodeMap.getD i.row ⟨0, 0⟩).matched w = true) ∧
  ∀ (w : Word) (n : Nat), n < 46 → (opcodeMap.getD n ⟨0, 0⟩).matched w = true → ∃ i, decode w = .ok i ∧ i.row = n

/-- A sanity check of the decoder on words the spec prints beside their commands. -/
def Obligations.KnownWordsDecode : Prop :=
  decode 0x00000000 = .ok .nop ∧ decode 0x00000001 = .ok .wipe ∧ decode 0x00010010 = .ok (.utf8 1 0) ∧
  decode 0x00030011 = .ok (.packle 3) ∧ decode 0x00000012 = .ok (.packbe 0) ∧ decode 0x00000013 = .ok .padle ∧
  decode 0x00000014 = .ok .padbe ∧ decode 0x00000520 = .ok .hinitSha256l ∧ decode 0x00010321 = .ok (.hblkSha1 1) ∧
  decode 0x03000122 = .ok (.houtMd5 3) ∧ decode 0x01000330 = .ok (.digestSha1 0 1) ∧
  decode 0x02100531 = .ok (.hmacSha256l 0 1 2) ∧ decode 0x07000040 = .ok (.radix 0 7) ∧
  decode 0x07000041 = .ok (.leet 0 7) ∧ decode 0x07017050 = .ok (.genonce 7 1 0 7) ∧
  decode 0x0000C051 = .ok (.derive 12) ∧ decode 0x0000D051 = .ok (.derive 13) ∧
  decode 0x01000722 = .error .reservedVariant ∧ decode 0x00007151 = .error .mustBeZero ∧
  decode 0x00040011 = .error .byteIndex ∧ decode 0x00000002 = .error .unknownOpcode

/-- R88: a word that matches no row of the opcode map, once accepted, raises `IllegalCommand` (code 4) and changes nothing
but `STATUS`. -/
def Obligations.IllegalWordRaisesIllegalCommand : Prop :=
  ∀ (s : State) (w : Word), (∀ r ∈ opcodeMap, r.matched w = false) → s.inputs = [] →
    step (s.accept w) = .next { s with status := 0x46, cmd := 0 }

/-! ### The step -/

/-- R22, R27, R309: a step that finds a command in progress and no host transaction before it runs the decoded command; with no
command in progress the machine waits. The forms of the host's side are the model's (log 1, log 2). -/
def Obligations.StepRunsDecodedInstruction : Prop :=
  ∀ (s : State) (rest : List HostEvent),
    (∀ i : Instr, s.busy = true → decode s.cmd = .ok i →
      (s.inputs = [] → step s = exec i s) ∧
      (s.inputs = .idle :: rest → step s = exec i { s with inputs := rest })) ∧
    (s.busy = false →
      (s.inputs = [] → step s = .next s) ∧
      (s.inputs = .idle :: rest → step s = .next { s with inputs := rest }))

/-- R27, R309: the life of a command. The write to `CMD` in `IDLE` sets `STATUS` to `BUSY` alone and samples the word; the command's
meaning is applied to the state at the accept; at the completion `BUSY` is 0 and `DONE` is 1. -/
def Obligations.CommandLife : Prop :=
  ∀ (s : State) (i : Instr) (rest : List HostEvent), s.busy = false → i.wellFormed = true →
    s.inputs = .write 0x00C (encode i) :: .idle :: rest →
    ∃ u t : State, step s = .next u ∧
      u = { s with status := 0x01, cmd := encode i, inputs := .idle :: rest, reply := none } ∧
      u.busy = true ∧ u.done = false ∧ u.err = false ∧ u.warn = false ∧ u.ecode = 0 ∧
      step u = exec i { u with inputs := rest } ∧ exec i { u with inputs := rest } = .next t ∧
      t.busy = false ∧ t.done = true

/-- R70: while a command runs, a read of `STATUS` is defined and changes nothing. The rest is the model's choice where R61, R65, R70 and
R336 give an access no meaning: another read answers some value and changes nothing of the machine's (log 6), a write is
refused (log 7); at any time a misaligned offset is refused (log 8) and one outside the window faults (log 9). -/
def Obligations.AccessesOutsideTheContract : Prop :=
  ∀ (s : State) (off v : Word) (rest : List HostEvent),
    (s.busy = true → off.toNat < 0x400000 → off.toNat % 4 = 0 →
      (s.inputs = .read off :: rest → off = 0x008 →
        step s = .next { s with inputs := rest, reply := some s.status }) ∧
      (s.inputs = .read off :: rest → off ≠ 0x008 →
        ∃ x : Word, step s = .next { s with inputs := rest, reply := some x, freeIx := s.freeIx + 1 }) ∧
      (s.inputs = .write off v :: rest → step s = .refused (.busyWrite off))) ∧
    (s.inputs = .read off :: rest ∨ s.inputs = .write off v :: rest →
      (0x400000 ≤ off.toNat → step s = .fault (.outsideWindow off)) ∧
      (off.toNat < 0x400000 → off.toNat % 4 ≠ 0 → step s = .refused (.misaligned off)))

/-! ### What every command keeps to -/

/-- R309, R296: every command completes, from every state and with every operand: `BUSY` 0 and `DONE` 1, and the model's own fields but
the command word as they were. -/
def Obligations.EveryCommandCompletes : Prop :=
  ∀ (i : Instr) (s : State), ∃ t : State, exec i s = .next t ∧ t.busy = false ∧ t.done = true ∧ t.cmd = 0 ∧
    t.inputs = s.inputs ∧ t.reply = s.reply ∧ t.params = s.params ∧ t.freeIx = s.freeIx

/-- R303: a command that ends in an error changes nothing but `STATUS`, which shows `DONE`, `ERR`, `WARN` 0 and the code. -/
def Obligations.ErrorChangesOnlyStatus : Prop :=
  ∀ (i : Instr) (s t : State), exec i s = .next t → t.err = true →
    t = { s with status := t.status, cmd := 0 } ∧
    (t.status = 0x16 ∨ t.status = 0x26 ∨ t.status = 0x46 ∨ t.status = 0x56 ∨ t.status = 0x66)

/-- R306, R301: `WARN` appears only in compat mode, only after `RADIX`, `GENONCE` or `DERIVE`, with `ERR` 0 and code 1 or 2 (`RADIX`:
code 1). -/
def Obligations.WarnOnlyInCompatMode : Prop :=
  ∀ (i : Instr) (s t : State), exec i s = .next t → t.warn = true →
    s.ctrl.getLsbD 0 = true ∧ t.err = false ∧
    (((∃ a d, i = .radix a d) ∧ t.status = 0x1a) ∨
      (((∃ alg a b d, i = .genonce alg a b d) ∨ ∃ alg, i = .derive alg) ∧ (t.status = 0x1a ∨ t.status = 0x2a)))

/-- R298, R24: which commands write which control register: `CTRL` none, `BITLEN` the packers and `WIPE`, `RND` the engine and `WIPE`,
`PWLEN` and `LEETCTL` `WIPE` alone. -/
def Obligations.OnlyNamedCommandsWriteControl : Prop :=
  ∀ (i : Instr) (s t : State), exec i s = .next t →
    t.ctrl = s.ctrl ∧
    (t.bitlen ≠ s.bitlen → i = .wipe ∨ ∃ a, i = .packle a ∨ i = .packbe a) ∧
    (t.rnd ≠ s.rnd → i = .wipe ∨ (∃ alg a b d, i = .genonce alg a b d) ∨ ∃ alg, i = .derive alg) ∧
    (t.pwlen ≠ s.pwlen → i = .wipe) ∧ (t.leetctl ≠ s.leetctl → i = .wipe)

/-! ### Invariants -/

/-- R39: the reset state meets the invariant. -/
def Obligations.ResetMeetsInvariant : Prop := State.reset.Inv

/-- R23, R24, R29, R32 to R36, R301: every step from a state of the invariant, whatever the host does, gives a state of the
invariant. -/
def Obligations.StepKeepsInvariant : Prop :=
  ∀ s t : State, s.Inv → step s = .next t → t.Inv

/-- The memory keeps its canonical form (the model's own form, log 5) along every step, from every state that has it. -/
def Obligations.StepKeepsMemoryCanonical : Prop :=
  ∀ s t : State, s.mem.wf → step s = .next t → t.mem.wf

/-- R13, R37, R40: no command, no host access and no reset changes a parameter or a ROM. -/
def Obligations.StepKeepsParameters : Prop :=
  ∀ s t : State, step s = .next t → t.params = s.params

/-- R309: `BUSY` and `DONE` are never both 1, and both are 0 only between reset and the first command. -/
def Obligations.BusyAndDone : Prop :=
  ∀ s t : State, s.status ∈ legalStatuses → step s = .next t →
    ¬ (t.busy = true ∧ t.done = true) ∧
    (t.busy = false → t.done = false →
      (s.busy = false ∧ s.done = false) ∨ ∃ rest, s.inputs = .reset :: rest)

/-! ### Reset -/

/-- R39: the reset state: every register and every length 0. That a cell then reads its free value, the model's rendering of
"unspecified", is log 4. -/
def Obligations.ResetState : Prop :=
  let s := State.reset
  s.busy = false ∧ s.status = 0 ∧ s.ctrl = 0 ∧ s.pwlen = 0 ∧ s.leetctl = 0 ∧ s.bitlen = 0 ∧ s.rnd = 0 ∧
  (∀ i : Fin 8, s.h[i] = 0) ∧ s.wlen = 0 ∧ (∀ k : Fin 4, s.blen[k] = 0) ∧ (∀ k : Fin 8, s.tlen[k] = 0) ∧
  (∀ i, s.mem.wbuf.get i = Config.unspecifiedCell 32 0 .wbuf i) ∧
  (∀ (k : Fin 4) (i : Nat), s.mem.byt[k].get i = Config.unspecifiedCell 8 0 (.byt k) i) ∧
  ∀ (k : Fin 8) (i : Nat), s.mem.txt[k].get i = Config.unspecifiedCell 16 0 (.txt k) i

/-- R330, R331: a reset, at any time, also in the middle of a command, leaves every register and length 0 and abandons the command;
every cell is unspecified anew (fresh free values, log 4); the parameters and the host's further transactions stay
(log 19). -/
def Obligations.ResetAtAnyTime : Prop :=
  ∀ (s : State) (rest : List HostEvent), s.inputs = .reset :: rest →
    ∃ t : State, step s = .next t ∧
      t = { State.reset with mem := t.mem, params := s.params, inputs := rest, freeIx := s.freeIx + 1 } ∧
      t.busy = false ∧
      (∀ i, t.mem.wbuf.get i = Config.unspecifiedCell 32 s.freeIx .wbuf i) ∧
      (∀ (k : Fin 4) (i : Nat), t.mem.byt[k].get i = Config.unspecifiedCell 8 s.freeIx (.byt k) i) ∧
      ∀ (k : Fin 8) (i : Nat), t.mem.txt[k].get i = Config.unspecifiedCell 16 s.freeIx (.txt k) i

/-! ### The host's side -/

/-- R67: every read, while no command runs, is without side effect and idempotent; a write to `CMD` issues a command; every other write
is idempotent. -/
def Obligations.SideEffectsOfHostAccesses : Prop :=
  ∀ (s : State) (off v : Word) (rest : List HostEvent), s.busy = false → off.toNat < 0x400000 → off.toNat % 4 = 0 →
    (s.inputs = .read off :: rest →
      ∃ t : State, step s = .next t ∧ t = { s with inputs := rest, reply := t.reply } ∧
        step { t with inputs := .read off :: rest } = .next t) ∧
    (s.inputs = .write off v :: rest → off = 0x00C →
      step s = .next { s with status := 0x01, cmd := v, inputs := rest, reply := none }) ∧
    (s.inputs = .write off v :: rest → off ≠ 0x00C →
      ∃ t : State, step s = .next t ∧ t.status = s.status ∧ t.cmd = s.cmd ∧
        step { t with inputs := .write off v :: rest } = .next t)

/-- R63: one cell, one bus word: a write stores the low bits that fit the cell, changes no other cell and no length register; a read
returns the cell zero-extended. -/
def Obligations.CellWriteThenRead : Prop :=
  ∀ (s : State) (b c : BufId) (i j : Nat) (v : Word) (rest : List HostEvent), s.params.legal = true → s.busy = false →
    i < capacityOf s.params b → j < capacityOf s.params c →
    s.inputs = .write (BitVec.ofNat 32 (cellOffset b i)) v :: .read (BitVec.ofNat 32 (cellOffset c j)) :: rest →
    ∃ t u : State, step s = .next t ∧ step t = .next u ∧
      t = { s with mem := t.mem, inputs := .read (BitVec.ofNat 32 (cellOffset c j)) :: rest, reply := none } ∧
      (∀ d k, t.cellRead d k = if d = b ∧ k = i then storedIn b v else s.cellRead d k) ∧
      u = { t with inputs := rest, reply := some (t.cellRead c j) } ∧
      storedIn c (t.cellRead c j) = t.cellRead c j

/-- R62, R25, R26, R27: what a read of each register of the address map returns while no command runs. -/
def Obligations.RegisterReads : Prop :=
  ∀ (s : State) (r : Register) (rest : List HostEvent), s.params.legal = true → s.busy = false →
    s.inputs = .read (BitVec.ofNat 32 r.offset) :: rest →
    step s = .next { s with inputs := rest, reply := some (match r with
      | .id => 0x504D4307
      | .ctrl => s.ctrl
      | .status => s.status
      | .cmd => 0
      | .pwlen => s.pwlen
      | .leetctl => s.leetctl
      | .bitlen => s.bitlen
      | .rnd => s.rnd
      | .h i => s.h[i]
      | .wlen => s.wlen
      | .blen k => s.blen[k]
      | .tlen k => s.tlen[k]
      | .cap => BitVec.ofNat 32 (s.params.txtCap + 0x10000 * s.params.bytCap)) }

/-- R62, R23 to R31, R21: what a write does to the registers without a capacity: the read-only ones ignore it, the others store it, `CTRL` and
`LEETCTL` without their reserved bits; nothing else changes. -/
def Obligations.RegisterWrites : Prop :=
  ∀ (s : State) (v : Word) (rest : List HostEvent), s.busy = false →
    (∀ r ∈ [Register.id, .status, .rnd, .cap], s.inputs = .write (BitVec.ofNat 32 r.offset) v :: rest →
      step s = .next { s with inputs := rest, reply := none }) ∧
    (s.inputs = .write 0x004 v :: rest →
      step s = .next { s with ctrl := v &&& 0x00000003, inputs := rest, reply := none }) ∧
    (s.inputs = .write 0x010 v :: rest → step s = .next { s with pwlen := v, inputs := rest, reply := none }) ∧
    (s.inputs = .write 0x014 v :: rest →
      step s = .next { s with leetctl := v &&& 0x0000FF03, inputs := rest, reply := none }) ∧
    (s.inputs = .write 0x018 v :: rest → step s = .next { s with bitlen := v, inputs := rest, reply := none }) ∧
    ∀ i : Fin 8, s.inputs = .write (BitVec.ofNat 32 (0x020 + 4 * i)) v :: rest →
      step s = .next { s with h := s.h.set i v, inputs := rest, reply := none }

/-- R35: a write to a length register above the buffer's capacity is ignored; any other value is stored. -/
def Obligations.LengthRegisterWrites : Prop :=
  ∀ (s : State) (v : Word) (rest : List HostEvent), s.busy = false →
    (s.inputs = .write 0x040 v :: rest →
      (wbufCap s.params < v.toNat → step s = .next { s with inputs := rest, reply := none }) ∧
      (v.toNat ≤ wbufCap s.params → step s = .next { s with wlen := v, inputs := rest, reply := none })) ∧
    (∀ k : Fin 4, s.inputs = .write (BitVec.ofNat 32 (0x050 + 4 * k)) v :: rest →
      (s.params.bytCap < v.toNat → step s = .next { s with inputs := rest, reply := none }) ∧
      (v.toNat ≤ s.params.bytCap →
        step s = .next { s with blen := s.blen.set k v, inputs := rest, reply := none })) ∧
    ∀ k : Fin 8, s.inputs = .write (BitVec.ofNat 32 (0x060 + 4 * k)) v :: rest →
      (s.params.txtCap < v.toNat → step s = .next { s with inputs := rest, reply := none }) ∧
      (v.toNat ≤ s.params.txtCap →
        step s = .next { s with tlen := s.tlen.set k v, inputs := rest, reply := none })

/-- R66: a read of a reserved offset returns 0, a write to one is ignored, and neither changes anything else. -/
def Obligations.ReservedOffsets : Prop :=
  ∀ (s : State) (off v : Word) (rest : List HostEvent), s.params.legal = true → s.busy = false →
    ReservedOffset s.params off.toNat →
    (s.inputs = .read off :: rest → step s = .next { s with inputs := rest, reply := some 0 }) ∧
    (s.inputs = .write off v :: rest → step s = .next { s with inputs := rest, reply := none })

/-- R310: the interrupt output is `CTRL.IE & STATUS.DONE`: up after every completion with `IE` = 1, down after the accept of the
next command, down while `IE` = 0. -/
def Obligations.InterruptLine : Prop :=
  ∀ (s : State) (i : Instr) (w : Word),
    s.irq = (s.ctrl.getLsbD 1 && s.status.getLsbD 1) ∧
    (s.ctrl.getLsbD 1 = false → s.irq = false) ∧
    (s.accept w).irq = false ∧
    ∃ t : State, exec i s = .next t ∧ t.irq = s.ctrl.getLsbD 1

/-! ### System commands -/

/-- R290: `NOP` does nothing but complete, and it is the one word with opcode 0: any other one is an illegal command. -/
def Obligations.NopCompletes : Prop :=
  ∀ s : State,
    exec .nop s = .next { s with status := 0x02, cmd := 0 } ∧
    decode 0x00000000 = .ok .nop ∧
    ∀ w : Word, w.toNat % 256 = 0 → w ≠ 0 → s.inputs = [] →
      step (s.accept w) = .next { s with status := 0x46, cmd := 0 }

/-- R291: `WIPE` clears every cell, every length, `H`, `BITLEN`, `PWLEN`, `LEETCTL` and `RND`, and nothing else. -/
def Obligations.WipeClearsEverything : Prop :=
  ∀ s : State, ∃ t : State, exec .wipe s = .next t ∧
    t = { s with mem := t.mem, wlen := 0, blen := Vector.replicate 4 0, tlen := Vector.replicate 8 0,
                 h := Vector.replicate 8 0, bitlen := 0, pwlen := 0, leetctl := 0, rnd := 0,
                 status := 0x02, cmd := 0 } ∧
    ∀ b i, t.cellRead b i = 0

/-! ### The codecs -/

/-- R101, R102, R103: how the code units at the head of a text become bytes, in plain arithmetic on the code point; the length of the
result; ASCII text copied. -/
def Obligations.Utf8Bytes : Prop :=
  toUtf8Bytes [] = [] ∧
  (∀ (u v : CodeUnit) (rest : Text), 0xD800 ≤ u.toNat → u.toNat ≤ 0xDBFF → 0xDC00 ≤ v.toNat → v.toNat ≤ 0xDFFF →
    let cp := 0x10000 + (u.toNat - 0xD800) * 0x400 + (v.toNat - 0xDC00)
    toUtf8Bytes (u :: v :: rest) =
      [BitVec.ofNat 8 (0xF0 + cp / 0x40000), BitVec.ofNat 8 (0x80 + cp / 0x1000 % 0x40),
       BitVec.ofNat 8 (0x80 + cp / 0x40 % 0x40), BitVec.ofNat 8 (0x80 + cp % 0x40)] ++ toUtf8Bytes rest) ∧
  (∀ (u : CodeUnit) (rest : Text),
    (¬ ∃ v more, rest = v :: more ∧ 0xD800 ≤ u.toNat ∧ u.toNat ≤ 0xDBFF ∧ 0xDC00 ≤ v.toNat ∧ v.toNat ≤ 0xDFFF) →
    toUtf8Bytes (u :: rest) =
      (if u.toNat ≤ 0x7F then [BitVec.ofNat 8 u.toNat]
       else if u.toNat ≤ 0x7FF then
         [BitVec.ofNat 8 (0xC0 + u.toNat / 0x40), BitVec.ofNat 8 (0x80 + u.toNat % 0x40)]
       else
         [BitVec.ofNat 8 (0xE0 + u.toNat / 0x1000), BitVec.ofNat 8 (0x80 + u.toNat / 0x40 % 0x40),
          BitVec.ofNat 8 (0x80 + u.toNat % 0x40)]) ++ toUtf8Bytes rest) ∧
  (∀ t : Text, t.length ≤ (toUtf8Bytes t).length ∧ (toUtf8Bytes t).length ≤ 3 * t.length) ∧
  ∀ t : Text, (∀ u ∈ t, u.toNat < 0x80) → toUtf8Bytes t = t.map fun u => u.setWidth 8

/-- R100: `UTF8 tA, bD` writes the bytes of `TXT[A]` to `BYT[D]`, or raises `CapacityExceeded` when they do not fit. -/
def Obligations.Utf8Completes : Prop :=
  ∀ (s : State) (a : Fin 8) (d : Fin 4), s.params.legal = true →
    let out := toUtf8Bytes (s.text a)
    (s.params.bytCap < out.length →
      exec (.utf8 (textField a) (byteField d)) s = .next { s with status := 0x66, cmd := 0 }) ∧
    (out.length ≤ s.params.bytCap → ∃ t : State, exec (.utf8 (textField a) (byteField d)) s = .next t ∧
      t = { s with mem := t.mem, blen := s.blen.set d (BitVec.ofNat 32 out.length), status := 0x02, cmd := 0 } ∧
      WroteCells s t (.byt d) (byteCells out) ∧ t.bytes d = out)

/-- R104: `PACKLE bA`: word `j` is the sum of its four bytes, byte 0 the low one; `WLEN` is `ceil(n/4)`, `BITLEN` is `8·n`. -/
def Obligations.PackleCompletes : Prop :=
  ∀ (s : State) (a : Fin 4), s.Fits →
    let m := s.bytes a
    let n := s.blen[a].toNat
    ∃ t : State, exec (.packle (byteField a)) s = .next t ∧
      t = { s with mem := t.mem, wlen := BitVec.ofNat 32 ((n + 3) / 4), bitlen := BitVec.ofNat 32 (8 * n),
                   status := 0x02, cmd := 0 } ∧
      ∀ b j, t.cellRead b j =
        if b = .wbuf ∧ j < (n + 3) / 4 then
          byteAt m (4 * j) + (byteAt m (4 * j + 1) <<< 8) + (byteAt m (4 * j + 2) <<< 16) +
            (byteAt m (4 * j + 3) <<< 24)
        else s.cellRead b j

/-- R105: `PACKBE bA`: as `PACKLE`, byte 0 the high one. -/
def Obligations.PackbeCompletes : Prop :=
  ∀ (s : State) (a : Fin 4), s.Fits →
    let m := s.bytes a
    let n := s.blen[a].toNat
    ∃ t : State, exec (.packbe (byteField a)) s = .next t ∧
      t = { s with mem := t.mem, wlen := BitVec.ofNat 32 ((n + 3) / 4), bitlen := BitVec.ofNat 32 (8 * n),
                   status := 0x02, cmd := 0 } ∧
      ∀ b j, t.cellRead b j =
        if b = .wbuf ∧ j < (n + 3) / 4 then
          (byteAt m (4 * j) <<< 24) + (byteAt m (4 * j + 1) <<< 16) + (byteAt m (4 * j + 2) <<< 8) +
            byteAt m (4 * j + 3)
        else s.cellRead b j

/-- R109, R108: `PADLE`: its three checks in order; the marker ORed into word `L >> 5`, `L` in the last word but one, 0 in the last, zeros
from `WLEN` on, every other word of the content kept. -/
def Obligations.PadleCompletes : Prop :=
  ∀ s : State,
    let l := s.bitlen.toNat
    let nw := 16 * ((l + 64) / 512) + 16
    (l % 8 ≠ 0 → exec .padle s = .next { s with status := 0x56, cmd := 0 }) ∧
    (l % 8 = 0 → wbufCap s.params < nw → exec .padle s = .next { s with status := 0x66, cmd := 0 }) ∧
    (l % 8 = 0 → nw ≤ wbufCap s.params → nw < s.wlen.toNat →
      exec .padle s = .next { s with status := 0x56, cmd := 0 }) ∧
    (l % 8 = 0 → nw ≤ wbufCap s.params → s.wlen.toNat ≤ nw → ∃ t : State, exec .padle s = .next t ∧
      t = { s with mem := t.mem, wlen := BitVec.ofNat 32 nw, status := 0x02, cmd := 0 } ∧
      ∀ b j, t.cellRead b j =
        if b = .wbuf ∧ j < nw then
          if j = nw - 2 then s.bitlen
          else if j = nw - 1 then 0
          else (if j < s.wlen.toNat then s.cellRead .wbuf j else 0) |||
            (if j = l / 32 then (0x80 : Word) <<< (l % 32) else 0)
        else s.cellRead b j)

/-- R110, R108: `PADBE`: as `PADLE` with the big-endian marker, 0 in the last word but one and `L` in the last. -/
def Obligations.PadbeCompletes : Prop :=
  ∀ s : State,
    let l := s.bitlen.toNat
    let nw := 16 * ((l + 64) / 512) + 16
    (l % 8 ≠ 0 → exec .padbe s = .next { s with status := 0x56, cmd := 0 }) ∧
    (l % 8 = 0 → wbufCap s.params < nw → exec .padbe s = .next { s with status := 0x66, cmd := 0 }) ∧
    (l % 8 = 0 → nw ≤ wbufCap s.params → nw < s.wlen.toNat →
      exec .padbe s = .next { s with status := 0x56, cmd := 0 }) ∧
    (l % 8 = 0 → nw ≤ wbufCap s.params → s.wlen.toNat ≤ nw → ∃ t : State, exec .padbe s = .next t ∧
      t = { s with mem := t.mem, wlen := BitVec.ofNat 32 nw, status := 0x02, cmd := 0 } ∧
      ∀ b j, t.cellRead b j =
        if b = .wbuf ∧ j < nw then
          if j = nw - 2 then 0
          else if j = nw - 1 then s.bitlen
          else (if j < s.wlen.toNat then s.cellRead .wbuf j else 0) |||
            (if j = l / 32 then (0x80 : Word) <<< (24 - l % 32) else 0)
        else s.cellRead b j)

/-- R111: for every message of whole bytes whose bit length fits 32 bits, both padders give the packing of the published padding: the
byte 0x80, the fewest zero bytes that make the total a multiple of 64, the length in eight bytes. -/
def Obligations.PaddingIsThePublishedPadding : Prop :=
  ∀ m : Bytes, 8 * m.length < 2 ^ 32 →
    ∃ z < 64, (m.length + 1 + z + 8) % 64 = 0 ∧
      padLE (packLE m) (8 * m.length) =
        packLE (m ++ [0x80] ++ List.replicate z 0 ++
          (List.range 8).map fun i => BitVec.ofNat 8 (8 * m.length / 2 ^ (8 * i))) ∧
      padBE (packBE m) (8 * m.length) =
        packBE (m ++ [0x80] ++ List.replicate z 0 ++
          (List.range 8).map fun i => BitVec.ofNat 8 (8 * m.length / 2 ^ (8 * (7 - i))))

/-- R112, R11: `HOUT.v bD` for the seven variants writes byte `i` of the digest from register `H[i / 4]`, low byte first for MD4, MD5,
MD5L and RMD160, high byte first for SHA1, SHA256 and SHA256L. -/
def Obligations.HoutCompletes : Prop :=
  ∀ (s : State) (d : Fin 4) (i : Instr) (dw : Nat) (le : Bool), s.params.legal = true →
    (i, dw, le) ∈ [(Instr.houtMd4 (byteField d), 16, true), (.houtMd5 (byteField d), 16, true),
      (.houtMd5l (byteField d), 16, true), (.houtSha1 (byteField d), 20, false),
      (.houtSha256 (byteField d), 32, false), (.houtSha256l (byteField d), 32, false),
      (.houtRmd160 (byteField d), 20, true)] →
    ∃ t : State, exec i s = .next t ∧
      t = { s with mem := t.mem, blen := s.blen.set d (BitVec.ofNat 32 dw), status := 0x02, cmd := 0 } ∧
      ∀ b j, t.cellRead b j =
        if b = .byt d ∧ j < dw then
          (s.h.toList.getD (j / 4) 0 >>> (if le then 8 * (j % 4) else 24 - 8 * (j % 4))) &&& 0xFF
        else s.cellRead b j

/-! ### The hash primitives -/

/-- R131, R141, R142, R161, R176, R177, R196: what the seven `HINIT.v` load into the eight chaining registers. -/
def Obligations.HinitLoads : Prop :=
  ∀ s : State,
    (∀ i ∈ [Instr.hinitMd4, .hinitMd5, .hinitMd5l], exec i s = .next { s with
      h := #v[0x67452301, 0xefcdab89, 0x98badcfe, 0x10325476, 0, 0, 0, 0], status := 0x02, cmd := 0 }) ∧
    (∀ i ∈ [Instr.hinitSha1, .hinitRmd160], exec i s = .next { s with
      h := #v[0x67452301, 0xefcdab89, 0x98badcfe, 0x10325476, 0xc3d2e1f0, 0, 0, 0], status := 0x02, cmd := 0 }) ∧
    ∀ i ∈ [Instr.hinitSha256, .hinitSha256l], exec i s = .next { s with
      h := #v[0x6a09e667, 0xbb67ae85, 0x3c6ef372, 0xa54ff53a, 0x510e527f, 0x9b05688c, 0x1f83d9ab, 0x5be0cd19],
      status := 0x02, cmd := 0 }

/-- R130, R132, R133: `HBLK.MD4 #i`, step by step: the sequences of the four working variables obey the rule's step, and the registers
take the feed-forward. -/
def Obligations.HblkMd4Completes : Prop :=
  ∀ (s : State) (imm : BitVec 16),
    (s.wlen.toNat < 16 * imm.toNat + 16 → exec (.hblkMd4 imm) s = .next { s with status := 0x56, cmd := 0 }) ∧
    (16 * imm.toNat + 16 ≤ s.wlen.toNat → ∃ a b c d : Nat → Word,
      let x : Nat → Word := fun k => s.cellRead .wbuf (16 * imm.toNat + k)
      (a 0 = s.h[0] ∧ b 0 = s.h[1] ∧ c 0 = s.h[2] ∧ d 0 = s.h[3]) ∧
      (∀ j < 16, b (j + 1) = rotl32 (a j + ((b j &&& c j) ||| (~~~(b j) &&& d j)) + x (md4Order.getD j 0) + 0x00000000)
        ([3, 7, 11, 19].getD (j % 4) 0)) ∧
      (∀ j, 16 ≤ j → j < 32 →
        b (j + 1) = rotl32 (a j + ((b j &&& c j) ||| (b j &&& d j) ||| (c j &&& d j)) + x (md4Order.getD j 0)
          + 0x5a827999) ([3, 5, 9, 13].getD (j % 4) 0)) ∧
      (∀ j, 32 ≤ j → j < 48 →
        b (j + 1) = rotl32 (a j + (b j ^^^ c j ^^^ d j) + x (md4Order.getD j 0) + 0x6ed9eba1)
          ([3, 9, 11, 15].getD (j % 4) 0)) ∧
      (∀ j < 48, a (j + 1) = d j ∧ c (j + 1) = b j ∧ d (j + 1) = c j) ∧
      exec (.hblkMd4 imm) s = .next { s with
        h := #v[s.h[0] + a 48, s.h[1] + b 48, s.h[2] + c 48, s.h[3] + d 48, s.h[4], s.h[5], s.h[6], s.h[7]],
        status := 0x02, cmd := 0 })

/-- R130, R140, R143, R144: `HBLK.MD5 #i` and `HBLK.MD5L #i`, step by step. -/
def Obligations.HblkMd5Completes : Prop :=
  ∀ (s : State) (imm : BitVec 16),
    (s.wlen.toNat < 16 * imm.toNat + 16 → ∀ i ∈ [Instr.hblkMd5 imm, .hblkMd5l imm],
      exec i s = .next { s with status := 0x56, cmd := 0 }) ∧
    (16 * imm.toNat + 16 ≤ s.wlen.toNat → ∃ a b c d : Nat → Word,
      let x : Nat → Word := fun k => s.cellRead .wbuf (16 * imm.toNat + k)
      (a 0 = s.h[0] ∧ b 0 = s.h[1] ∧ c 0 = s.h[2] ∧ d 0 = s.h[3]) ∧
      (∀ j < 16, b (j + 1) = b j + rotl32 (a j + ((b j &&& c j) ||| (~~~(b j) &&& d j)) + x j + md5T.getD j 0)
        ([7, 12, 17, 22].getD (j % 4) 0)) ∧
      (∀ j, 16 ≤ j → j < 32 →
        b (j + 1) = b j + rotl32 (a j + ((b j &&& d j) ||| (c j &&& ~~~(d j))) + x ((5 * j + 1) % 16) + md5T.getD j 0)
          ([5, 9, 14, 20].getD (j % 4) 0)) ∧
      (∀ j, 32 ≤ j → j < 48 →
        b (j + 1) = b j + rotl32 (a j + (b j ^^^ c j ^^^ d j) + x ((3 * j + 5) % 16) + md5T.getD j 0)
          ([4, 11, 16, 23].getD (j % 4) 0)) ∧
      (∀ j, 48 ≤ j → j < 64 →
        b (j + 1) = b j + rotl32 (a j + (c j ^^^ (b j ||| ~~~(d j))) + x (7 * j % 16) + md5T.getD j 0)
          ([6, 10, 15, 21].getD (j % 4) 0)) ∧
      (∀ j < 64, a (j + 1) = d j ∧ c (j + 1) = b j ∧ d (j + 1) = c j) ∧
      ∀ i ∈ [Instr.hblkMd5 imm, .hblkMd5l imm], exec i s = .next { s with
        h := #v[s.h[0] + a 64, s.h[1] + b 64, s.h[2] + c 64, s.h[3] + d 64, s.h[4], s.h[5], s.h[6], s.h[7]],
        status := 0x02, cmd := 0 })

/-- R160, R162, R163: `HBLK.SHA1 #i`: the message schedule by its recurrence, the eighty steps, the feed-forward. -/
def Obligations.HblkSha1Completes : Prop :=
  ∀ (s : State) (imm : BitVec 16),
    (s.wlen.toNat < 16 * imm.toNat + 16 → exec (.hblkSha1 imm) s = .next { s with status := 0x56, cmd := 0 }) ∧
    (16 * imm.toNat + 16 ≤ s.wlen.toNat → ∃ w a b c d e : Nat → Word,
      (∀ t < 16, w t = s.cellRead .wbuf (16 * imm.toNat + t)) ∧
      (∀ t, 16 ≤ t → t < 80 → w t = rotl32 (w (t - 3) ^^^ w (t - 8) ^^^ w (t - 14) ^^^ w (t - 16)) 1) ∧
      (a 0 = s.h[0] ∧ b 0 = s.h[1] ∧ c 0 = s.h[2] ∧ d 0 = s.h[3] ∧ e 0 = s.h[4]) ∧
      (∀ t < 20, a (t + 1) = rotl32 (a t) 5 + ((b t &&& c t) ||| (~~~(b t) &&& d t)) + e t + 0x5a827999 + w t) ∧
      (∀ t, 20 ≤ t → t < 40 → a (t + 1) = rotl32 (a t) 5 + (b t ^^^ c t ^^^ d t) + e t + 0x6ed9eba1 + w t) ∧
      (∀ t, 40 ≤ t → t < 60 →
        a (t + 1) = rotl32 (a t) 5 + ((b t &&& c t) ||| (b t &&& d t) ||| (c t &&& d t)) + e t + 0x8f1bbcdc + w t) ∧
      (∀ t, 60 ≤ t → t < 80 → a (t + 1) = rotl32 (a t) 5 + (b t ^^^ c t ^^^ d t) + e t + 0xca62c1d6 + w t) ∧
      (∀ t < 80, b (t + 1) = a t ∧ c (t + 1) = rotl32 (b t) 30 ∧ d (t + 1) = c t ∧ e (t + 1) = d t) ∧
      exec (.hblkSha1 imm) s = .next { s with
        h := #v[s.h[0] + a 80, s.h[1] + b 80, s.h[2] + c 80, s.h[3] + d 80, s.h[4] + e 80, s.h[5], s.h[6], s.h[7]],
        status := 0x02, cmd := 0 })

/-- R175, R178, R179, R180: `HBLK.SHA256 #i` and `HBLK.SHA256L #i`: the message schedule by its recurrence, the sixty-four steps, the
feed-forward. -/
def Obligations.HblkSha256Completes : Prop :=
  ∀ (s : State) (imm : BitVec 16),
    (s.wlen.toNat < 16 * imm.toNat + 16 → ∀ i ∈ [Instr.hblkSha256 imm, .hblkSha256l imm],
      exec i s = .next { s with status := 0x56, cmd := 0 }) ∧
    (16 * imm.toNat + 16 ≤ s.wlen.toNat → ∃ w a b c d e f g h : Nat → Word,
      (∀ t < 16, w t = s.cellRead .wbuf (16 * imm.toNat + t)) ∧
      (∀ t, 16 ≤ t → t < 64 → w t =
        (rotr32 (w (t - 2)) 17 ^^^ rotr32 (w (t - 2)) 19 ^^^ (w (t - 2) >>> 10)) + w (t - 7) +
        (rotr32 (w (t - 15)) 7 ^^^ rotr32 (w (t - 15)) 18 ^^^ (w (t - 15) >>> 3)) + w (t - 16)) ∧
      (a 0 = s.h[0] ∧ b 0 = s.h[1] ∧ c 0 = s.h[2] ∧ d 0 = s.h[3] ∧
        e 0 = s.h[4] ∧ f 0 = s.h[5] ∧ g 0 = s.h[6] ∧ h 0 = s.h[7]) ∧
      (∀ t < 64,
        let t1 := h t + (rotr32 (e t) 6 ^^^ rotr32 (e t) 11 ^^^ rotr32 (e t) 25) +
          ((e t &&& f t) ^^^ (~~~(e t) &&& g t)) + sha256K.getD t 0 + w t
        let t2 := (rotr32 (a t) 2 ^^^ rotr32 (a t) 13 ^^^ rotr32 (a t) 22) +
          ((a t &&& b t) ^^^ (a t &&& c t) ^^^ (b t &&& c t))
        a (t + 1) = t1 + t2 ∧ b (t + 1) = a t ∧ c (t + 1) = b t ∧ d (t + 1) = c t ∧
        e (t + 1) = d t + t1 ∧ f (t + 1) = e t ∧ g (t + 1) = f t ∧ h (t + 1) = g t) ∧
      ∀ i ∈ [Instr.hblkSha256 imm, .hblkSha256l imm], exec i s = .next { s with
        h := #v[s.h[0] + a 64, s.h[1] + b 64, s.h[2] + c 64, s.h[3] + d 64,
                s.h[4] + e 64, s.h[5] + f 64, s.h[6] + g 64, s.h[7] + h 64],
        status := 0x02, cmd := 0 })

/-- R195, R197, R198: `HBLK.RMD160 #i`: line 0 is the left one, line 1 the right one, which takes the selection functions in the opposite
order; eighty steps each; the cross-wise combination. -/
def Obligations.HblkRmd160Completes : Prop :=
  ∀ (s : State) (imm : BitVec 16),
    (s.wlen.toNat < 16 * imm.toNat + 16 → exec (.hblkRmd160 imm) s = .next { s with status := 0x56, cmd := 0 }) ∧
    (16 * imm.toNat + 16 ≤ s.wlen.toNat → ∃ a b c d e : Fin 2 → Nat → Word,
      let x : Nat → Word := fun k => s.cellRead .wbuf (16 * imm.toNat + k)
      let f : Nat → Word → Word → Word → Word := fun r x y z =>
        match r with
        | 0 => x ^^^ y ^^^ z
        | 1 => (x &&& y) ||| (~~~x &&& z)
        | 2 => (x ||| ~~~y) ^^^ z
        | 3 => (x &&& z) ||| (y &&& ~~~z)
        | _ => x ^^^ (y ||| ~~~z)
      (∀ l, a l 0 = s.h[0] ∧ b l 0 = s.h[1] ∧ c l 0 = s.h[2] ∧ d l 0 = s.h[3] ∧ e l 0 = s.h[4]) ∧
      (∀ j < 80, b 0 (j + 1) =
        rotl32 (a 0 j + f (j / 16) (b 0 j) (c 0 j) (d 0 j) + x (rmdRl.getD j 0) + rmdKl.getD (j / 16) 0)
          (rmdSl.getD j 0) + e 0 j) ∧
      (∀ j < 80, b 1 (j + 1) =
        rotl32 (a 1 j + f (4 - j / 16) (b 1 j) (c 1 j) (d 1 j) + x (rmdRr.getD j 0) + rmdKr.getD (j / 16) 0)
          (rmdSr.getD j 0) + e 1 j) ∧
      (∀ l, ∀ j < 80, a l (j + 1) = e l j ∧ c l (j + 1) = b l j ∧ d l (j + 1) = rotl32 (c l j) 10 ∧
        e l (j + 1) = d l j) ∧
      exec (.hblkRmd160 imm) s = .next { s with
        h := #v[s.h[1] + c 0 80 + d 1 80, s.h[2] + d 0 80 + e 1 80, s.h[3] + e 0 80 + a 1 80,
                s.h[4] + a 0 80 + b 1 80, s.h[0] + b 0 80 + c 1 80, s.h[5], s.h[6], s.h[7]],
        status := 0x02, cmd := 0 })

/-- R91(b), R142, R144, R177, R180: every `.MD5L` command has exactly the effect of the `.MD5` one, and every `.SHA256L` command but `HMAC`
that of the `.SHA256` one. -/
def Obligations.LegacyVariantsAreAliases : Prop :=
  ∀ (s : State) (imm : BitVec 16) (a b d : BufField),
    exec .hinitMd5l s = exec .hinitMd5 s ∧ exec (.hblkMd5l imm) s = exec (.hblkMd5 imm) s ∧
    exec (.houtMd5l d) s = exec (.houtMd5 d) s ∧ exec (.digestMd5l a d) s = exec (.digestMd5 a d) s ∧
    exec (.hmacMd5l a b d) s = exec (.hmacMd5 a b d) s ∧
    exec .hinitSha256l s = exec .hinitSha256 s ∧ exec (.hblkSha256l imm) s = exec (.hblkSha256 imm) s ∧
    exec (.houtSha256l d) s = exec (.houtSha256 d) s ∧ exec (.digestSha256l a d) s = exec (.digestSha256 a d) s

/-! ### Digest and HMAC -/

/-- R217, R38: `DIGEST.v bA, bD` for the seven variants: the digest into `BYT[D]`, `DW` bytes, and the scrub; `BITLEN` unchanged. -/
def Obligations.DigestCompletes : Prop :=
  ∀ (s : State) (a d : Fin 4) (i : Instr) (v : Variant) (dw : Nat), s.params.legal = true →
    (i, v, dw) ∈ [(Instr.digestMd4 (byteField a) (byteField d), Variant.md4, 16),
      (.digestMd5 (byteField a) (byteField d), .md5, 16), (.digestMd5l (byteField a) (byteField d), .md5l, 16),
      (.digestSha1 (byteField a) (byteField d), .sha1, 20), (.digestSha256 (byteField a) (byteField d), .sha256, 32),
      (.digestSha256l (byteField a) (byteField d), .sha256l, 32),
      (.digestRmd160 (byteField a) (byteField d), .rmd160, 20)] →
    let out := digest v (s.bytes a)
    ∃ t : State, exec i s = .next t ∧ out.length = dw ∧
      t = { s with mem := t.mem, blen := s.blen.set d (BitVec.ofNat 32 dw), wlen := 0, h := Vector.replicate 8 0,
                   status := 0x02, cmd := 0 } ∧
      WroteCellsScrubbed s t (.byt d) (byteCells out) ∧ t.bytes d = out

/-- R91(a): `DIGEST.v` leaves in `BYT[D]` what the primitive commands leave there; the two differ in the working state alone, which the
primitive commands leave as R91(a) says. -/
def Obligations.DigestEqualsPrimitiveCommands : Prop :=
  ∀ (s : State) (v : Variant) (a d : Fin 4), s.Fits →
    let n := s.blen[a].toNat
    ∃ t u : State, exec (.digest v (byteField a) (byteField d)) s = .next t ∧
      runCommands (primitiveDigest v (byteField a) (byteField d) ((n + 8) / 64 + 1)) s = .next u ∧
      u.bytes d = t.bytes d ∧
      u = { t with mem := u.mem, wlen := u.wlen, h := u.h, bitlen := BitVec.ofNat 32 (8 * n) } ∧
      (∀ b i, b ≠ .wbuf → u.cellRead b i = t.cellRead b i) ∧
      u.words = padFor v (packFor v (s.bytes a)) (8 * n) ∧ unpackState v u.h = t.bytes d

/-- R218 to R221, R38: `HMAC.v bA, bB, bD` for the six variants but SHA256L: the key prepared, the inner and the outer digest, and the
scrub. -/
def Obligations.HmacCompletes : Prop :=
  ∀ (s : State) (a b d : Fin 4) (i : Instr) (v : Variant) (dw : Nat), s.params.legal = true →
    (i, v, dw) ∈ [(Instr.hmacMd4 (byteField a) (byteField b) (byteField d), Variant.md4, 16),
      (.hmacMd5 (byteField a) (byteField b) (byteField d), .md5, 16),
      (.hmacMd5l (byteField a) (byteField b) (byteField d), .md5l, 16),
      (.hmacSha1 (byteField a) (byteField b) (byteField d), .sha1, 20),
      (.hmacSha256 (byteField a) (byteField b) (byteField d), .sha256, 32),
      (.hmacRmd160 (byteField a) (byteField b) (byteField d), .rmd160, 20)] →
    let k0 := if 64 < (s.bytes a).length then digest v (s.bytes a) else s.bytes a
    let k := k0 ++ List.replicate (64 - k0.length) 0
    let inner := digest v (k.map (fun x => x ^^^ 0x36) ++ s.bytes b)
    let out := digest v (k.map (fun x => x ^^^ 0x5c) ++ inner)
    ∃ t : State, exec i s = .next t ∧ k.length = 64 ∧ out.length = dw ∧
      t = { s with mem := t.mem, blen := s.blen.set d (BitVec.ofNat 32 dw), wlen := 0, h := Vector.replicate 8 0,
                   status := 0x02, cmd := 0 } ∧
      WroteCellsScrubbed s t (.byt d) (byteCells out) ∧ t.bytes d = out

/-- R222: `HMAC.SHA256L bA, bB, bD`, unfolded as R222 unfolds it: the second block of the outer hash holds the eight words of the inner hash,
bit 31 of the sixth set, seven zero words and the length 672. -/
def Obligations.HmacLegacyCompletes : Prop :=
  ∀ (s : State) (a b d : Fin 4), s.params.legal = true →
    let k0 := if 64 < (s.bytes a).length then digest .sha256 (s.bytes a) else s.bytes a
    let k := k0 ++ List.replicate (64 - k0.length) 0
    let inner := packBE (digest .sha256 (k.map (fun x => x ^^^ 0x36) ++ s.bytes b))
    let block0 := packBE (k.map fun x => x ^^^ 0x5c)
    let block1 := inner.set 5 (inner.getD 5 0 ||| 0x80000000) ++ List.replicate 7 0 ++ [0x000002a0]
    let out := unpackState .sha256 (compress .sha256 (compress .sha256 (initialH .sha256) block0) block1)
    ∃ t : State, exec (.hmacSha256l (byteField a) (byteField b) (byteField d)) s = .next t ∧
      inner.length = 8 ∧ block0.length = 16 ∧ out.length = 32 ∧
      t = { s with mem := t.mem, blen := s.blen.set d 32, wlen := 0, h := Vector.replicate 8 0,
                   status := 0x02, cmd := 0 } ∧
      WroteCellsScrubbed s t (.byt d) (byteCells out) ∧ t.bytes d = out

/-! ### The radix encoder -/

/-- R245: the radix encoder writes the number its bytes spell in base `N`, without leading zeros; its length, and that it never leaves the
alphabet. -/
def Obligations.RadixEncodeIsBaseN : Prop :=
  ∀ (b : Bytes) (alpha : Text), b.length % 2 = 0 → 2 ≤ alpha.toFinset.card →
    let value := bigEndianValue b
    let n := alpha.length
    let out := radixEncode b alpha
    (0 < value → out = (Nat.digits n value).reverse.map (fun d => alpha.getD d 0) ∧ out.length = Nat.log n value + 1) ∧
    (value = 0 → b ≠ [] → out = [alpha.getD 0 0]) ∧
    (b = [] → out = []) ∧
    (b ≠ [] → 1 ≤ out.length) ∧ out.length ≤ 8 * b.length ∧
    ∀ u ∈ out, u ∈ alpha

/-- R241, R246, R312: `RADIX bA, tD`: its checks in order, the silent path of compat mode, and the result. -/
def Obligations.RadixCompletes : Prop :=
  ∀ (s : State) (a : Fin 4) (d : Fin 8), s.params.legal = true →
    let i := Instr.radix (byteField a) (textField d)
    let n := s.blen[a].toNat
    let distinct := (s.text 5).toFinset.card
    let compat := s.ctrl.getLsbD 0
    let out := radixEncode (s.bytes a) (s.text 5)
    (n % 2 = 1 → exec i s = .next { s with status := 0x56, cmd := 0 }) ∧
    (n % 2 = 0 → distinct < 2 → compat = false → exec i s = .next { s with status := 0x16, cmd := 0 }) ∧
    (n % 2 = 0 → distinct < 2 → compat = true → ∃ t : State, exec i s = .next t ∧
      t = { s with mem := t.mem, tlen := s.tlen.set d 0, status := 0x1a, cmd := 0 } ∧ SameCells s t) ∧
    (n % 2 = 0 → 2 ≤ distinct → s.params.txtCap < out.length →
      exec i s = .next { s with status := 0x66, cmd := 0 }) ∧
    (n % 2 = 0 → 2 ≤ distinct → out.length ≤ s.params.txtCap → ∃ t : State, exec i s = .next t ∧
      t = { s with mem := t.mem, tlen := s.tlen.set d (BitVec.ofNat 32 out.length), status := 0x02, cmd := 0 } ∧
      WroteCells s t (.txt d) (textCells out) ∧ t.text d = out)

/-! ### The leet transformer -/

/-- R256: what every `LOWER` of the model obeys. Code unit by code unit, `A` to `Z` and the other ASCII units have their one image; the
length at most doubles; the empty text stays; the default changes `A` to `Z` alone. From 0x80 up a unit may have any image, the
empty text included. (That the images stand in the order of their units is the model's reading, log 10.) -/
def Obligations.LowerObeysItsConstraints : Prop :=
  ∀ (l : Lowering) (s : Text),
    (∃ parts : List Text, lowerText l s = parts.flatten ∧ parts.length = s.length ∧
      ∀ (i : Nat) (u : CodeUnit), s[i]? = some u →
        (0x41 ≤ u.toNat ∧ u.toNat ≤ 0x5A → parts[i]? = some [u + 32]) ∧
        (u.toNat < 0x80 → ¬ (0x41 ≤ u.toNat ∧ u.toNat ≤ 0x5A) → parts[i]? = some [u])) ∧
    (lowerText l s).length ≤ 2 * s.length ∧ lowerText l [] = [] ∧
    lowerText .ascii s = s.map fun u => if 0x41 ≤ u.toNat ∧ u.toNat ≤ 0x5A then u + 32 else u

/-- R260, R257: `leet` for a legal instance: a negative level changes nothing; at levels 0 to 8 each code unit of the lowercased text is
replaced by its token or copied; the length bounds; the known answer for every legal ROM. -/
def Obligations.LeetTransforms : Prop :=
  ∀ (p : Params) (level : Int) (s : Text), p.legal = true → level ≤ 8 →
    (level < 0 → leetText p level s = s) ∧
    (0 ≤ level →
      leetText p level s = (lowerText p.lower s).flatMap (fun u =>
        if 0x61 ≤ u.toNat ∧ u.toNat ≤ 0x7A then (p.leetRom.getD level.toNat []).getD (u.toNat - 0x61) [] else [u]) ∧
      (lowerText p.lower s).length ≤ (leetText p level s).length ∧
      (leetText p level s).length ≤ p.leetTokMax * (lowerText p.lower s).length ∧
      (leetText p level s).length ≤ 2 * p.leetTokMax * s.length ∧
      (p.lower = .ascii →
        s.length ≤ (leetText p level s).length ∧ (leetText p level s).length ≤ p.leetTokMax * s.length)) ∧
    leetText p 0 (asciiText "leet") = asciiText "1337" ∧ leetText p 0 (asciiText "AELOT") = asciiText "43107"

/-- R259: `LEET tA, tD`: a level of 9 to 127 raises `IllegalParameter`; a result that does not fit raises `CapacityExceeded`; otherwise the
transformed text into `TXT[D]`. `LEETCTL.TIMING` plays no part. -/
def Obligations.LeetCompletes : Prop :=
  ∀ (s : State) (a d : Fin 8), s.params.legal = true →
    let i := Instr.leet (textField a) (textField d)
    let level := (s.leetctl.extractLsb' 8 8).toInt
    let out := leetText s.params level (s.text a)
    (8 < level → exec i s = .next { s with status := 0x56, cmd := 0 }) ∧
    (level ≤ 8 → s.params.txtCap < out.length → exec i s = .next { s with status := 0x66, cmd := 0 }) ∧
    (level ≤ 8 → out.length ≤ s.params.txtCap → ∃ t : State, exec i s = .next t ∧
      t = { s with mem := t.mem, tlen := s.tlen.set d (BitVec.ofNat 32 out.length), status := 0x02, cmd := 0 } ∧
      WroteCells s t (.txt d) (textCells out) ∧ t.text d = out)

/-! ### The engine -/

/-- R271, R272, R270: `GENONCE tag, tA, tB, tD` with a recognised tag: the six steps of one round, `RND` 1, the scrub; `CapacityExceeded`
when the chunk does not fit. The chunk is not empty unless the leet post-pass runs under a `LOWER` that deletes whole texts (log 10). -/
def Obligations.GenonceCompletes : Prop :=
  ∀ (s : State) (alg : BitVec 4) (tag : Tag) (a b d : Fin 8), s.params.legal = true → Tag.ofField alg = some tag →
    let i := Instr.genonce alg (textField a) (textField b) (textField d)
    let level := (s.leetctl.extractLsb' 8 8).toInt
    let timing := (s.leetctl.extractLsb' 0 2).toNat
    level ≤ 8 → 2 ≤ (s.text 5).toFinset.card →
    let key1 := if tag.keyed = true then s.text a else s.text a ++ s.text b
    let key := if timing = 1 ∨ timing = 3 then leetText s.params level key1 else key1
    let data := if (timing = 1 ∨ timing = 3) ∧ tag.keyed = true then leetText s.params level (s.text b) else s.text b
    let bytes :=
      if tag.keyed = false then digest tag.variant (toUtf8Bytes key)
      else if alg = 2 then hmacLegacy (toUtf8Bytes key) (toUtf8Bytes data)
      else hmac tag.variant (toUtf8Bytes key) (toUtf8Bytes data)
    let chunk1 := radixEncode bytes (s.text 5)
    let chunk := if timing = 2 ∨ timing = 3 then leetText s.params level chunk1 else chunk1
    (((timing = 2 ∨ timing = 3) → 0 ≤ level → ∀ x : Text, x ≠ [] → lowerText s.params.lower x ≠ []) → chunk ≠ []) ∧
    (s.params.txtCap < chunk.length → exec i s = .next { s with status := 0x66, cmd := 0 }) ∧
    (chunk.length ≤ s.params.txtCap → ∃ t : State, exec i s = .next t ∧
      t = { s with mem := t.mem, tlen := s.tlen.set d (BitVec.ofNat 32 chunk.length), rnd := 1, wlen := 0,
                   h := Vector.replicate 8 0, status := 0x02, cmd := 0 } ∧
      WroteCellsScrubbed s t (.txt d) (textCells chunk) ∧ t.text d = chunk)

/-- R271, R273, R305 to R307, R312: the errors and silent paths of `GENONCE` before its round, in their order. -/
def Obligations.GenonceChecks : Prop :=
  ∀ (s : State) (alg : BitVec 4) (a b d : Fin 8),
    let i := Instr.genonce alg (textField a) (textField b) (textField d)
    let level := (s.leetctl.extractLsb' 8 8).toInt
    let distinct := (s.text 5).toFinset.card
    let compat := s.ctrl.getLsbD 0
    (8 < level → exec i s = .next { s with status := 0x56, cmd := 0 }) ∧
    (level ≤ 8 → distinct < 2 → compat = false → exec i s = .next { s with status := 0x16, cmd := 0 }) ∧
    (level ≤ 8 → distinct < 2 → compat = true → ∃ t : State, exec i s = .next t ∧
      t = { s with mem := t.mem, tlen := s.tlen.set d 0, rnd := 0, wlen := 0, h := Vector.replicate 8 0,
                   status := 0x1a, cmd := 0 } ∧ WroteCellsScrubbed s t (.txt d) []) ∧
    (level ≤ 8 → 2 ≤ distinct → 13 ≤ alg.toNat → compat = false →
      exec i s = .next { s with status := 0x26, cmd := 0 }) ∧
    (level ≤ 8 → 2 ≤ distinct → 13 ≤ alg.toNat → compat = true → ∃ t : State, exec i s = .next t ∧
      t = { s with mem := t.mem, tlen := s.tlen.set d 0, rnd := 1, wlen := 0, h := Vector.replicate 8 0,
                   status := 0x2a, cmd := 0 } ∧ WroteCellsScrubbed s t (.txt d) [])

/-- R280, R283, R285, R286(a), R286(b): `DERIVE tag` with a recognised tag, a charset of two symbols or more, a level of at most 8 and
`PWLEN ≤ TXT_CAP` completes without error. `n` rounds run, the least number whose chunks reach `PWLEN` code units or whose last
chunk is empty; `OUT` holds prefix, chunks and suffix cut as R285 says. Unless the leet post-pass runs under a `LOWER` that deletes
whole texts (log 10), the chunks reach `PWLEN` code units and `OUT` has exactly `PWLEN` of them. -/
def Obligations.DeriveCompletes : Prop :=
  ∀ (s : State) (alg : BitVec 4) (tag : Tag), s.params.legal = true → Tag.ofField alg = some tag →
    let level := (s.leetctl.extractLsb' 8 8).toInt
    let timing := (s.leetctl.extractLsb' 0 2).toNat
    let len := s.pwlen.toNat
    level ≤ 8 → 2 ≤ (s.text 5).toFinset.card → len ≤ s.params.txtCap →
    let key : Nat → Text := fun n => if n = 0 then s.text 1 else s.text 1 ++ [0x000A] ++ decimal n
    let chunk : Nat → Text := fun n =>
      generateOnce s.params tag (key n) (s.text 0 ++ s.text 2 ++ s.text 6) (s.leetctl.extractLsb' 0 2) level (s.text 5)
    ∃ (n : Nat) (t : State), exec (.derive alg) s = .next t ∧
      let acc := (List.range n).flatMap chunk
      let out := if s.text 4 = [] then (s.text 3 ++ acc).take len
        else ((s.text 3 ++ acc).take (len - (s.text 4).length) ++ s.text 4).take len
      (len ≤ acc.length ∨ (1 ≤ n ∧ chunk (n - 1) = [])) ∧
      (∀ m < n, ((List.range m).flatMap chunk).length < len ∧ (m + 1 < n → chunk m ≠ [])) ∧
      (1 ≤ len → 1 ≤ n ∧ n ≤ len) ∧ (len = 0 → n = 0) ∧
      (((timing = 2 ∨ timing = 3) → 0 ≤ level → ∀ x : Text, x ≠ [] → lowerText s.params.lower x ≠ []) →
        len ≤ acc.length ∧ out.length = len) ∧
      t = { s with mem := t.mem, tlen := s.tlen.set 7 (BitVec.ofNat 32 out.length), rnd := BitVec.ofNat 32 n,
                   wlen := 0, h := Vector.replicate 8 0, status := 0x02, cmd := 0 } ∧
      WroteCellsScrubbed s t (.txt 7) (textCells out) ∧ t.text 7 = out

/-- R281, R273, R305 to R308, R312, R286(d): the errors and silent paths of `DERIVE`, in their order. -/
def Obligations.DeriveChecks : Prop :=
  ∀ (s : State) (alg : BitVec 4), s.params.legal = true →
    let level := (s.leetctl.extractLsb' 8 8).toInt
    let len := s.pwlen.toNat
    let distinct := (s.text 5).toFinset.card
    let compat := s.ctrl.getLsbD 0
    (8 < level → exec (.derive alg) s = .next { s with status := 0x56, cmd := 0 }) ∧
    (level ≤ 8 → distinct < 2 → compat = false →
      exec (.derive alg) s = .next { s with status := 0x16, cmd := 0 }) ∧
    (level ≤ 8 → distinct < 2 → compat = true → ∃ t : State, exec (.derive alg) s = .next t ∧
      t = { s with mem := t.mem, tlen := s.tlen.set 7 0, rnd := 0, wlen := 0, h := Vector.replicate 8 0,
                   status := 0x1a, cmd := 0 } ∧ WroteCellsScrubbed s t (.txt 7) []) ∧
    (level ≤ 8 → 2 ≤ distinct → 13 ≤ alg.toNat → compat = false →
      exec (.derive alg) s = .next { s with status := 0x26, cmd := 0 }) ∧
    (level ≤ 8 → 2 ≤ distinct → (alg.toNat < 13 ∨ compat = true) → s.params.txtCap < len →
      exec (.derive alg) s = .next { s with status := 0x66, cmd := 0 }) ∧
    (level ≤ 8 → 2 ≤ distinct → 13 ≤ alg.toNat → compat = true → len ≤ s.params.txtCap →
      let out := if s.text 4 = [] then (s.text 3).take len
        else ((s.text 3).take (len - (s.text 4).length) ++ s.text 4).take len
      ∃ t : State, exec (.derive alg) s = .next t ∧
        t = { s with mem := t.mem, tlen := s.tlen.set 7 (BitVec.ofNat 32 out.length),
                     rnd := if len = 0 then 0 else 1, wlen := 0, h := Vector.replicate 8 0,
                     status := 0x2a, cmd := 0 } ∧
        WroteCellsScrubbed s t (.txt 7) (textCells out) ∧ t.text 7 = out)

/-- R4, R286(c): the result of `DERIVE` is a function of the seven source texts, `PWLEN`, `LEETCTL`, `ALG`, `CTRL.COMPAT` and the parameters:
two states that agree on those, and on nothing else, leave the same `STATUS`, and after a command without error the same
`OUT` and `RND`. -/
def Obligations.DeriveIsDeterministic : Prop :=
  ∀ (s u : State) (alg : BitVec 4), s.params = u.params → s.ctrl.getLsbD 0 = u.ctrl.getLsbD 0 →
    s.leetctl = u.leetctl → s.pwlen = u.pwlen → (∀ k : Fin 8, k ≠ 7 → s.text k = u.text k) →
    ∃ t v : State, exec (.derive alg) s = .next t ∧ exec (.derive alg) u = .next v ∧ t.status = v.status ∧
      (t.err = false → t.text 7 = v.text 7 ∧ t.tlen[7] = v.tlen[7] ∧ t.rnd = v.rnd)

/-- R91(c), R286(e): with an empty prefix and suffix and `PWLEN` at most the length of the first chunk, `DERIVE tag` leaves in `OUT` the
first `PWLEN` code units of what `GENONCE tag, MKEY, X, OUT` leaves, where `X` holds `URL ++ USER ++ CTR`. -/
def Obligations.DeriveIsTheFirstChunk : Prop :=
  ∀ (s g : State) (alg : BitVec 4) (x : Fin 8), s.params.legal = true →
    s.text x = s.text 0 ++ s.text 2 ++ s.text 6 → s.text 3 = [] → s.text 4 = [] →
    exec (.genonce alg (textField 1) (textField x) (textField 7)) s = .next g → g.status = 0x02 →
    s.pwlen.toNat ≤ g.tlen[7].toNat →
    ∃ t : State, exec (.derive alg) s = .next t ∧ t.status = 0x02 ∧ t.text 7 = (g.text 7).take s.pwlen.toNat

/-- R285: post-processing: the result has `len` code units when prefix and chunks have that many; the whole suffix survives when it is at
most `len` long, and its first `len` code units when it is longer. -/
def Obligations.PostProcessKeepsTheSuffix : Prop :=
  ∀ (pre acc suf : Text) (len : Nat),
    let r := postProcess pre acc suf len
    (suf = [] → r = (pre ++ acc).take len) ∧
    (suf ≠ [] → suf.length ≤ len → r = (pre ++ acc).take (len - suf.length) ++ suf) ∧
    (len < suf.length → r = suf.take len) ∧
    r.length ≤ len ∧ (len ≤ (pre ++ acc).length → r.length = len)

/-- R282: the decimal rendering of a round number: its decimal digits, most significant first, without leading zeros, as ASCII. -/
def Obligations.DecimalRendering : Prop :=
  ∀ n : Nat, 1 ≤ n → decimal n = (Nat.digits 10 n).reverse.map fun d => BitVec.ofNat 16 (0x0030 + d)

end
end

