-- ==== Sys2Proof/Laws/Encoding.lean ====
section
/-! SUPPORT. The fields of a command word, read and written (spec/30_encoding.md R81): what `fieldsOf` reads from the words `encode`
builds, and every word rebuilt from its fields. -/

namespace Sys2Proof

/-- The fields of a word built from fields (R81). -/
@[simp] theorem fieldsOf_commandWord (opc : BitVec 8) (hv : BitVec 3) (alg : BitVec 4) (a b d : BufField) :
    fieldsOf (commandWord opc hv alg a b d) = ⟨opc, hv, 0, alg, a, 0, b, 0, d, 0⟩ := by
  simp only [fieldsOf, Fields.mk.injEq]
  and_intros <;>
    · ext i hi
      simp only [commandWord, BitVec.getElem_extractLsb', BitVec.getLsbD_append]
      interval_cases i <;> simp

/-- The fields of an `HBLK` word that its format reads (R82). -/
@[simp] theorem fieldsOf_blockWord (hv : BitVec 3) (imm : BitVec 16) :
    (fieldsOf (blockWord hv imm)).opc = 0x21 ∧ (fieldsOf (blockWord hv imm)).hv = hv ∧
    (fieldsOf (blockWord hv imm)).z11 = 0 ∧ (fieldsOf (blockWord hv imm)).alg = 0 ∧
    imm16Of (blockWord hv imm) = imm := by
  and_intros <;>
    · ext i hi
      simp only [fieldsOf, imm16Of, blockWord, BitVec.getElem_extractLsb', BitVec.getLsbD_append]
      interval_cases i <;> simp

/-- A word is the concatenation of its fields (R81). -/
theorem word_of_fields (w : Word) :
    w = (fieldsOf w).z27 ++ (fieldsOf w).d ++ (fieldsOf w).z23 ++ (fieldsOf w).b ++ (fieldsOf w).z19 ++
      (fieldsOf w).a ++ (fieldsOf w).alg ++ (fieldsOf w).z11 ++ (fieldsOf w).hv ++ (fieldsOf w).opc := by
  refine BitVec.eq_of_getLsbD_eq fun i hi => ?_
  simp only [fieldsOf, BitVec.getLsbD_append, BitVec.getLsbD_extractLsb']
  interval_cases i <;> simp

/-- A word of format HI is the concatenation of the fields that format reads (R81, R82). -/
theorem word_of_blockFields (w : Word) :
    w = imm16Of w ++ (fieldsOf w).alg ++ (fieldsOf w).z11 ++ (fieldsOf w).hv ++ (fieldsOf w).opc := by
  refine BitVec.eq_of_getLsbD_eq fun i hi => ?_
  simp only [fieldsOf, imm16Of, BitVec.getLsbD_append, BitVec.getLsbD_extractLsb']
  interval_cases i <;> simp

/-- A word whose must-be-zero fields are 0 is built from its other fields. -/
theorem commandWord_of_fields {w : Word} (h11 : (fieldsOf w).z11 = 0) (h19 : (fieldsOf w).z19 = 0)
    (h23 : (fieldsOf w).z23 = 0) (h27 : (fieldsOf w).z27 = 0) :
    commandWord (fieldsOf w).opc (fieldsOf w).hv (fieldsOf w).alg (fieldsOf w).a (fieldsOf w).b (fieldsOf w).d
      = w := by
  have h := word_of_fields w
  rw [h11, h19, h23, h27] at h
  exact h.symm

/-- An `HBLK` word is built from its variant and its block index. -/
theorem blockWord_of_fields {w : Word} (ho : (fieldsOf w).opc = 0x21) (h11 : (fieldsOf w).z11 = 0)
    (ha : (fieldsOf w).alg = 0) : blockWord (fieldsOf w).hv (imm16Of w) = w := by
  have h := word_of_blockFields w
  rw [h11, ha, ho] at h
  exact h.symm

/-- What `checked` accepts: the instruction it is given, and only when the format holds (R88). -/
theorem checked_ok {m : Format} {f : Fields} {i j : Instr} (h : checked m f i = .ok j) :
    j = i ∧ m.zeroOk f = true ∧ m.byteOk f = true := by
  unfold checked at h
  split at h
  · cases h
  · split at h
    · cases h
    · cases h; simp_all

/-- What `withVariant` accepts: what the continuation accepts for the variant that `HV` names (R85). -/
theorem withVariant_ok {f : Fields} {k : Variant → Except DecodeError Instr} {j : Instr} (h : withVariant f k = .ok j) :
    ∃ v, variantOf f.hv = some v ∧ k v = .ok j := by
  unfold withVariant at h
  split at h
  · exact ⟨_, ‹_›, h⟩
  · cases h

/-- What `checkedBlock` accepts (R82). -/
theorem checkedBlock_ok {w : Word} {f : Fields} {v : Variant} {j : Instr} (h : checkedBlock w f v = .ok j) :
    j = .hblk v (imm16Of w) ∧ f.z11 = 0 ∧ f.alg = 0 := by
  unfold checkedBlock at h
  split at h
  · cases h; simp_all
  · cases h

/-- The must-be-zero fields of an accepted word are 0 (R81). -/
theorem Format.zeroOk_fixed {m : Format} {f : Fields} (h : m.zeroOk f = true) :
    f.z11 = 0 ∧ f.z19 = 0 ∧ f.z23 = 0 ∧ f.z27 = 0 := by
  simp [Format.zeroOk] at h
  simp_all

/-- The `HV` number of a variant (R85). -/
theorem variantOf_eq {hv : BitVec 3} {v : Variant} (h : variantOf hv = some v) :
    hv = match v with
      | .md4 => 0 | .md5 => 1 | .md5l => 2 | .sha1 => 3 | .sha256 => 4 | .sha256l => 5 | .rmd160 => 6 := by
  revert h
  revert hv
  cases v <;> decide

/-- One level of a chain of cases. -/
theorem ite_cases {α : Type} {c : Prop} [Decidable c] {x y z : α} (h : (if c then x else y) = z) :
    (c ∧ x = z) ∨ (¬ c ∧ y = z) := by
  split at h
  · exact .inl ⟨‹_›, h⟩
  · exact .inr ⟨‹_›, h⟩

/-- What `decode` accepts, one case per `OPC` of the opcode map (R84). -/
theorem decode_ok {w : Word} {i : Instr} (h : decode w = .ok i) :
    let f := fieldsOf w
    (f.opc = 0x00 ∧ checked {} f .nop = .ok i) ∨
    (f.opc = 0x01 ∧ checked {} f .wipe = .ok i) ∨
    (f.opc = 0x10 ∧ checked { a := .text, d := .byte } f (.utf8 f.a f.d) = .ok i) ∨
    (f.opc = 0x11 ∧ checked { a := .byte } f (.packle f.a) = .ok i) ∨
    (f.opc = 0x12 ∧ checked { a := .byte } f (.packbe f.a) = .ok i) ∨
    (f.opc = 0x13 ∧ checked {} f .padle = .ok i) ∨
    (f.opc = 0x14 ∧ checked {} f .padbe = .ok i) ∨
    (f.opc = 0x20 ∧ ∃ v, variantOf f.hv = some v ∧ checked { hv := true } f (.hinit v) = .ok i) ∨
    (f.opc = 0x21 ∧ ∃ v, variantOf f.hv = some v ∧ checkedBlock w f v = .ok i) ∨
    (f.opc = 0x22 ∧ ∃ v, variantOf f.hv = some v ∧ checked { hv := true, d := .byte } f (.hout v f.d) = .ok i) ∨
    (f.opc = 0x30 ∧ ∃ v, variantOf f.hv = some v ∧
      checked { hv := true, a := .byte, d := .byte } f (.digest v f.a f.d) = .ok i) ∨
    (f.opc = 0x31 ∧ ∃ v, variantOf f.hv = some v ∧
      checked { hv := true, a := .byte, b := .byte, d := .byte } f (.hmac v f.a f.b f.d) = .ok i) ∨
    (f.opc = 0x40 ∧ checked { a := .byte, d := .text } f (.radix f.a f.d) = .ok i) ∨
    (f.opc = 0x41 ∧ checked { a := .text, d := .text } f (.leet f.a f.d) = .ok i) ∨
    (f.opc = 0x50 ∧ checked { alg := true, a := .text, b := .text, d := .text } f (.genonce f.alg f.a f.b f.d) = .ok i) ∨
    (f.opc = 0x51 ∧ checked { alg := true } f (.derive f.alg) = .ok i) := by
  unfold decode at h
  intro f
  rcases ite_cases h with h | ⟨-, h⟩
  · exact .inl h
  rcases ite_cases h with h | ⟨-, h⟩
  · exact .inr (.inl h)
  rcases ite_cases h with h | ⟨-, h⟩
  · exact .inr (.inr (.inl h))
  rcases ite_cases h with h | ⟨-, h⟩
  · exact .inr (.inr (.inr (.inl h)))
  rcases ite_cases h with h | ⟨-, h⟩
  · exact .inr (.inr (.inr (.inr (.inl h))))
  rcases ite_cases h with h | ⟨-, h⟩
  · exact .inr (.inr (.inr (.inr (.inr (.inl h)))))
  rcases ite_cases h with h | ⟨-, h⟩
  · exact .inr (.inr (.inr (.inr (.inr (.inr (.inl h))))))
  refine .inr (.inr (.inr (.inr (.inr (.inr (.inr ?_))))))
  rcases ite_cases h with ⟨ho, h⟩ | ⟨-, h⟩
  · exact .inl ⟨ho, withVariant_ok h⟩
  rcases ite_cases h with ⟨ho, h⟩ | ⟨-, h⟩
  · exact .inr (.inl ⟨ho, withVariant_ok h⟩)
  rcases ite_cases h with ⟨ho, h⟩ | ⟨-, h⟩
  · exact .inr (.inr (.inl ⟨ho, withVariant_ok h⟩))
  rcases ite_cases h with ⟨ho, h⟩ | ⟨-, h⟩
  · exact .inr (.inr (.inr (.inl ⟨ho, withVariant_ok h⟩)))
  rcases ite_cases h with ⟨ho, h⟩ | ⟨-, h⟩
  · exact .inr (.inr (.inr (.inr (.inl ⟨ho, withVariant_ok h⟩))))
  refine .inr (.inr (.inr (.inr (.inr ?_))))
  rcases ite_cases h with h | ⟨-, h⟩
  · exact .inl h
  rcases ite_cases h with h | ⟨-, h⟩
  · exact .inr (.inl h)
  rcases ite_cases h with h | ⟨-, h⟩
  · exact .inr (.inr (.inl h))
  rcases ite_cases h with h | ⟨-, h⟩
  · exact .inr (.inr (.inr h))
  · cases h

end Sys2Proof
end

