-- ==== Sys2Proof/Laws/State.lean ====
section
/-! SUPPORT. One lemma per field per update of the state: what each named update of spec/20_memory.md R75, spec/10_state.md R38, R27 and
spec/48_derive.md R291 leaves in each field. -/

namespace Sys2Proof.Machine

@[simp] theorem State.setWords_h (s : State) (ws : Words) : (s.setWords ws).h = s.h := rfl
@[simp] theorem State.setWords_status (s : State) (ws : Words) : (s.setWords ws).status = s.status := rfl
@[simp] theorem State.setWords_ctrl (s : State) (ws : Words) : (s.setWords ws).ctrl = s.ctrl := rfl
@[simp] theorem State.setWords_pwlen (s : State) (ws : Words) : (s.setWords ws).pwlen = s.pwlen := rfl
@[simp] theorem State.setWords_leetctl (s : State) (ws : Words) : (s.setWords ws).leetctl = s.leetctl := rfl
@[simp] theorem State.setWords_bitlen (s : State) (ws : Words) : (s.setWords ws).bitlen = s.bitlen := rfl
@[simp] theorem State.setWords_rnd (s : State) (ws : Words) : (s.setWords ws).rnd = s.rnd := rfl
@[simp] theorem State.setWords_wlen (s : State) (ws : Words) : (s.setWords ws).wlen = BitVec.ofNat 32 ws.length := rfl
@[simp] theorem State.setWords_blen (s : State) (ws : Words) : (s.setWords ws).blen = s.blen := rfl
@[simp] theorem State.setWords_tlen (s : State) (ws : Words) : (s.setWords ws).tlen = s.tlen := rfl
@[simp] theorem State.setWords_mem (s : State) (ws : Words) :
    (s.setWords ws).mem =
      { s.mem with wbuf := s.mem.wbuf.load ws } := rfl
@[simp] theorem State.setWords_cmd (s : State) (ws : Words) : (s.setWords ws).cmd = s.cmd := rfl
@[simp] theorem State.setWords_params (s : State) (ws : Words) : (s.setWords ws).params = s.params := rfl
@[simp] theorem State.setWords_inputs (s : State) (ws : Words) : (s.setWords ws).inputs = s.inputs := rfl
@[simp] theorem State.setWords_reply (s : State) (ws : Words) : (s.setWords ws).reply = s.reply := rfl
@[simp] theorem State.setWords_freeIx (s : State) (ws : Words) : (s.setWords ws).freeIx = s.freeIx := rfl

@[simp] theorem State.setBytes_h (s : State) (k : Fin 4) (bs : Bytes) : (s.setBytes k bs).h = s.h := rfl
@[simp] theorem State.setBytes_status (s : State) (k : Fin 4) (bs : Bytes) :
    (s.setBytes k bs).status =
      s.status := rfl
@[simp] theorem State.setBytes_ctrl (s : State) (k : Fin 4) (bs : Bytes) : (s.setBytes k bs).ctrl = s.ctrl := rfl
@[simp] theorem State.setBytes_pwlen (s : State) (k : Fin 4) (bs : Bytes) : (s.setBytes k bs).pwlen = s.pwlen := rfl
@[simp] theorem State.setBytes_leetctl (s : State) (k : Fin 4) (bs : Bytes) :
    (s.setBytes k bs).leetctl =
      s.leetctl := rfl
@[simp] theorem State.setBytes_bitlen (s : State) (k : Fin 4) (bs : Bytes) :
    (s.setBytes k bs).bitlen =
      s.bitlen := rfl
@[simp] theorem State.setBytes_rnd (s : State) (k : Fin 4) (bs : Bytes) : (s.setBytes k bs).rnd = s.rnd := rfl
@[simp] theorem State.setBytes_wlen (s : State) (k : Fin 4) (bs : Bytes) : (s.setBytes k bs).wlen = s.wlen := rfl
@[simp] theorem State.setBytes_blen (s : State) (k : Fin 4) (bs : Bytes) :
    (s.setBytes k bs).blen =
      s.blen.set k (BitVec.ofNat 32 bs.length) := rfl
@[simp] theorem State.setBytes_tlen (s : State) (k : Fin 4) (bs : Bytes) : (s.setBytes k bs).tlen = s.tlen := rfl
@[simp] theorem State.setBytes_mem (s : State) (k : Fin 4) (bs : Bytes) :
    (s.setBytes k bs).mem =
      { s.mem with byt := s.mem.byt.set k (s.mem.byt[k].load bs) } := rfl
@[simp] theorem State.setBytes_cmd (s : State) (k : Fin 4) (bs : Bytes) : (s.setBytes k bs).cmd = s.cmd := rfl
@[simp] theorem State.setBytes_params (s : State) (k : Fin 4) (bs : Bytes) :
    (s.setBytes k bs).params =
      s.params := rfl
@[simp] theorem State.setBytes_inputs (s : State) (k : Fin 4) (bs : Bytes) :
    (s.setBytes k bs).inputs =
      s.inputs := rfl
@[simp] theorem State.setBytes_reply (s : State) (k : Fin 4) (bs : Bytes) : (s.setBytes k bs).reply = s.reply := rfl
@[simp] theorem State.setBytes_freeIx (s : State) (k : Fin 4) (bs : Bytes) :
    (s.setBytes k bs).freeIx =
      s.freeIx := rfl

@[simp] theorem State.setText_h (s : State) (k : Fin 8) (t : Text) : (s.setText k t).h = s.h := rfl
@[simp] theorem State.setText_status (s : State) (k : Fin 8) (t : Text) : (s.setText k t).status = s.status := rfl
@[simp] theorem State.setText_ctrl (s : State) (k : Fin 8) (t : Text) : (s.setText k t).ctrl = s.ctrl := rfl
@[simp] theorem State.setText_pwlen (s : State) (k : Fin 8) (t : Text) : (s.setText k t).pwlen = s.pwlen := rfl
@[simp] theorem State.setText_leetctl (s : State) (k : Fin 8) (t : Text) : (s.setText k t).leetctl = s.leetctl := rfl
@[simp] theorem State.setText_bitlen (s : State) (k : Fin 8) (t : Text) : (s.setText k t).bitlen = s.bitlen := rfl
@[simp] theorem State.setText_rnd (s : State) (k : Fin 8) (t : Text) : (s.setText k t).rnd = s.rnd := rfl
@[simp] theorem State.setText_wlen (s : State) (k : Fin 8) (t : Text) : (s.setText k t).wlen = s.wlen := rfl
@[simp] theorem State.setText_blen (s : State) (k : Fin 8) (t : Text) : (s.setText k t).blen = s.blen := rfl
@[simp] theorem State.setText_tlen (s : State) (k : Fin 8) (t : Text) :
    (s.setText k t).tlen =
      s.tlen.set k (BitVec.ofNat 32 t.length) := rfl
@[simp] theorem State.setText_mem (s : State) (k : Fin 8) (t : Text) :
    (s.setText k t).mem =
      { s.mem with txt := s.mem.txt.set k (s.mem.txt[k].load t) } := rfl
@[simp] theorem State.setText_cmd (s : State) (k : Fin 8) (t : Text) : (s.setText k t).cmd = s.cmd := rfl
@[simp] theorem State.setText_params (s : State) (k : Fin 8) (t : Text) : (s.setText k t).params = s.params := rfl
@[simp] theorem State.setText_inputs (s : State) (k : Fin 8) (t : Text) : (s.setText k t).inputs = s.inputs := rfl
@[simp] theorem State.setText_reply (s : State) (k : Fin 8) (t : Text) : (s.setText k t).reply = s.reply := rfl
@[simp] theorem State.setText_freeIx (s : State) (k : Fin 8) (t : Text) : (s.setText k t).freeIx = s.freeIx := rfl

@[simp] theorem State.scrub_h (s : State) : (s.scrub).h = Vector.replicate 8 0 := rfl
@[simp] theorem State.scrub_status (s : State) : (s.scrub).status = s.status := rfl
@[simp] theorem State.scrub_ctrl (s : State) : (s.scrub).ctrl = s.ctrl := rfl
@[simp] theorem State.scrub_pwlen (s : State) : (s.scrub).pwlen = s.pwlen := rfl
@[simp] theorem State.scrub_leetctl (s : State) : (s.scrub).leetctl = s.leetctl := rfl
@[simp] theorem State.scrub_bitlen (s : State) : (s.scrub).bitlen = s.bitlen := rfl
@[simp] theorem State.scrub_rnd (s : State) : (s.scrub).rnd = s.rnd := rfl
@[simp] theorem State.scrub_wlen (s : State) : (s.scrub).wlen = 0 := rfl
@[simp] theorem State.scrub_blen (s : State) : (s.scrub).blen = s.blen := rfl
@[simp] theorem State.scrub_tlen (s : State) : (s.scrub).tlen = s.tlen := rfl
@[simp] theorem State.scrub_mem (s : State) : (s.scrub).mem = { s.mem with wbuf := Cells.cleared } := rfl
@[simp] theorem State.scrub_cmd (s : State) : (s.scrub).cmd = s.cmd := rfl
@[simp] theorem State.scrub_params (s : State) : (s.scrub).params = s.params := rfl
@[simp] theorem State.scrub_inputs (s : State) : (s.scrub).inputs = s.inputs := rfl
@[simp] theorem State.scrub_reply (s : State) : (s.scrub).reply = s.reply := rfl
@[simp] theorem State.scrub_freeIx (s : State) : (s.scrub).freeIx = s.freeIx := rfl

@[simp] theorem State.finish_h (s : State) (st : Word) : (s.finish st).h = s.h := rfl
@[simp] theorem State.finish_status (s : State) (st : Word) : (s.finish st).status = st := rfl
@[simp] theorem State.finish_ctrl (s : State) (st : Word) : (s.finish st).ctrl = s.ctrl := rfl
@[simp] theorem State.finish_pwlen (s : State) (st : Word) : (s.finish st).pwlen = s.pwlen := rfl
@[simp] theorem State.finish_leetctl (s : State) (st : Word) : (s.finish st).leetctl = s.leetctl := rfl
@[simp] theorem State.finish_bitlen (s : State) (st : Word) : (s.finish st).bitlen = s.bitlen := rfl
@[simp] theorem State.finish_rnd (s : State) (st : Word) : (s.finish st).rnd = s.rnd := rfl
@[simp] theorem State.finish_wlen (s : State) (st : Word) : (s.finish st).wlen = s.wlen := rfl
@[simp] theorem State.finish_blen (s : State) (st : Word) : (s.finish st).blen = s.blen := rfl
@[simp] theorem State.finish_tlen (s : State) (st : Word) : (s.finish st).tlen = s.tlen := rfl
@[simp] theorem State.finish_mem (s : State) (st : Word) : (s.finish st).mem = s.mem := rfl
@[simp] theorem State.finish_cmd (s : State) (st : Word) : (s.finish st).cmd = 0 := rfl
@[simp] theorem State.finish_params (s : State) (st : Word) : (s.finish st).params = s.params := rfl
@[simp] theorem State.finish_inputs (s : State) (st : Word) : (s.finish st).inputs = s.inputs := rfl
@[simp] theorem State.finish_reply (s : State) (st : Word) : (s.finish st).reply = s.reply := rfl
@[simp] theorem State.finish_freeIx (s : State) (st : Word) : (s.finish st).freeIx = s.freeIx := rfl

@[simp] theorem State.accept_h (s : State) (c : Word) : (s.accept c).h = s.h := rfl
@[simp] theorem State.accept_status (s : State) (c : Word) : (s.accept c).status = statusRunning := rfl
@[simp] theorem State.accept_ctrl (s : State) (c : Word) : (s.accept c).ctrl = s.ctrl := rfl
@[simp] theorem State.accept_pwlen (s : State) (c : Word) : (s.accept c).pwlen = s.pwlen := rfl
@[simp] theorem State.accept_leetctl (s : State) (c : Word) : (s.accept c).leetctl = s.leetctl := rfl
@[simp] theorem State.accept_bitlen (s : State) (c : Word) : (s.accept c).bitlen = s.bitlen := rfl
@[simp] theorem State.accept_rnd (s : State) (c : Word) : (s.accept c).rnd = s.rnd := rfl
@[simp] theorem State.accept_wlen (s : State) (c : Word) : (s.accept c).wlen = s.wlen := rfl
@[simp] theorem State.accept_blen (s : State) (c : Word) : (s.accept c).blen = s.blen := rfl
@[simp] theorem State.accept_tlen (s : State) (c : Word) : (s.accept c).tlen = s.tlen := rfl
@[simp] theorem State.accept_mem (s : State) (c : Word) : (s.accept c).mem = s.mem := rfl
@[simp] theorem State.accept_cmd (s : State) (c : Word) : (s.accept c).cmd = c := rfl
@[simp] theorem State.accept_params (s : State) (c : Word) : (s.accept c).params = s.params := rfl
@[simp] theorem State.accept_inputs (s : State) (c : Word) : (s.accept c).inputs = s.inputs := rfl
@[simp] theorem State.accept_reply (s : State) (c : Word) : (s.accept c).reply = s.reply := rfl
@[simp] theorem State.accept_freeIx (s : State) (c : Word) : (s.accept c).freeIx = s.freeIx := rfl

@[simp] theorem State.wiped_h (s : State) : (s.wiped).h = Vector.replicate 8 0 := rfl
@[simp] theorem State.wiped_status (s : State) : (s.wiped).status = s.status := rfl
@[simp] theorem State.wiped_ctrl (s : State) : (s.wiped).ctrl = s.ctrl := rfl
@[simp] theorem State.wiped_pwlen (s : State) : (s.wiped).pwlen = 0 := rfl
@[simp] theorem State.wiped_leetctl (s : State) : (s.wiped).leetctl = 0 := rfl
@[simp] theorem State.wiped_bitlen (s : State) : (s.wiped).bitlen = 0 := rfl
@[simp] theorem State.wiped_rnd (s : State) : (s.wiped).rnd = 0 := rfl
@[simp] theorem State.wiped_wlen (s : State) : (s.wiped).wlen = 0 := rfl
@[simp] theorem State.wiped_blen (s : State) : (s.wiped).blen = Vector.replicate 4 0 := rfl
@[simp] theorem State.wiped_tlen (s : State) : (s.wiped).tlen = Vector.replicate 8 0 := rfl
@[simp] theorem State.wiped_mem (s : State) :
    (s.wiped).mem =
      { wbuf := Cells.cleared, byt := Vector.replicate 4 Cells.cleared, txt := Vector.replicate 8 Cells.cleared } := rfl
@[simp] theorem State.wiped_cmd (s : State) : (s.wiped).cmd = s.cmd := rfl
@[simp] theorem State.wiped_params (s : State) : (s.wiped).params = s.params := rfl
@[simp] theorem State.wiped_inputs (s : State) : (s.wiped).inputs = s.inputs := rfl
@[simp] theorem State.wiped_reply (s : State) : (s.wiped).reply = s.reply := rfl
@[simp] theorem State.wiped_freeIx (s : State) : (s.wiped).freeIx = s.freeIx := rfl

@[simp] theorem hostReset_h (s : State) : (hostReset s).h = Vector.replicate 8 0 := rfl
@[simp] theorem hostReset_status (s : State) : (hostReset s).status = 0 := rfl
@[simp] theorem hostReset_ctrl (s : State) : (hostReset s).ctrl = 0 := rfl
@[simp] theorem hostReset_pwlen (s : State) : (hostReset s).pwlen = 0 := rfl
@[simp] theorem hostReset_leetctl (s : State) : (hostReset s).leetctl = 0 := rfl
@[simp] theorem hostReset_bitlen (s : State) : (hostReset s).bitlen = 0 := rfl
@[simp] theorem hostReset_rnd (s : State) : (hostReset s).rnd = 0 := rfl
@[simp] theorem hostReset_wlen (s : State) : (hostReset s).wlen = 0 := rfl
@[simp] theorem hostReset_blen (s : State) : (hostReset s).blen = Vector.replicate 4 0 := rfl
@[simp] theorem hostReset_tlen (s : State) : (hostReset s).tlen = Vector.replicate 8 0 := rfl
@[simp] theorem hostReset_mem (s : State) : (hostReset s).mem = unwrittenMemory s.freeIx := rfl
@[simp] theorem hostReset_cmd (s : State) : (hostReset s).cmd = 0 := rfl
@[simp] theorem hostReset_params (s : State) : (hostReset s).params = s.params := rfl
@[simp] theorem hostReset_inputs (s : State) : (hostReset s).inputs = s.inputs := rfl
@[simp] theorem hostReset_reply (s : State) : (hostReset s).reply = none := rfl
@[simp] theorem hostReset_freeIx (s : State) : (hostReset s).freeIx = s.freeIx + 1 := rfl

end Sys2Proof.Machine
end

