-- ==== Sys2Proof/Laws/Memory.lean ====
section
/-! SUPPORT. Buffer cells: what a read gives after each write (spec/20_memory.md R63, R75), and that every memory operation keeps the canonical
form of `Memory.wf`. -/

namespace Sys2Proof.Machine

section Lookup
variable {w : Nat}

theorem lookup_insertCell (i j : Nat) (v : BitVec w) (l : List (Nat × BitVec w)) :
    (insertCell i v l).lookup j = if j = i then some v else l.lookup j := by
  induction l with
  | nil =>
    by_cases h : j = i
    · simp [insertCell, h]
    · have h' : (j == i) = false := by simpa using h
      simp [insertCell, List.lookup_cons, h, h']
  | cons e rest ih =>
    obtain ⟨a, u⟩ := e
    unfold insertCell
    split
    · by_cases h : j = i
      · simp [h]
      · have h' : (j == i) = false := by simpa using h
        simp [List.lookup_cons, h, h']
    · split
      · rename_i h1 h2
        subst h2
        by_cases h : j = i
        · simp [h]
        · have h' : (j == i) = false := by simpa using h
          simp [List.lookup_cons, h, h']
      · rename_i h1 h2
        by_cases h : j = a
        · subst h
          have : ¬ j = i := fun h => h2 h.symm
          simp [this]
        · have h' : (j == a) = false := by simpa using h
          simp [List.lookup_cons, h', ih]

theorem lookup_filter_ne (i j : Nat) (l : List (Nat × BitVec w)) :
    (l.filter fun e => !(e.1 == i)).lookup j = if j = i then none else l.lookup j := by
  induction l with
  | nil => simp
  | cons e rest ih =>
    obtain ⟨a, u⟩ := e
    by_cases ha : a = i
    · subst ha
      by_cases hj : j = a
      · simpa [hj] using ih
      · have hj' : (j == a) = false := by simpa using hj
        simpa [hj, List.lookup_cons, hj'] using ih
    · have ha' : (a == i) = false := by simpa using ha
      by_cases hj : j = a
      · subst hj; simp [ha]
      · have hj' : (j == a) = false := by simpa using hj
        simpa [ha', List.lookup_cons, hj'] using ih

theorem lookup_filter_le (n j : Nat) (l : List (Nat × BitVec w)) :
    (l.filter fun e => n ≤ e.1).lookup j = if n ≤ j then l.lookup j else none := by
  induction l with
  | nil => simp
  | cons e rest ih =>
    obtain ⟨a, u⟩ := e
    by_cases hj : j = a
    · subst hj
      by_cases hn : n ≤ j
      · simp [hn]
      · simpa [hn] using ih
    · have hj' : (j == a) = false := by simpa using hj
      by_cases hn : n ≤ a
      · simpa [hn, List.lookup_cons, hj'] using ih
      · simpa [hn, List.lookup_cons, hj'] using ih

/-- The listed entries of a sequence written from index `k` on. -/
theorem lookup_entries (b : Base) (vs : List (BitVec w)) (k j : Nat) :
    (((vs.zipIdx k).map fun e => (e.2, e.1)).filter b.lists).lookup j =
      if k ≤ j then (match vs[j - k]? with
        | some v => if b.lists (j, v) then some v else none
        | none => none) else none := by
  induction vs generalizing k with
  | nil => simp
  | cons v rest ih =>
    by_cases hk : j = k
    · subst hk
      by_cases hb : b.lists (j, v)
      · simp [hb]
      · simp [hb, ih]
    · have hj' : (j == k) = false := by simpa using hk
      have key : ((((v :: rest).zipIdx k).map fun e => (e.2, e.1)).filter b.lists).lookup j
          = (((rest.zipIdx (k + 1)).map fun e => (e.2, e.1)).filter b.lists).lookup j := by
        by_cases hb : b.lists (k, v) <;> simp [hb, List.lookup_cons, hj']
      rw [key, ih]
      by_cases hkj : k + 1 ≤ j
      · have h1 : k ≤ j := by omega
        have h2 : j - k = (j - (k + 1)) + 1 := by omega
        simp [hkj, h1, h2]
      · have h1 : ¬ k ≤ j := by omega
        simp [hkj, h1]

end Lookup

section Get
variable {w : Nat}

theorem Cells.get_eq (c : Cells w) (i : Nat) : c.get i = (c.map.lookup i).getD (c.unlisted i) := by
  unfold Cells.get
  cases c.map.lookup i <;> rfl

theorem Cells.unlisted_of_not_lists (c : Cells w) (i : Nat) (v : BitVec w) (h : c.base.lists (i, v) = false) :
    c.unlisted i = v := by
  unfold Base.lists at h
  unfold Cells.unlisted
  cases hb : c.base <;> simp_all

/-- Read after a write of one cell (R63). -/
theorem Cells.get_set (c : Cells w) (i j : Nat) (v : BitVec w) :
    (c.set i v).get j = if j = i then v else c.get j := by
  by_cases hl : c.base.lists (i, v)
  · have hs : c.set i v = { c with map := insertCell i v c.map } := by simp [Cells.set, hl]
    rw [hs, Cells.get_eq, Cells.get_eq, lookup_insertCell]
    by_cases h : j = i <;> simp [h, Cells.unlisted]
  · have hs : c.set i v = { c with map := c.map.filter fun e => !(e.1 == i) } := by simp [Cells.set, hl]
    rw [hs, Cells.get_eq, Cells.get_eq, lookup_filter_ne]
    by_cases h : j = i
    · subst h
      simpa [Cells.unlisted] using Cells.unlisted_of_not_lists c j v (by simpa using hl)
    · simp [h, Cells.unlisted]

/-- Read after a destination write (R75). -/
theorem Cells.get_load (c : Cells w) (vs : List (BitVec w)) (j : Nat) :
    (c.load vs).get j = if h : j < vs.length then vs[j] else c.get j := by
  rw [Cells.get_eq, Cells.get_eq]
  have hu : (c.load vs).unlisted j = c.unlisted j := rfl
  rw [hu]
  have hm : (c.load vs).map = ((vs.zipIdx 0).map fun e => (e.2, e.1)).filter c.base.lists
      ++ c.map.filter fun e => vs.length ≤ e.1 := rfl
  rw [hm, List.lookup_append, lookup_entries, lookup_filter_le]
  by_cases hj : j < vs.length
  · have hn : ¬ vs.length ≤ j := by omega
    simp only [Nat.zero_le, if_true, Nat.sub_zero, List.getElem?_eq_getElem hj, hn, if_false, hj, dite_true]
    by_cases hb : c.base.lists (j, vs[j])
    · simp [hb]
    · simpa [hb] using Cells.unlisted_of_not_lists c j vs[j] (by simpa using hb)
  · have hn : vs.length ≤ j := by omega
    simp [hn, hj]

@[simp] theorem Cells.get_cleared (i : Nat) : (Cells.cleared : Cells w).get i = 0 := rfl

end Get

section Form
variable {w : Nat}

theorem Cells.wf_iff (c : Cells w) :
    c.wf = true ↔ (c.map.map Prod.fst).Pairwise (· < ·) ∧ (c.base = .zero → ∀ e ∈ c.map, e.2 ≠ 0) := by
  unfold Cells.wf
  by_cases h : c.base = .zero <;> simp [h]

theorem mem_insertCell {i : Nat} {v : BitVec w} {l : List (Nat × BitVec w)} {e : Nat × BitVec w}
    (h : e ∈ insertCell i v l) : e = (i, v) ∨ e ∈ l := by
  induction l with
  | nil => simpa [insertCell] using h
  | cons d rest ih =>
    obtain ⟨a, u⟩ := d
    unfold insertCell at h
    split at h
    · simpa using h
    · split at h
      · rcases List.mem_cons.1 h with h | h
        · exact .inl h
        · exact .inr (List.mem_cons_of_mem _ h)
      · rcases List.mem_cons.1 h with h | h
        · exact .inr (h ▸ List.mem_cons_self ..)
        · exact (ih h).imp_right (List.mem_cons_of_mem _)

theorem pairwise_insertCell {i : Nat} {v : BitVec w} {l : List (Nat × BitVec w)}
    (h : (l.map Prod.fst).Pairwise (· < ·)) : ((insertCell i v l).map Prod.fst).Pairwise (· < ·) := by
  induction l with
  | nil => simp [insertCell]
  | cons d rest ih =>
    obtain ⟨a, u⟩ := d
    have hh := h
    simp only [List.map_cons, List.pairwise_cons] at h
    unfold insertCell
    split
    · rename_i hia
      simp only [List.map_cons, List.pairwise_cons, List.mem_cons]
      refine ⟨?_, h.1, h.2⟩
      rintro b (rfl | hb)
      · exact hia
      · exact hia.trans (h.1 b hb)
    · split
      · rename_i _ hia
        subst hia
        simpa using hh
      · rename_i h1 h2
        simp only [List.map_cons, List.pairwise_cons]
        refine ⟨?_, ih h.2⟩
        intro b hb
        obtain ⟨e, he, rfl⟩ := List.mem_map.1 hb
        rcases mem_insertCell he with rfl | he
        · simp only; omega
        · exact h.1 _ (List.mem_map_of_mem he)

/-- Writing one cell keeps the canonical form. -/
theorem Cells.wf_set {c : Cells w} (h : c.wf = true) (i : Nat) (v : BitVec w) : (c.set i v).wf = true := by
  rw [Cells.wf_iff] at h ⊢
  by_cases hl : c.base.lists (i, v)
  · have hs : c.set i v = { c with map := insertCell i v c.map } := by simp [Cells.set, hl]
    rw [hs]
    refine ⟨pairwise_insertCell h.1, fun hb e he => ?_⟩
    rcases mem_insertCell he with rfl | he
    · simpa [Base.lists, show c.base = .zero from hb] using hl
    · exact h.2 hb e he
  · have hs : c.set i v = { c with map := c.map.filter fun e => !(e.1 == i) } := by simp [Cells.set, hl]
    rw [hs]
    refine ⟨h.1.sublist (List.filter_sublist.map _), fun hb e he => h.2 hb e (List.mem_of_mem_filter he)⟩

theorem pairwise_zipIdx (vs : List (BitVec w)) (k : Nat) :
    (((vs.zipIdx k).map fun e => (e.2, e.1)).map Prod.fst).Pairwise (· < ·) := by
  have : ((vs.zipIdx k).map fun e => (e.2, e.1)).map Prod.fst = List.range' k vs.length := by
    simp [List.map_map, Function.comp_def, List.zipIdx_map_snd]
  rw [this]
  exact List.pairwise_lt_range'

/-- A destination write keeps the canonical form (R75). -/
theorem Cells.wf_load {c : Cells w} (h : c.wf = true) (vs : List (BitVec w)) : (c.load vs).wf = true := by
  rw [Cells.wf_iff] at h ⊢
  refine ⟨?_, fun hb e he => ?_⟩
  · show (List.map Prod.fst (_ ++ _)).Pairwise (· < ·)
    rw [List.map_append, List.pairwise_append]
    refine ⟨(pairwise_zipIdx vs 0).sublist (List.filter_sublist.map _), h.1.sublist (List.filter_sublist.map _), ?_⟩
    intro a ha b hb
    obtain ⟨e, he, rfl⟩ := List.mem_map.1 ha
    obtain ⟨d, hd, rfl⟩ := List.mem_map.1 hb
    obtain ⟨p, hp, rfl⟩ := List.mem_map.1 (List.mem_of_mem_filter he)
    have h1 := List.snd_lt_add_of_mem_zipIdx hp
    have h2 := (List.mem_filter.1 hd).2
    simp only [decide_eq_true_eq] at h2
    simp only; omega
  · have hb' : c.base = .zero := hb
    rcases List.mem_append.1 he with he | he
    · have := (List.mem_filter.1 he).2
      simpa [Base.lists, hb'] using this
    · exact h.2 hb' e (List.mem_of_mem_filter he)

@[simp] theorem Cells.wf_cleared : (Cells.cleared : Cells w).wf = true := by
  rw [Cells.wf_iff]
  exact ⟨List.Pairwise.nil, fun _ e he => nomatch he⟩

theorem Cells.wf_nil (b : Base) : (⟨b, []⟩ : Cells w).wf = true := by
  rw [Cells.wf_iff]
  exact ⟨List.Pairwise.nil, fun _ e he => nomatch he⟩

end Form

/-- Memory after a reset has the canonical form. -/
theorem unwrittenMemory_wf (n : Nat) : (unwrittenMemory n).wf := by
  refine ⟨Cells.wf_nil _, fun k => ?_, fun k => ?_⟩ <;> simp [unwrittenMemory, Cells.wf_nil]

/-- The memory of the reset state has the canonical form. -/
theorem reset_mem_wf : State.reset.mem.wf := unwrittenMemory_wf 0

/-- A host write of a cell keeps the canonical form (R63). -/
theorem Memory.wf_write {m : Memory} (h : m.wf) (b : BufId) (i : Nat) (v : Word) : (m.write b i v).wf := by
  cases b with
  | wbuf => exact ⟨Cells.wf_set h.1 i v, h.2⟩
  | byt k =>
    refine ⟨h.1, fun j => ?_, h.2.2⟩
    by_cases hj : k = j
    · subst hj; simpa [Memory.write] using Cells.wf_set (h.2.1 k) i (v.setWidth 8)
    · have : (k : Nat) ≠ j := fun e => hj (Fin.ext e)
      simpa [Memory.write, Vector.getElem_set, this] using h.2.1 j
  | txt k =>
    refine ⟨h.1, h.2.1, fun j => ?_⟩
    by_cases hj : k = j
    · subst hj; simpa [Memory.write] using Cells.wf_set (h.2.2 k) i (v.setWidth 16)
    · have : (k : Nat) ≠ j := fun e => hj (Fin.ext e)
      simpa [Memory.write, Vector.getElem_set, this] using h.2.2 j

/-- The destination write to `WBUF` keeps the canonical form (R75). -/
theorem State.setWords_wf {s : State} (h : s.mem.wf) (ws : Words) : (s.setWords ws).mem.wf :=
  ⟨Cells.wf_load h.1 ws, h.2⟩

/-- The destination write to `BYT[k]` keeps the canonical form (R75). -/
theorem State.setBytes_wf {s : State} (h : s.mem.wf) (k : Fin 4) (bs : Bytes) : (s.setBytes k bs).mem.wf := by
  refine ⟨h.1, fun j => ?_, h.2.2⟩
  by_cases hj : k = j
  · subst hj; simpa using Cells.wf_load (h.2.1 k) bs
  · have : (k : Nat) ≠ j := fun e => hj (Fin.ext e)
    simpa [Vector.getElem_set, this] using h.2.1 j

/-- The destination write to `TXT[k]` keeps the canonical form (R75). -/
theorem State.setText_wf {s : State} (h : s.mem.wf) (k : Fin 8) (t : Text) : (s.setText k t).mem.wf := by
  refine ⟨h.1, h.2.1, fun j => ?_⟩
  by_cases hj : k = j
  · subst hj; simpa using Cells.wf_load (h.2.2 k) t
  · have : (k : Nat) ≠ j := fun e => hj (Fin.ext e)
    simpa [Vector.getElem_set, this] using h.2.2 j

/-- The scrub keeps the canonical form (R38). -/
theorem State.scrub_wf {s : State} (h : s.mem.wf) : s.scrub.mem.wf := ⟨Cells.wf_cleared, h.2⟩

/-- `WIPE` leaves the canonical form, whatever was there (R291). -/
theorem State.wiped_wf (s : State) : s.wiped.mem.wf := by
  refine ⟨Cells.wf_cleared, fun k => ?_, fun k => ?_⟩ <;> simp

/-- A reset leaves the canonical form (R330). -/
theorem hostReset_wf (s : State) : (hostReset s).mem.wf := unwrittenMemory_wf _

section Read

/-- Read of any cell after a host write of one (R63): a text cell keeps 16 bits, a byte cell 8. -/
theorem Memory.read_write_other (m : Memory) (b c : BufId) (i j : Nat) (v : Word) (h : ¬ (c = b ∧ j = i)) :
    (m.write b i v).read c j = m.read c j := by
  cases b with
  | wbuf =>
    cases c with
    | wbuf =>
      have : j ≠ i := fun e => h ⟨rfl, e⟩
      simp [Memory.write, Memory.read, Cells.get_set, this]
    | byt k => rfl
    | txt k => rfl
  | byt k =>
    cases c with
    | wbuf => rfl
    | byt l =>
      by_cases hl : k = l
      · subst hl
        have : j ≠ i := fun e => h ⟨rfl, e⟩
        simp [Memory.write, Memory.read, Cells.get_set, this]
      · have : (k : Nat) ≠ l := fun e => hl (Fin.ext e)
        simp [Memory.write, Memory.read, this]
    | txt l => rfl
  | txt k =>
    cases c with
    | wbuf => rfl
    | byt l => rfl
    | txt l =>
      by_cases hl : k = l
      · subst hl
        have : j ≠ i := fun e => h ⟨rfl, e⟩
        simp [Memory.write, Memory.read, Cells.get_set, this]
      · have : (k : Nat) ≠ l := fun e => hl (Fin.ext e)
        simp [Memory.write, Memory.read, this]

/-- Cells that a destination write to `WBUF` leaves alone (R75). -/
theorem State.cellRead_setWords_other (s : State) (ws : Words) (c : BufId) (j : Nat)
    (h : ¬ (c = .wbuf ∧ j < ws.length)) : (s.setWords ws).cellRead c j = s.cellRead c j := by
  cases c with
  | wbuf =>
    have : ¬ j < ws.length := fun e => h ⟨rfl, e⟩
    simp [State.cellRead, Memory.read, Cells.get_load, this]
  | byt k => rfl
  | txt k => rfl

/-- Cells that a destination write to `BYT[k]` leaves alone (R75). -/
theorem State.cellRead_setBytes_other (s : State) (k : Fin 4) (bs : Bytes) (c : BufId) (j : Nat)
    (h : ¬ (c = .byt k ∧ j < bs.length)) : (s.setBytes k bs).cellRead c j = s.cellRead c j := by
  cases c with
  | wbuf => rfl
  | byt l =>
    by_cases hl : k = l
    · subst hl
      have : ¬ j < bs.length := fun e => h ⟨rfl, e⟩
      simp [State.cellRead, Memory.read, Cells.get_load, this]
    · have : (k : Nat) ≠ l := fun e => hl (Fin.ext e)
      simp [State.cellRead, Memory.read, this]
  | txt l => rfl

/-- Cells that a destination write to `TXT[k]` leaves alone (R75). -/
theorem State.cellRead_setText_other (s : State) (k : Fin 8) (t : Text) (c : BufId) (j : Nat)
    (h : ¬ (c = .txt k ∧ j < t.length)) : (s.setText k t).cellRead c j = s.cellRead c j := by
  cases c with
  | wbuf => rfl
  | byt l => rfl
  | txt l =>
    by_cases hl : k = l
    · subst hl
      have : ¬ j < t.length := fun e => h ⟨rfl, e⟩
      simp [State.cellRead, Memory.read, Cells.get_load, this]
    · have : (k : Nat) ≠ l := fun e => hl (Fin.ext e)
      simp [State.cellRead, Memory.read, this]

theorem range_map_get_load {w : Nat} (c : Cells w) (vs : List (BitVec w)) :
    (List.range vs.length).map (c.load vs).get = vs := by
  apply List.ext_getElem
  · simp
  · intro i h1 h2
    simp [Cells.get_load, h2]

/-- The content of `WBUF` after a destination write (R75). -/
theorem State.words_setWords (s : State) (ws : Words) (h : ws.length < 2 ^ 32) : (s.setWords ws).words = ws := by
  have h' : ws.length % 4294967296 = ws.length := Nat.mod_eq_of_lt (by simpa using h)
  simp [State.words, h', range_map_get_load]

/-- The content of `BYT[k]` after a destination write (R75). -/
theorem State.bytes_setBytes (s : State) (k : Fin 4) (bs : Bytes) (h : bs.length < 2 ^ 32) :
    (s.setBytes k bs).bytes k = bs := by
  have h' : bs.length % 4294967296 = bs.length := Nat.mod_eq_of_lt (by simpa using h)
  simp [State.bytes, h', range_map_get_load]

/-- The content of `TXT[k]` after a destination write (R75). -/
theorem State.text_setText (s : State) (k : Fin 8) (t : Text) (h : t.length < 2 ^ 32) :
    (s.setText k t).text k = t := by
  have h' : t.length % 4294967296 = t.length := Nat.mod_eq_of_lt (by simpa using h)
  simp [State.text, h', range_map_get_load]

@[simp] theorem State.words_length (s : State) : s.words.length = s.wlen.toNat := by simp [State.words]

@[simp] theorem State.bytes_length (s : State) (k : Fin 4) : (s.bytes k).length = s.blen[k].toNat := by
  simp [State.bytes]

@[simp] theorem State.text_length (s : State) (k : Fin 8) : (s.text k).length = s.tlen[k].toNat := by
  simp [State.text]

end Read

end Sys2Proof.Machine
end

