-- ==== Sys2Proof/Laws/Ops.lean ====
section
/-! SUPPORT. What each shared operation can do, said once: the completions (spec/60_exceptions.md R303, R306, R309), the destination writes
(spec/20_memory.md R75), the operand forms (spec/30_encoding.md R87) and the operations that several commands share. -/

namespace Sys2Proof.Machine

/-! ### `STATUS` -/

@[simp] theorem statusRunning_eq : statusRunning = 0x01 := by decide
@[simp] theorem statusDone_eq : statusDone = 0x02 := by decide
@[simp] theorem statusWarn_invalidCharset : statusWarn .invalidCharset = 0x1a := by decide
@[simp] theorem statusWarn_unknownAlgorithm : statusWarn .unknownAlgorithm = 0x2a := by decide
@[simp] theorem statusError_invalidCharset : statusError .invalidCharset = 0x16 := by decide
@[simp] theorem statusError_unknownAlgorithm : statusError .unknownAlgorithm = 0x26 := by decide
@[simp] theorem statusError_malformedInput : statusError .malformedInput = 0x36 := by decide
@[simp] theorem statusError_illegalCommand : statusError .illegalCommand = 0x46 := by decide
@[simp] theorem statusError_illegalParameter : statusError .illegalParameter = 0x56 := by decide
@[simp] theorem statusError_capacityExceeded : statusError .capacityExceeded = 0x66 := by decide

/-! ### Completions -/

theorem complete_eq (s : State) : complete s = .next { s with status := 0x02, cmd := 0 } := by
  simp [complete, State.finish]

theorem raise_eq (s : State) (e : ErrorCode) : raise s e = .next { s with status := statusError e, cmd := 0 } := rfl

theorem completeWarn_eq (s : State) (e : ErrorCode) :
    completeWarn s e = .next { s with status := statusWarn e, cmd := 0 } := rfl

@[simp] theorem deliver_some (s t : State) : deliver s (some t) = complete t := rfl
@[simp] theorem deliver_none (s : State) : deliver s none = raise s .capacityExceeded := rfl
@[simp] theorem deliverScrubbed_some (s t : State) : deliverScrubbed s (some t) = complete t.scrub := rfl
@[simp] theorem deliverScrubbed_none (s : State) : deliverScrubbed s none = raise s .capacityExceeded := rfl

/-! ### Destination writes -/

theorem State.storeWords_some {s : State} {ws : Words} (h : ws.length ≤ wbufCap s.params) :
    s.storeWords ws = some (s.setWords ws) := by simp [State.storeWords, h]

theorem State.storeWords_none {s : State} {ws : Words} (h : wbufCap s.params < ws.length) :
    s.storeWords ws = none := by
  have : ¬ ws.length ≤ wbufCap s.params := by omega
  simp [State.storeWords, this]

theorem State.storeBytes_some {s : State} {k : Fin 4} {bs : Bytes} (h : bs.length ≤ s.params.bytCap) :
    s.storeBytes k bs = some (s.setBytes k bs) := by simp [State.storeBytes, h]

theorem State.storeBytes_none {s : State} {k : Fin 4} {bs : Bytes} (h : s.params.bytCap < bs.length) :
    s.storeBytes k bs = none := by
  have : ¬ bs.length ≤ s.params.bytCap := by omega
  simp [State.storeBytes, this]

theorem State.storeText_some {s : State} {k : Fin 8} {t : Text} (h : t.length ≤ s.params.txtCap) :
    s.storeText k t = some (s.setText k t) := by simp [State.storeText, h]

theorem State.storeText_none {s : State} {k : Fin 8} {t : Text} (h : s.params.txtCap < t.length) :
    s.storeText k t = none := by
  have : ¬ t.length ≤ s.params.txtCap := by omega
  simp [State.storeText, this]

/-! ### The cells after a destination write, as the host reads them -/

theorem State.wroteCells_setWords (s : State) (ws : Words) : WroteCells s (s.setWords ws) .wbuf ws := by
  intro c i
  split
  · rename_i h
    obtain ⟨rfl, hi⟩ := h
    simp [State.cellRead, Memory.read, Cells.get_load, hi]
  · exact State.cellRead_setWords_other s ws c i ‹_›

theorem State.wroteCells_setBytes (s : State) (k : Fin 4) (bs : Bytes) :
    WroteCells s (s.setBytes k bs) (.byt k) (byteCells bs) := by
  intro c i
  split
  · rename_i h
    obtain ⟨rfl, hi⟩ := h
    have hi' : i < bs.length := by simpa [byteCells] using hi
    simp [State.cellRead, Memory.read, Cells.get_load, byteCells, hi']
  · rename_i h
    exact State.cellRead_setBytes_other s k bs c i (fun ⟨hc, hi⟩ => h ⟨hc, by simpa [byteCells] using hi⟩)

theorem State.wroteCells_setText (s : State) (k : Fin 8) (t : Text) :
    WroteCells s (s.setText k t) (.txt k) (textCells t) := by
  intro c i
  split
  · rename_i h
    obtain ⟨rfl, hi⟩ := h
    have hi' : i < t.length := by simpa [textCells] using hi
    simp [State.cellRead, Memory.read, Cells.get_load, textCells, hi']
  · rename_i h
    exact State.cellRead_setText_other s k t c i (fun ⟨hc, hi⟩ => h ⟨hc, by simpa [textCells] using hi⟩)

/-- The scrub zeroes the cells of `WBUF` and no other (R38). -/
theorem State.cellRead_scrub (s : State) (c : BufId) (i : Nat) :
    s.scrub.cellRead c i = if c = .wbuf then 0 else s.cellRead c i := by
  cases c <;> simp [State.cellRead, Memory.read, State.scrub]

/-- `WIPE` zeroes every cell (R291). -/
theorem State.cellRead_wiped (s : State) (c : BufId) (i : Nat) : s.wiped.cellRead c i = 0 := by
  cases c <;> simp [State.cellRead, Memory.read, State.wiped]

/-! ### Operand forms -/

@[simp] theorem byteBuf_byteField (k : Fin 4) : byteBuf (byteField k) = some k := by
  revert k; decide

@[simp] theorem textBuf_textField (k : Fin 8) : textBuf (textField k) = k := by
  revert k; decide

@[simp] theorem withByteBuf_byteField (s : State) (k : Fin 4) (f : Fin 4 → Result) :
    withByteBuf s (byteField k) f = f k := by simp [withByteBuf]

/-- What a command with a "b" operand can do. -/
theorem withByteBuf_cases (s : State) (k : BufField) (f : Fin 4 → Result) :
    (∃ i, byteBuf k = some i ∧ withByteBuf s k f = f i) ∨
    (byteBuf k = none ∧ withByteBuf s k f = raise s .illegalCommand) := by
  unfold withByteBuf
  cases h : byteBuf k with
  | some i => exact .inl ⟨i, rfl, rfl⟩
  | none => exact .inr ⟨rfl, rfl⟩

/-- `sext_8` is the two's-complement reading (R10). -/
theorem sext8_eq_toInt (v : Byte) : sext8 v = v.toInt := by
  unfold sext8
  rw [BitVec.toInt_eq_toNat_cond]
  split <;> split <;> omega

end Sys2Proof.Machine
end

