-- ==== Sys2Proof/Laws/Bus.lean ====
section
/-! SUPPORT. The address map read in both directions (spec/20_memory.md R62, R66), and what a host access can do once its offset is
resolved. -/

namespace Sys2Proof.Machine

/-! ### From a register or a cell to its target -/

@[simp] theorem targetOf_id (p : Params) : targetOf p 0x000 = .id := rfl
@[simp] theorem targetOf_ctrl (p : Params) : targetOf p 0x004 = .ctrl := rfl
@[simp] theorem targetOf_status (p : Params) : targetOf p 0x008 = .status := rfl
@[simp] theorem targetOf_cmd (p : Params) : targetOf p 0x00C = .cmd := rfl
@[simp] theorem targetOf_pwlen (p : Params) : targetOf p 0x010 = .pwlen := rfl
@[simp] theorem targetOf_leetctl (p : Params) : targetOf p 0x014 = .leetctl := rfl
@[simp] theorem targetOf_bitlen (p : Params) : targetOf p 0x018 = .bitlen := rfl
@[simp] theorem targetOf_rnd (p : Params) : targetOf p 0x01C = .rnd := rfl
@[simp] theorem targetOf_wlen (p : Params) : targetOf p 0x040 = .wlen := rfl
@[simp] theorem targetOf_cap (p : Params) : targetOf p 0x080 = .cap := rfl

@[simp] theorem targetOf_h (p : Params) (i : Fin 8) : targetOf p (0x020 + 4 * i) = .h i := by
  fin_cases i <;> rfl

@[simp] theorem targetOf_blen (p : Params) (k : Fin 4) : targetOf p (0x050 + 4 * k) = .blen k := by
  fin_cases k <;> rfl

@[simp] theorem targetOf_tlen (p : Params) (k : Fin 8) : targetOf p (0x060 + 4 * k) = .tlen k := by
  fin_cases k <;> rfl

/-- The address map from the buffers on. -/
theorem targetOf_high (p : Params) {off : Nat} (h : 0x100000 ≤ off) :
    targetOf p off =
      if 0x100000 ≤ off ∧ off < 0x200000 then
        cellTarget (.txt (Fin.ofNat 8 ((off - 0x100000) / 0x20000))) p.txtCap ((off - 0x100000) % 0x20000 / 4)
      else if 0x200000 ≤ off ∧ off < 0x280000 then
        cellTarget (.byt (Fin.ofNat 4 ((off - 0x200000) / 0x20000))) p.bytCap ((off - 0x200000) % 0x20000 / 4)
      else if 0x300000 ≤ off ∧ off < 0x400000 then cellTarget .wbuf (wbufCap p) ((off - 0x300000) / 4)
      else .reserved := by
  have word : ∀ k : Nat, k ≤ 0x80 → off ≠ k := fun k _ => by omega
  have bank : ∀ lo hi : Nat, hi ≤ 0x80 → ¬ (lo ≤ off ∧ off < hi) := fun lo hi _ => by omega
  simp only [targetOf, word, bank, Nat.reduceLeDiff, Nat.zero_le, if_false]

theorem wbufCap_le {p : Params} (h : p.legal = true) : wbufCap p ≤ 8208 := by
  have : p.bytCap ≤ 32768 := by simp [Params.legal] at h; omega
  unfold wbufCap
  have : (p.bytCap + 8) / 64 ≤ 512 := by omega
  omega

/-- Every cell stands at its offset (R62). -/
theorem targetOf_cellOffset {p : Params} (hp : p.legal = true) {b : BufId} {i : Nat} (hi : i < capacityOf p b) :
    targetOf p (cellOffset b i) = .cell b i := by
  have hw := wbufCap_le hp
  have ht : p.txtCap ≤ 32768 := by simp [Params.legal] at hp; omega
  have hb : p.bytCap ≤ 32768 := by simp [Params.legal] at hp; omega
  cases b with
  | txt k =>
    simp only [capacityOf] at hi
    have hk := k.isLt
    show targetOf p (0x100000 + 0x20000 * (k : Nat) + 4 * i) = _
    rw [targetOf_high p (by omega), if_pos (by omega)]
    have h1 : (0x100000 + 0x20000 * (k : Nat) + 4 * i - 0x100000) / 0x20000 = k := by omega
    have h2 : (0x100000 + 0x20000 * (k : Nat) + 4 * i - 0x100000) % 0x20000 / 4 = i := by omega
    rw [h1, h2]
    simp [cellTarget, hi]
  | byt k =>
    simp only [capacityOf] at hi
    have hk := k.isLt
    show targetOf p (0x200000 + 0x20000 * (k : Nat) + 4 * i) = _
    rw [targetOf_high p (by omega), if_neg (by omega), if_pos (by omega)]
    have h1 : (0x200000 + 0x20000 * (k : Nat) + 4 * i - 0x200000) / 0x20000 = k := by omega
    have h2 : (0x200000 + 0x20000 * (k : Nat) + 4 * i - 0x200000) % 0x20000 / 4 = i := by omega
    rw [h1, h2]
    simp [cellTarget, hi]
  | wbuf =>
    simp only [capacityOf] at hi
    show targetOf p (0x300000 + 4 * i) = _
    rw [targetOf_high p (by omega), if_neg (by omega), if_neg (by omega), if_pos (by omega)]
    have h1 : (0x300000 + 4 * i - 0x300000) / 4 = i := by omega
    rw [h1]
    simp [cellTarget, hi]

/-! ### From a target back to the map -/

theorem cellTarget_cases (b : BufId) (cap i : Nat) :
    (i < cap ∧ cellTarget b cap i = .cell b i) ∨ (cap ≤ i ∧ cellTarget b cap i = .reserved) := by
  unfold cellTarget
  by_cases h : i < cap
  · exact .inl ⟨h, by simp [h]⟩
  · exact .inr ⟨by omega, by simp [h]⟩

/-- An offset that resolves to a cell resolves to one below the buffer's capacity (R66). -/
theorem targetOf_cell {p : Params} {off : Nat} {b : BufId} {i : Nat} (h : targetOf p off = .cell b i) :
    i < capacityOf p b := by
  by_cases hh : 0x100000 ≤ off
  · rw [targetOf_high p hh] at h
    rcases ite_cases h with ⟨-, h⟩ | ⟨-, h⟩
    · rcases cellTarget_cases _ p.txtCap _ with ⟨hc, h'⟩ | ⟨-, h'⟩ <;> rw [h'] at h <;> cases h
      exact hc
    · rcases ite_cases h with ⟨-, h⟩ | ⟨-, h⟩
      · rcases cellTarget_cases _ p.bytCap _ with ⟨hc, h'⟩ | ⟨-, h'⟩ <;> rw [h'] at h <;> cases h
        exact hc
      · rcases ite_cases h with ⟨-, h⟩ | ⟨-, h⟩
        · rcases cellTarget_cases _ (wbufCap p) _ with ⟨hc, h'⟩ | ⟨-, h'⟩ <;> rw [h'] at h <;> cases h
          exact hc
        · cases h
  · exfalso
    unfold targetOf at h
    iterate 13 rcases ite_cases h with ⟨-, h⟩ | ⟨-, h⟩; · cases h
    rw [if_neg (by omega), if_neg (by omega), if_neg (by omega)] at h
    cases h

/-- A cell of a legal instance lies inside the window, at a multiple of 4 (R62). -/
theorem cellOffset_lt {p : Params} (hp : p.legal = true) {b : BufId} {i : Nat} (hi : i < capacityOf p b) :
    cellOffset b i < 0x400000 ∧ cellOffset b i % 4 = 0 := by
  have hw := wbufCap_le hp
  have ht : p.txtCap ≤ 32768 := by simp [Params.legal] at hp; omega
  have hb : p.bytCap ≤ 32768 := by simp [Params.legal] at hp; omega
  cases b <;> simp only [capacityOf] at hi <;> simp only [cellOffset] <;> (try have := (‹Fin _›).isLt) <;> omega

/-- An offset that no row of the address map lists names nothing (R66). -/
theorem targetOf_reserved {p : Params} {off : Nat} (h : ReservedOffset p off) : targetOf p off = .reserved := by
  obtain ⟨h1, h2, h3⟩ := h
  have hr : ∀ r : Register, off ≠ r.offset := fun r e => h3 (.inl ⟨r, e⟩)
  have hc : ∀ b i, i < capacityOf p b → off ≠ cellOffset b i := fun b i hi e => h3 (.inr ⟨b, i, hi, e⟩)
  by_cases hh : 0x100000 ≤ off
  · rw [targetOf_high p hh]
    split
    · rcases cellTarget_cases (.txt (Fin.ofNat 8 ((off - 0x100000) / 0x20000))) p.txtCap
        ((off - 0x100000) % 0x20000 / 4) with h | h
      · refine absurd ?_ (hc (.txt (Fin.ofNat 8 ((off - 0x100000) / 0x20000))) _ h.1)
        simp only [cellOffset, Fin.ofNat]; omega
      · exact h.2
    split
    · rcases cellTarget_cases (.byt (Fin.ofNat 4 ((off - 0x200000) / 0x20000))) p.bytCap
        ((off - 0x200000) % 0x20000 / 4) with h | h
      · refine absurd ?_ (hc (.byt (Fin.ofNat 4 ((off - 0x200000) / 0x20000))) _ h.1)
        simp only [cellOffset, Fin.ofNat]; omega
      · exact h.2
    split
    · rcases cellTarget_cases .wbuf (wbufCap p) ((off - 0x300000) / 4) with h | h
      · refine absurd ?_ (hc .wbuf _ h.1)
        simp only [cellOffset]; omega
      · exact h.2
    · rfl
  · have a1 := hr .id
    have a2 := hr .ctrl
    have a3 := hr .status
    have a4 := hr .cmd
    have a5 := hr .pwlen
    have a6 := hr .leetctl
    have a7 := hr .bitlen
    have a8 := hr .rnd
    have a9 := hr .wlen
    have a10 := hr .cap
    simp only [Register.offset] at a1 a2 a3 a4 a5 a6 a7 a8 a9 a10
    have c1 : ¬ (0x20 ≤ off ∧ off < 0x40) := fun h =>
      hr (.h ⟨(off - 0x20) / 4, by omega⟩) (by simp only [Register.offset]; omega)
    have c2 : ¬ (0x50 ≤ off ∧ off < 0x60) := fun h =>
      hr (.blen ⟨(off - 0x50) / 4, by omega⟩) (by simp only [Register.offset]; omega)
    have c3 : ¬ (0x60 ≤ off ∧ off < 0x80) := fun h =>
      hr (.tlen ⟨(off - 0x60) / 4, by omega⟩) (by simp only [Register.offset]; omega)
    unfold targetOf
    iterate 16 rw [if_neg (by omega)]
/-- What `badOffset` answers, in its order (R61, R65). -/
theorem badOffset_cases (off : Word) :
    (0x400000 ≤ off.toNat ∧ badOffset off = some (.fault (.outsideWindow off))) ∨
    (off.toNat < 0x400000 ∧ off.toNat % 4 ≠ 0 ∧ badOffset off = some (.refused (.misaligned off))) ∨
    (off.toNat < 0x400000 ∧ off.toNat % 4 = 0 ∧ badOffset off = none) := by
  unfold badOffset windowSize
  by_cases h1 : 0x400000 ≤ off.toNat
  · exact .inl ⟨h1, by rw [if_pos h1]⟩
  · by_cases h2 : off.toNat % 4 = 0
    · exact .inr (.inr ⟨by omega, h2, by rw [if_neg h1, if_neg (by simpa using h2)]⟩)
    · exact .inr (.inl ⟨by omega, h2, by rw [if_neg h1, if_pos h2]⟩)

/-- A read at a good offset while no command runs (R67). -/
theorem hostRead_idle {s : State} {off : Word} (hb : s.busy = false) (h1 : off.toNat < 0x400000)
    (h2 : off.toNat % 4 = 0) :
    hostRead s off = .next { s with reply := some (s.readTarget (targetOf s.params off.toNat)) } := by
  rcases badOffset_cases off with h | h | h
  · omega
  · omega
  · simp [hostRead, h.2.2, hb]

/-- A write at a good offset while no command runs. -/
theorem hostWrite_idle {s : State} {off : Word} (v : Word) (hb : s.busy = false) (h1 : off.toNat < 0x400000)
    (h2 : off.toNat % 4 = 0) :
    hostWrite s off v = .next { s.writeTarget (targetOf s.params off.toNat) v with reply := none } := by
  rcases badOffset_cases off with h | h | h
  · omega
  · omega
  · simp [hostWrite, h.2.2, hb]

/-- What a read that gives a next state can do. -/
theorem hostRead_next {s t : State} {off : Word} (h : hostRead s off = .next t) :
    off.toNat < 0x400000 ∧ off.toNat % 4 = 0 ∧
    ((s.busy = true ∧ off.toNat ≠ 0x008 ∧
        t = { s with reply := some (Config.busyReadData s.freeIx off.toNat), freeIx := s.freeIx + 1 }) ∨
      t = { s with reply := some (s.readTarget (targetOf s.params off.toNat)) }) := by
  rcases badOffset_cases off with hb | hb | hb
  · simp [hostRead, hb.2] at h
  · simp [hostRead, hb.2.2] at h
  · refine ⟨hb.1, hb.2.1, ?_⟩
    simp only [hostRead, hb.2.2] at h
    split at h
    · rename_i hc
      simp only [Bool.and_eq_true, bne_iff_ne] at hc
      injection h with h
      exact .inl ⟨hc.1, hc.2, h.symm⟩
    · injection h with h
      exact .inr h.symm

/-- What a write that gives a next state can do: it comes while no command runs. -/
theorem hostWrite_next {s t : State} {off v : Word} (h : hostWrite s off v = .next t) :
    off.toNat < 0x400000 ∧ off.toNat % 4 = 0 ∧ s.busy = false ∧
      t = { s.writeTarget (targetOf s.params off.toNat) v with reply := none } := by
  rcases badOffset_cases off with hb | hb | hb
  · simp [hostWrite, hb.2] at h
  · simp [hostWrite, hb.2.2] at h
  · simp only [hostWrite, hb.2.2] at h
    split at h
    · cases h
    · rename_i hc
      injection h with h
      exact ⟨hb.1, hb.2.1, by simpa using hc, h.symm⟩

/-- What a step that gives a next state can do: run the command in progress or wait, serve a read, serve a write, or reset. -/
theorem step_next {s t : State} (h : step s = .next t) :
    (∃ rest, (s.inputs = [] ∧ rest = [] ∨ s.inputs = .idle :: rest) ∧ advance { s with inputs := rest } = .next t) ∨
    (∃ off rest, s.inputs = .read off :: rest ∧ hostRead { s with inputs := rest } off = .next t) ∨
    (∃ off v rest, s.inputs = .write off v :: rest ∧ hostWrite { s with inputs := rest } off v = .next t) ∨
    (∃ rest, s.inputs = .reset :: rest ∧ t = hostReset { s with inputs := rest }) := by
  obtain ⟨hh, status, ctrl, pwlen, leetctl, bitlen, rnd, wlen, blen, tlen, mem, cmd, params, inputs, reply, freeIx⟩ := s
  cases inputs with
  | nil => exact .inl ⟨[], .inl ⟨rfl, rfl⟩, h⟩
  | cons e rest =>
    cases e with
    | idle => exact .inl ⟨rest, .inr rfl, h⟩
    | read off => exact .inr (.inl ⟨off, rest, rfl, h⟩)
    | write off v => exact .inr (.inr (.inl ⟨off, v, rest, rfl, h⟩))
    | reset =>
      injection h with h
      exact .inr (.inr (.inr ⟨rest, rfl, h.symm⟩))

/-- What the sequencer's move that gives a next state can do: complete a command, complete an illegal one, or wait. -/
theorem advance_next {s t : State} (h : advance s = .next t) :
    (s.busy = true ∧ ∃ i, decode s.cmd = .ok i ∧ exec i s = .next t) ∨
    (s.busy = true ∧ (∃ why, decode s.cmd = .error why) ∧ t = { s with status := 0x46, cmd := 0 }) ∨
    (s.busy = false ∧ t = s) := by
  unfold advance at h
  split at h
  · rename_i hb
    unfold runCommand fetch at h
    split at h
    · exact .inl ⟨hb, _, ‹_›, h⟩
    · rename_i why _
      rw [illegalWord, raise_eq, statusError_illegalCommand] at h
      injection h with h
      exact .inr (.inl ⟨hb, ⟨why, ‹_›⟩, h.symm⟩)
  · rename_i hb
    injection h with h
    exact .inr (.inr ⟨by simpa using hb, h.symm⟩)

end Sys2Proof.Machine
end

