-- ==== Sys2Proof/Laws/Lengths.lean ====
section
/-! SUPPORT. The lengths of what the commands compute (spec/40_codecs.md, spec/45_digest_hmac.md, spec/47_leet.md, spec/48_derive.md),
and the values of packed and padded words at an index. -/

namespace Sys2Proof.Machine

/-! ### Packing and padding -/

theorem packWords_length (word : Byte → Byte → Byte → Byte → Word) (m : Bytes) :
    (packWords word m).length = (m.length + 3) / 4 := by
  induction m using packWords.induct <;> (simp_all [packWords]; try omega)

@[simp] theorem packLE_length (m : Bytes) : (packLE m).length = (m.length + 3) / 4 := packWords_length _ m
@[simp] theorem packBE_length (m : Bytes) : (packBE m).length = (m.length + 3) / 4 := packWords_length _ m

/-- Word `j` of a packed byte string, a missing byte read as 0 (R104, R105). -/
theorem packWords_getD (word : Byte → Byte → Byte → Byte → Word) (m : Bytes) (j : Nat) (h : j < (m.length + 3) / 4) :
    (packWords word m).getD j 0 = word (m.getD (4 * j) 0) (m.getD (4 * j + 1) 0) (m.getD (4 * j + 2) 0) (m.getD (4 * j + 3) 0) := by
  induction m using packWords.induct generalizing j with
  | case1 => simp at h
  | case2 b0 => obtain rfl : j = 0 := by simp at h; omega
                simp [packWords]
  | case3 b0 b1 => obtain rfl : j = 0 := by simp at h; omega
                   simp [packWords]
  | case4 b0 b1 b2 => obtain rfl : j = 0 := by simp at h; omega
                      simp [packWords]
  | case5 b0 b1 b2 b3 rest ih =>
    cases j with
    | zero => simp [packWords]
    | succ j =>
      have hj : j < (rest.length + 3) / 4 := by simp at h; omega
      have := ih j hj
      simpa [packWords, Nat.mul_succ, List.getElem?_cons_succ] using this

/-- Packing whole words first: a byte string whose length is a multiple of 4 packs apart from what follows it. -/
theorem packWords_append (word : Byte → Byte → Byte → Byte → Word) (m n : Bytes) (h : m.length % 4 = 0) :
    packWords word (m ++ n) = packWords word m ++ packWords word n := by
  induction m using packWords.induct with
  | case1 => rfl
  | case2 | case3 | case4 => simp at h
  | case5 b0 b1 b2 b3 rest ih =>
    have : rest.length % 4 = 0 := by simp at h; omega
    simp [packWords, ih this]

@[simp] theorem paddedWords_pos (bits : Nat) : 16 ≤ paddedWords bits := by unfold paddedWords; omega

@[simp] theorem markPadding_length (ws : Words) (bits shift : Nat) :
    (markPadding ws bits shift).length = max ws.length (paddedWords bits) := by
  simp [markPadding]; omega

@[simp] theorem padLE_length (ws : Words) (bits : Nat) : (padLE ws bits).length = max ws.length (paddedWords bits) := by
  simp [padLE]

@[simp] theorem padBE_length (ws : Words) (bits : Nat) : (padBE ws bits).length = max ws.length (paddedWords bits) := by
  simp [padBE]

@[simp] theorem padFor_length (v : Variant) (ws : Words) (bits : Nat) :
    (padFor v ws bits).length = max ws.length (paddedWords bits) := by
  unfold padFor; split <;> simp

/-- Word `j` of the marked sequence: the old word, 0 beyond the end, with the marker in word `bits / 32` (R109). -/
theorem markPadding_getD (ws : Words) (bits shift j : Nat) (h : j < paddedWords bits) :
    (markPadding ws bits shift).getD j 0 =
      ws.getD j 0 ||| (if j = bits / 32 then 0x80#32 <<< shift else 0) := by
  have hb : bits / 32 < paddedWords bits := by unfold paddedWords; omega
  have hp : ∀ k, (ws ++ List.replicate (paddedWords bits - ws.length) 0).getD k 0 = ws.getD k 0 := by
    intro k
    by_cases hk : k < ws.length
    · simp [List.getElem?_append, hk]
    · by_cases hk2 : k - ws.length < paddedWords bits - ws.length <;>
        simp [List.getElem?_append, hk, hk2]
  have hl : (ws ++ List.replicate (paddedWords bits - ws.length) (0 : Word)).length
      = max ws.length (paddedWords bits) := by simp; omega
  unfold markPadding
  simp only
  by_cases hj : j = bits / 32
  · subst hj
    rw [List.getD_eq_getElem?_getD, List.getElem?_set_self (by omega)]
    simp only [Option.getD_some, hp, if_true]
  · rw [List.getD_eq_getElem?_getD, List.getElem?_set_ne (by omega), ← List.getD_eq_getElem?_getD, hp]
    simp [hj]

/-! ### Digests -/

@[simp] theorem unpackState_length (v : Variant) (h : Vector Word 8) : (unpackState v h).length = v.digestBytes := by
  cases v <;> simp [unpackState, Variant.stateWords, Variant.littleEndian, Variant.digestBytes, unpackLE, unpackBE,
    List.length_flatMap]

@[simp] theorem hashWords_length (v : Variant) (ws : Words) (bits : Nat) : (hashWords v ws bits).length = v.digestBytes := by
  simp [hashWords]

@[simp] theorem digest_length (v : Variant) (m : Bytes) : (digest v m).length = v.digestBytes := by simp [digest]

@[simp] theorem hmac_length (v : Variant) (key data : Bytes) : (hmac v key data).length = v.digestBytes := by simp [hmac]

@[simp] theorem hmacLegacy_length (key data : Bytes) : (hmacLegacy key data).length = 32 := by
  simp [hmacLegacy, Variant.digestBytes]

theorem digestBytes_le (v : Variant) : v.digestBytes ≤ 32 := by cases v <;> decide

theorem digestBytes_even (v : Variant) : v.digestBytes % 2 = 0 := by cases v <;> decide

theorem digestBytes_pos (v : Variant) : 16 ≤ v.digestBytes := by cases v <;> decide

@[simp] theorem prepKey_length (v : Variant) (key : Bytes) : (prepKey v key).length = 64 := by
  have := digestBytes_le v
  unfold prepKey
  simp only
  split <;> simp <;> omega

/-- Every tag's hash has the digest width of its variant (R270). -/
theorem hashOf_length (tag : Tag) (key data : Bytes) : (hashOf tag key data).length = tag.variant.digestBytes := by
  unfold hashOf
  split
  · simp
  · split
    · rename_i h; subst h; simp [Tag.variant, Variant.digestBytes]
    · simp

/-! ### Post-processing and rounds -/

theorem postProcess_length_le (pre acc suf : Text) (len : Nat) : (postProcess pre acc suf len).length ≤ len := by
  simp [postProcess]

/-- `WBUF` holds the padded form of every message a byte buffer holds (R6). -/
theorem paddedWords_le_wbufCap {p : Params} {n : Nat} (h : n ≤ p.bytCap) : paddedWords (8 * n) ≤ wbufCap p := by
  unfold paddedWords wbufCap
  have : (8 * n + 64) / 512 = (n + 8) / 64 := by omega
  have h2 : (n + 8) / 64 ≤ (p.bytCap + 8) / 64 := Nat.div_le_div_right (by omega)
  omega

end Sys2Proof.Machine
end

