-- ==== Sys2Proof/Laws/Sound.lean ====
section
/-! SUPPORT. `Cells.Sound` and `State.Fits` along each named update (spec/20_memory.md R75, spec/10_state.md R35, R38, R291): the parts of which
an invariant proof is made. -/

namespace Sys2Proof.Machine

section Sound
variable {w : Nat} {c : Cells w} {buf : BufId} {cap n : Nat}

theorem Cells.Sound.set (h : c.Sound buf cap n) {i : Nat} (hi : i < cap) (v : BitVec w) : (c.set i v).Sound buf cap n := by
  refine ⟨Cells.wf_set h.canonical i v, fun e he => ?_, ?_⟩
  · unfold Cells.set at he
    split at he
    · rcases mem_insertCell he with rfl | he
      · exact hi
      · exact h.listed e he
    · exact h.listed e (List.mem_of_mem_filter he)
  · have hb : (c.set i v).base = c.base := by unfold Cells.set; split <;> rfl
    rw [hb]; exact h.background

theorem Cells.Sound.load (h : c.Sound buf cap n) {vs : List (BitVec w)} (hl : vs.length ≤ cap) :
    (c.load vs).Sound buf cap n := by
  refine ⟨Cells.wf_load h.canonical vs, fun e he => ?_, h.background⟩
  rcases List.mem_append.1 he with he | he
  · obtain ⟨p, hp, rfl⟩ := List.mem_map.1 (List.mem_of_mem_filter he)
    have := List.snd_lt_add_of_mem_zipIdx hp
    simp only; omega
  · exact h.listed e (List.mem_of_mem_filter he)

theorem Cells.Sound.cleared : (Cells.cleared : Cells w).Sound buf cap n :=
  ⟨Cells.wf_cleared, fun _ he => (nomatch he), .inl rfl⟩

/-- A buffer nothing has written since the reset numbered `epoch`. -/
theorem Cells.Sound.unwritten {epoch : Nat} (h : epoch < n) : (⟨.unspecified epoch buf, []⟩ : Cells w).Sound buf cap n :=
  ⟨Cells.wf_nil _, fun _ he => (nomatch he), .inr ⟨epoch, h, rfl⟩⟩

theorem Cells.Sound.mono (h : c.Sound buf cap n) {m : Nat} (hm : n ≤ m) : c.Sound buf cap m :=
  ⟨h.canonical, h.listed, h.background.imp_right fun ⟨e, he, hb⟩ => ⟨e, he.trans_le hm, hb⟩⟩

end Sound

/-- Every buffer of a memory is sound, for the capacities of `p` and the counter `n`. -/
structure Memory.Sound (m : Memory) (p : Params) (n : Nat) : Prop where
  wbuf : m.wbuf.Sound .wbuf (wbufCap p) n
  byt : ∀ k : Fin 4, m.byt[k].Sound (.byt k) p.bytCap n
  txt : ∀ k : Fin 8, m.txt[k].Sound (.txt k) p.txtCap n

section MemorySound
variable {m : Memory} {p : Params} {n : Nat}

theorem Memory.Sound.write (h : m.Sound p n) {b : BufId} {i : Nat} (hi : i < capacityOf p b) (v : Word) :
    (m.write b i v).Sound p n := by
  cases b with
  | wbuf => exact ⟨h.wbuf.set hi v, h.byt, h.txt⟩
  | byt k =>
    refine ⟨h.wbuf, fun j => ?_, h.txt⟩
    by_cases hj : k = j
    · subst hj; simpa [Memory.write] using (h.byt k).set hi (v.setWidth 8)
    · have : (k : Nat) ≠ j := fun e => hj (Fin.ext e)
      simpa [Memory.write, Vector.getElem_set, this] using h.byt j
  | txt k =>
    refine ⟨h.wbuf, h.byt, fun j => ?_⟩
    by_cases hj : k = j
    · subst hj; simpa [Memory.write] using (h.txt k).set hi (v.setWidth 16)
    · have : (k : Nat) ≠ j := fun e => hj (Fin.ext e)
      simpa [Memory.write, Vector.getElem_set, this] using h.txt j

theorem Memory.Sound.unwritten {epoch : Nat} (h : epoch < n) : (unwrittenMemory epoch).Sound p n := by
  refine ⟨Cells.Sound.unwritten h, fun k => ?_, fun k => ?_⟩ <;>
    simpa [unwrittenMemory] using Cells.Sound.unwritten h

theorem Memory.Sound.mono (h : m.Sound p n) {l : Nat} (hl : n ≤ l) : m.Sound p l :=
  ⟨h.wbuf.mono hl, fun k => (h.byt k).mono hl, fun k => (h.txt k).mono hl⟩

end MemorySound

section Updates
variable {s : State} {n : Nat}

theorem State.setWords_sound (h : s.mem.Sound s.params n) {ws : Words} (hl : ws.length ≤ wbufCap s.params) :
    (s.setWords ws).mem.Sound s.params n := ⟨h.wbuf.load hl, h.byt, h.txt⟩

theorem State.setBytes_sound (h : s.mem.Sound s.params n) (k : Fin 4) {bs : Bytes} (hl : bs.length ≤ s.params.bytCap) :
    (s.setBytes k bs).mem.Sound s.params n := by
  refine ⟨h.wbuf, fun j => ?_, h.txt⟩
  by_cases hj : k = j
  · subst hj; simpa using (h.byt k).load hl
  · have : (k : Nat) ≠ j := fun e => hj (Fin.ext e)
    simpa [Vector.getElem_set, this] using h.byt j

theorem State.setText_sound (h : s.mem.Sound s.params n) (k : Fin 8) {t : Text} (hl : t.length ≤ s.params.txtCap) :
    (s.setText k t).mem.Sound s.params n := by
  refine ⟨h.wbuf, h.byt, fun j => ?_⟩
  by_cases hj : k = j
  · subst hj; simpa using (h.txt k).load hl
  · have : (k : Nat) ≠ j := fun e => hj (Fin.ext e)
    simpa [Vector.getElem_set, this] using h.txt j

theorem State.scrub_sound (h : s.mem.Sound s.params n) : s.scrub.mem.Sound s.params n :=
  ⟨Cells.Sound.cleared, h.byt, h.txt⟩

theorem State.wiped_sound (s : State) (n : Nat) : s.wiped.mem.Sound s.params n := by
  refine ⟨Cells.Sound.cleared, fun k => ?_, fun k => ?_⟩ <;> simpa using Cells.Sound.cleared

/-- The length a register holds after a destination write that fits a register. -/
theorem toNat_length_le {l cap : Nat} (h : l ≤ cap) : (BitVec.ofNat 32 l).toNat ≤ cap :=
  (Nat.mod_le _ _).trans h

theorem State.setWords_fits (h : s.Fits) {ws : Words} (hl : ws.length ≤ wbufCap s.params) : (s.setWords ws).Fits :=
  ⟨h.params, toNat_length_le hl, h.blen, h.tlen⟩

theorem State.setBytes_fits (h : s.Fits) (k : Fin 4) {bs : Bytes} (hl : bs.length ≤ s.params.bytCap) :
    (s.setBytes k bs).Fits := by
  refine ⟨h.params, h.wlen, fun j => ?_, h.tlen⟩
  by_cases hj : k = j
  · subst hj; simpa using toNat_length_le hl
  · have : (k : Nat) ≠ j := fun e => hj (Fin.ext e)
    simpa [Vector.getElem_set, this] using h.blen j

theorem State.setText_fits (h : s.Fits) (k : Fin 8) {t : Text} (hl : t.length ≤ s.params.txtCap) :
    (s.setText k t).Fits := by
  refine ⟨h.params, h.wlen, h.blen, fun j => ?_⟩
  by_cases hj : k = j
  · subst hj; simpa using toNat_length_le hl
  · have : (k : Nat) ≠ j := fun e => hj (Fin.ext e)
    simpa [Vector.getElem_set, this] using h.tlen j

theorem State.scrub_fits (h : s.Fits) : s.scrub.Fits := ⟨h.params, Nat.zero_le _, h.blen, h.tlen⟩

theorem State.wiped_fits (h : s.Fits) : s.wiped.Fits :=
  ⟨h.params, Nat.zero_le _, fun k => by simp, fun k => by simp⟩

theorem hostReset_fits (h : s.Fits) : (hostReset s).Fits := by
  refine ⟨h.params, Nat.zero_le _, fun k => ?_, fun k => ?_⟩ <;> simp

end Updates

/-- The capacities of a legal instance (R5). -/
theorem legal_caps {p : Params} (h : p.legal = true) :
    256 ≤ p.txtCap ∧ p.txtCap ≤ 32768 ∧ 128 ≤ p.bytCap ∧ p.bytCap ≤ 32768 ∧ 1 ≤ p.leetTokMax ∧ p.leetTokMax ≤ 64 ∧
      p.romLegal = true := by
  simp [Params.legal] at h
  tauto

end Sys2Proof.Machine
end

