-- ==== Sys2Proof/Laws/Deliver.lean ====
section
/-! SUPPORT. The ends of commands that write a buffer: what the destination write, the scrub and the completion leave, as the host
reads it afterwards (spec/20_memory.md R75, spec/10_state.md R38, spec/60_exceptions.md R306, R309). -/

namespace Sys2Proof.Machine

/-- A write to a byte buffer with the scrub. -/
theorem State.wroteCellsScrubbed_setBytes (s : State) (k : Fin 4) (bs : Bytes) :
    WroteCellsScrubbed s (s.setBytes k bs).scrub (.byt k) (byteCells bs) := by
  intro c i
  rw [State.cellRead_scrub]
  split
  · rfl
  · exact State.wroteCells_setBytes s k bs c i

/-- A write to a text buffer with the scrub. -/
theorem State.wroteCellsScrubbed_setText (s : State) (k : Fin 8) (t : Text) :
    WroteCellsScrubbed s (s.setText k t).scrub (.txt k) (textCells t) := by
  intro c i
  rw [State.cellRead_scrub]
  split
  · rfl
  · exact State.wroteCells_setText s k t c i

/-- A write of the empty text changes no cell. -/
theorem State.sameCells_setText_nil (s : State) (k : Fin 8) : SameCells s (s.setText k []) := fun b i => by
  simpa [textCells] using State.wroteCells_setText s k [] b i

section Bytes

variable {s : State} {k : Fin 4} {bs : Bytes}

/-- `BYT[k] <- bs` and completion, when it fits. -/
theorem deliver_storeBytes (hc : s.params.legal = true) (h : bs.length ≤ s.params.bytCap) :
    ∃ t : State, deliver s (s.storeBytes k bs) = .next t ∧
      t = { s with mem := t.mem, blen := s.blen.set k (BitVec.ofNat 32 bs.length), status := 0x02, cmd := 0 } ∧
      WroteCells s t (.byt k) (byteCells bs) ∧ t.bytes k = bs := by
  have hl := legal_caps hc
  exact ⟨(s.setBytes k bs).finish 0x02, by rw [State.storeBytes_some h, deliver_some, complete_eq]; rfl, rfl,
    State.wroteCells_setBytes s k bs, State.bytes_setBytes s k bs (by omega)⟩

/-- `BYT[k] <- bs`, scrub and completion, when it fits. -/
theorem deliverScrubbed_storeBytes (hc : s.params.legal = true) (h : bs.length ≤ s.params.bytCap) :
    ∃ t : State, deliverScrubbed s (s.storeBytes k bs) = .next t ∧
      t = { s with mem := t.mem, blen := s.blen.set k (BitVec.ofNat 32 bs.length), wlen := 0, h := Vector.replicate 8 0,
                   status := 0x02, cmd := 0 } ∧
      WroteCellsScrubbed s t (.byt k) (byteCells bs) ∧ t.bytes k = bs := by
  have hl := legal_caps hc
  exact ⟨(s.setBytes k bs).scrub.finish 0x02, by rw [State.storeBytes_some h, deliverScrubbed_some, complete_eq]; rfl, rfl,
    State.wroteCellsScrubbed_setBytes s k bs, State.bytes_setBytes s k bs (by omega)⟩

/-- A byte string that does not fit: `CapacityExceeded`. -/
theorem deliver_storeBytes_none (h : s.params.bytCap < bs.length) :
    deliver s (s.storeBytes k bs) = .next { s with status := 0x66, cmd := 0 } := by
  rw [State.storeBytes_none h]; simp [raise_eq]

end Bytes

section Text

variable {s : State} {k : Fin 8} {x : Text}

/-- `TXT[k] <- x` and completion, when it fits. -/
theorem deliver_storeText (hc : s.params.legal = true) (h : x.length ≤ s.params.txtCap) :
    ∃ t : State, deliver s (s.storeText k x) = .next t ∧
      t = { s with mem := t.mem, tlen := s.tlen.set k (BitVec.ofNat 32 x.length), status := 0x02, cmd := 0 } ∧
      WroteCells s t (.txt k) (textCells x) ∧ t.text k = x := by
  have hl := legal_caps hc
  exact ⟨(s.setText k x).finish 0x02, by rw [State.storeText_some h, deliver_some, complete_eq]; rfl, rfl,
    State.wroteCells_setText s k x, State.text_setText s k x (by omega)⟩

/-- A text that does not fit: `CapacityExceeded`. -/
theorem deliver_storeText_none (h : s.params.txtCap < x.length) :
    deliver s (s.storeText k x) = .next { s with status := 0x66, cmd := 0 } := by
  rw [State.storeText_none h]; simp [raise_eq]

/-- `TXT[k] <- x`, `RND <- 1`, scrub and completion, when it fits (R271). -/
theorem deliverScrubbed_storeText (hc : s.params.legal = true) (h : x.length ≤ s.params.txtCap) :
    ∃ t : State, deliverScrubbed s ((s.storeText k x).map fun t => { t with rnd := 1 }) = .next t ∧
      t = { s with mem := t.mem, tlen := s.tlen.set k (BitVec.ofNat 32 x.length), rnd := 1, wlen := 0,
                   h := Vector.replicate 8 0, status := 0x02, cmd := 0 } ∧
      WroteCellsScrubbed s t (.txt k) (textCells x) ∧ t.text k = x := by
  have hl := legal_caps hc
  refine ⟨{ (s.setText k x) with rnd := 1 }.scrub.finish 0x02, ?_, rfl, State.wroteCellsScrubbed_setText s k x,
    State.text_setText s k x (by omega)⟩
  rw [State.storeText_some h, Option.map_some, deliverScrubbed_some, complete_eq]
  rfl

/-- The silent paths of the engine with the text `x`: scrub, `WARN` and the suppressed code (R306). -/
theorem completeWarn_scrub (e : ErrorCode) (rounds : Word) :
    ∃ t : State, completeWarn { (s.setText k x) with rnd := rounds }.scrub e = .next t ∧
      t = { s with mem := t.mem, tlen := s.tlen.set k (BitVec.ofNat 32 x.length), rnd := rounds, wlen := 0,
                   h := Vector.replicate 8 0, status := statusWarn e, cmd := 0 } ∧
      WroteCellsScrubbed s t (.txt k) (textCells x) :=
  ⟨_, completeWarn_eq _ _, rfl, State.wroteCellsScrubbed_setText s k x⟩

/-- The silent path of `RADIX`: the empty text, no cell written (R306). -/
theorem completeWarn_empty (e : ErrorCode) :
    ∃ t : State, completeWarn (s.setText k []) e = .next t ∧
      t = { s with mem := t.mem, tlen := s.tlen.set k 0, status := statusWarn e, cmd := 0 } ∧ SameCells s t :=
  ⟨_, completeWarn_eq _ _, rfl, State.sameCells_setText_nil s k⟩

end Text

/-- `WBUF <- ws; BITLEN <- 8·n` and completion, when it fits (R104, R105). -/
theorem packInto_fits {s : State} {ws : Words} (n : Nat) (h : ws.length ≤ wbufCap s.params) :
    ∃ t : State, packInto s ws n = .next t ∧
      t = { s with mem := t.mem, wlen := BitVec.ofNat 32 ws.length, bitlen := BitVec.ofNat 32 (8 * n), status := 0x02,
                   cmd := 0 } ∧
      WroteCells s t .wbuf ws := by
  refine ⟨{ (s.setWords ws) with bitlen := BitVec.ofNat 32 (8 * n) }.finish 0x02, ?_, rfl, State.wroteCells_setWords s ws⟩
  unfold packInto
  rw [State.storeWords_some h, Option.map_some, deliver_some, complete_eq]
  rfl

/-- A padder whose three checks pass: the padded sequence in `WBUF` (R109, R110). -/
theorem padInto_fits {s : State} {pad : Words → Nat → Words} (h1 : s.bitlen.toNat % 8 = 0)
    (h2 : paddedWords s.bitlen.toNat ≤ wbufCap s.params) (h3 : s.wlen.toNat ≤ paddedWords s.bitlen.toNat) :
    ∃ t : State, padInto s pad = .next t ∧
      t = { s with mem := t.mem, wlen := BitVec.ofNat 32 (pad s.words s.bitlen.toNat).length, status := 0x02, cmd := 0 } ∧
      WroteCells s t .wbuf (pad s.words s.bitlen.toNat) := by
  refine ⟨(s.setWords (pad s.words s.bitlen.toNat)).finish 0x02, ?_, rfl, State.wroteCells_setWords s _⟩
  unfold padInto
  rw [if_neg (by omega), if_neg (by omega), if_neg (by omega), complete_eq]
  rfl

end Sys2Proof.Machine
end

