-- ==== Sys2Proof/Laws/Exec.lean ====
section
/-! SUPPORT. What executing an instruction can do, said once: `Effect` lists the shapes a command's result takes before its completion, and
`exec_effect` says that every command ends in one of them. -/

namespace Sys2Proof.Machine

/-- The shapes of what command `i` makes of the state `s`: the state before the completion, and the final `STATUS`. -/
inductive Effect (s : State) : Instr → State → Word → Prop where
  /-- An error (R303). -/
  | error (i : Instr) (e : ErrorCode) (h : e ≠ .malformedInput) : Effect s i s (statusError e)
  /-- `NOP` (R290). -/
  | nop : Effect s .nop s statusDone
  /-- `WIPE` (R291). -/
  | wipe : Effect s .wipe s.wiped statusDone
  /-- `HINIT` and `HBLK`: the chaining registers (R131, R130). -/
  | hash (i : Instr) (h : Vector Word 8) : Effect s i { s with h := h } statusDone
  /-- `PACKLE` and `PACKBE` (R104, R105). -/
  | pack (i : Instr) (a : BufField) (hi : i = .packle a ∨ i = .packbe a) (ws : Words) (bits : Word)
      (h : ws.length ≤ wbufCap s.params) : Effect s i { s.setWords ws with bitlen := bits } statusDone
  /-- `PADLE` and `PADBE` (R109, R110). -/
  | pad (i : Instr) (ws : Words) (h : ws.length ≤ wbufCap s.params) : Effect s i (s.setWords ws) statusDone
  /-- `UTF8` and `HOUT` (R100, R112). -/
  | bytes (i : Instr) (k : Fin 4) (bs : Bytes) (h : bs.length ≤ s.params.bytCap) :
      Effect s i (s.setBytes k bs) statusDone
  /-- `DIGEST` and `HMAC` (R217, R221). -/
  | bytesScrubbed (i : Instr) (k : Fin 4) (bs : Bytes) (h : bs.length ≤ s.params.bytCap) :
      Effect s i (s.setBytes k bs).scrub statusDone
  /-- `RADIX` and `LEET` (R241, R259). -/
  | text (i : Instr) (k : Fin 8) (t : Text) (h : t.length ≤ s.params.txtCap) : Effect s i (s.setText k t) statusDone
  /-- `RADIX` on the silent path (R306). -/
  | emptyText (a d : BufField) (k : Fin 8) (h : s.compat = true) :
      Effect s (.radix a d) (s.setText k []) (statusWarn .invalidCharset)
  /-- `GENONCE` and `DERIVE` (R271, R280). -/
  | engine (i : Instr) (hi : (∃ alg a b d, i = .genonce alg a b d) ∨ ∃ alg, i = .derive alg) (k : Fin 8) (t : Text)
      (rnd st : Word) (h : t.length ≤ s.params.txtCap)
      (hst : st = statusDone ∨ s.compat = true ∧ (st = statusWarn .invalidCharset ∨ st = statusWarn .unknownAlgorithm)) :
      Effect s i { s.setText k t with rnd := rnd }.scrub st

/-- The result is the completion of an effect of `i` on `s`. -/
def Ends (s : State) (i : Instr) (r : Result) : Prop := ∃ u st, Effect s i u st ∧ r = .next (u.finish st)

theorem ends_raise (s : State) (i : Instr) {e : ErrorCode} (h : e ≠ .malformedInput) : Ends s i (raise s e) :=
  ⟨s, _, .error i e h, rfl⟩

theorem ends_withByteBuf {s : State} {i : Instr} {k : BufField} {f : Fin 4 → Result} (h : ∀ j, Ends s i (f j)) :
    Ends s i (withByteBuf s k f) := by
  rcases withByteBuf_cases s k f with ⟨j, -, hj⟩ | ⟨-, hj⟩
  · rw [hj]; exact h j
  · rw [hj]; exact ends_raise s i (by decide)

theorem ends_deliverBytes (s : State) (i : Instr) (k : Fin 4) (bs : Bytes) : Ends s i (deliver s (s.storeBytes k bs)) := by
  by_cases h : bs.length ≤ s.params.bytCap
  · rw [State.storeBytes_some h]; exact ⟨_, _, .bytes i k bs h, rfl⟩
  · rw [State.storeBytes_none (by omega)]; exact ends_raise s i (by decide)

theorem ends_deliverScrubbedBytes (s : State) (i : Instr) (k : Fin 4) (bs : Bytes) :
    Ends s i (deliverScrubbed s (s.storeBytes k bs)) := by
  by_cases h : bs.length ≤ s.params.bytCap
  · rw [State.storeBytes_some h]; exact ⟨_, _, .bytesScrubbed i k bs h, rfl⟩
  · rw [State.storeBytes_none (by omega)]; exact ends_raise s i (by decide)

theorem ends_deliverText (s : State) (i : Instr) (k : Fin 8) (t : Text) : Ends s i (deliver s (s.storeText k t)) := by
  by_cases h : t.length ≤ s.params.txtCap
  · rw [State.storeText_some h]; exact ⟨_, _, .text i k t h, rfl⟩
  · rw [State.storeText_none (by omega)]; exact ends_raise s i (by decide)

theorem ends_packInto (s : State) (i : Instr) (a : BufField) (hi : i = .packle a ∨ i = .packbe a) (ws : Words) (n : Nat) :
    Ends s i (packInto s ws n) := by
  unfold packInto
  by_cases h : ws.length ≤ wbufCap s.params
  · rw [State.storeWords_some h]; exact ⟨_, _, .pack i a hi ws _ h, rfl⟩
  · rw [State.storeWords_none (by omega)]; exact ends_raise s i (by decide)

/-- A padder whose result is as long as the longer of the content and `NW` (R109). -/
theorem ends_padInto (s : State) (i : Instr) (pad : Words → Nat → Words)
    (hp : ∀ ws bits, (pad ws bits).length = max ws.length (paddedWords bits)) : Ends s i (padInto s pad) := by
  unfold padInto
  split
  · exact ends_raise s i (by decide)
  · split
    · exact ends_raise s i (by decide)
    · split
      · exact ends_raise s i (by decide)
      · refine ⟨_, _, .pad i _ ?_, rfl⟩
        rw [hp, State.words_length]; omega

theorem ends_hblkOp (s : State) (i : Instr) (v : Variant) (imm : BitVec 16) : Ends s i (hblkOp v imm s) := by
  unfold hblkOp
  split
  · exact ends_raise s i (by decide)
  · exact ⟨_, _, .hash i _, rfl⟩

theorem ends_hinitOp (s : State) (i : Instr) (v : Variant) : Ends s i (hinitOp v s) := ⟨_, _, .hash i _, rfl⟩

theorem ends_houtOp (s : State) (i : Instr) (v : Variant) (d : BufField) : Ends s i (houtOp v d s) :=
  ends_withByteBuf fun _ => ends_deliverBytes ..

theorem ends_digestOp (s : State) (i : Instr) (v : Variant) (a d : BufField) : Ends s i (digestOp v a d s) :=
  ends_withByteBuf fun _ => ends_withByteBuf fun _ => ends_deliverScrubbedBytes ..

theorem ends_hmacOp (s : State) (i : Instr) (mac : Bytes → Bytes → Bytes) (a b d : BufField) :
    Ends s i (hmacOp mac a b d s) :=
  ends_withByteBuf fun _ => ends_withByteBuf fun _ => ends_withByteBuf fun _ => ends_deliverScrubbedBytes ..

theorem ends_execRadix (s : State) (a d : BufField) : Ends s (.radix a d) (execRadix a d s) := by
  refine ends_withByteBuf fun j => ?_
  simp only
  split
  · exact ends_raise s _ (by decide)
  · split
    · split
      · exact ⟨_, _, .emptyText a d _ ‹_›, rfl⟩
      · exact ends_raise s _ (by decide)
    · exact ends_deliverText ..

theorem ends_execLeet (s : State) (a d : BufField) : Ends s (.leet a d) (execLeet a d s) := by
  unfold execLeet
  split
  · exact ends_raise s _ (by decide)
  · exact ends_deliverText ..

theorem ends_execGenonce (s : State) (alg : BitVec 4) (a b d : BufField) :
    Ends s (.genonce alg a b d) (execGenonce alg a b d s) := by
  have hi : (∃ x y z w, Instr.genonce alg a b d = .genonce x y z w) ∨ ∃ x, Instr.genonce alg a b d = .derive x :=
    .inl ⟨_, _, _, _, rfl⟩
  unfold execGenonce
  simp only
  split
  · exact ends_raise s _ (by decide)
  · split
    · split
      · exact ⟨_, _, .engine _ hi _ [] 0 _ (Nat.zero_le _) (.inr ⟨‹_›, .inl rfl⟩), rfl⟩
      · exact ends_raise s _ (by decide)
    · split
      · split
        · exact ⟨_, _, .engine _ hi _ [] 1 _ (Nat.zero_le _) (.inr ⟨‹_›, .inr rfl⟩), rfl⟩
        · exact ends_raise s _ (by decide)
      · rename_i tag _
        generalize generateOnce s.params tag (s.text (textBuf a)) (s.text (textBuf b)) s.leetTiming s.leetLevel
          (s.text alphaBuf) = chunk
        by_cases h : chunk.length ≤ s.params.txtCap
        · rw [State.storeText_some h]; exact ⟨_, _, .engine _ hi _ chunk 1 _ h (.inl rfl), rfl⟩
        · rw [State.storeText_none (by omega)]; exact ends_raise s _ (by decide)

theorem ends_execDerive (s : State) (alg : BitVec 4) : Ends s (.derive alg) (execDerive alg s) := by
  have hi : (∃ x y z w, Instr.derive alg = .genonce x y z w) ∨ ∃ x, Instr.derive alg = .derive x := .inr ⟨_, rfl⟩
  have hl : ∀ tag, (postProcess (s.text 3) (deriveAcc s tag).1 (s.text 4) s.pwlen.toNat).length ≤ s.pwlen.toNat :=
    fun tag => postProcess_length_le ..
  unfold execDerive
  split
  · exact ends_raise s _ (by decide)
  · split
    · split
      · exact ⟨_, _, .engine _ hi _ [] 0 _ (Nat.zero_le _) (.inr ⟨‹_›, .inl rfl⟩), rfl⟩
      · exact ends_raise s _ (by decide)
    · split
      · split
        · exact ends_raise s _ (by decide)
        · split
          · exact ends_raise s _ (by decide)
          · exact ⟨_, _, .engine _ hi outBuf _ _ _ ((hl none).trans (by omega))
              (.inr ⟨by simpa using ‹¬ s.compat = false›, .inr rfl⟩), rfl⟩
      · split
        · exact ends_raise s _ (by decide)
        · exact ⟨_, _, .engine _ hi outBuf _ _ _ ((hl _).trans (by omega)) (.inl rfl), rfl⟩

/-- Every command completes, in one of the shapes of `Effect` (R309). -/
theorem exec_effect (i : Instr) (s : State) : ∃ u st, Effect s i u st ∧ exec i s = .next (u.finish st) := by
  show Ends s i (exec i s)
  cases i with
  | nop => exact ⟨_, _, .nop, rfl⟩
  | wipe => exact ⟨_, _, .wipe, rfl⟩
  | utf8 a d => exact ends_withByteBuf fun _ => ends_deliverBytes ..
  | packle a => exact ends_withByteBuf fun _ => ends_packInto s _ a (.inl rfl) ..
  | packbe a => exact ends_withByteBuf fun _ => ends_packInto s _ a (.inr rfl) ..
  | padle => exact ends_padInto s _ _ padLE_length
  | padbe => exact ends_padInto s _ _ padBE_length
  | hinitMd4 | hinitMd5 | hinitMd5l | hinitSha1 | hinitSha256 | hinitSha256l | hinitRmd160 => exact ends_hinitOp ..
  | hblkMd4 | hblkMd5 | hblkMd5l | hblkSha1 | hblkSha256 | hblkSha256l | hblkRmd160 => exact ends_hblkOp ..
  | houtMd4 | houtMd5 | houtMd5l | houtSha1 | houtSha256 | houtSha256l | houtRmd160 => exact ends_houtOp ..
  | digestMd4 | digestMd5 | digestMd5l | digestSha1 | digestSha256 | digestSha256l | digestRmd160 => exact ends_digestOp ..
  | hmacMd4 | hmacMd5 | hmacMd5l | hmacSha1 | hmacSha256 | hmacSha256l | hmacRmd160 => exact ends_hmacOp ..
  | radix a d => exact ends_execRadix s a d
  | leet a d => exact ends_execLeet s a d
  | genonce alg a b d => exact ends_execGenonce s alg a b d
  | derive alg => exact ends_execDerive s alg

end Sys2Proof.Machine
end

