-- ==== Sys2Proof/Laws/Lower.lean ====
section
/-! SUPPORT. The tables of `Lowering` give every `LOWER` that R256 admits: for each such function and each bound there is a table that
equals it on all texts up to the bound (log 10). A scan whose states remember all it has read is enough. -/

namespace Sys2Proof.Laws

open Sys2Proof.Machine

/-- A number for each text, 0 for the empty one: the scan state that remembers the whole text. -/
def textCode : Text → Nat
  | [] => 0
  | u :: rest => u.toNat + 1 + 65536 * textCode rest

@[simp] theorem textCode_nil : textCode [] = 0 := rfl

theorem textCode_injective : ∀ {s t : Text}, textCode s = textCode t → s = t
  | [], [], _ => rfl
  | [], u :: t, h => by simp only [textCode] at h; omega
  | u :: s, [], h => by simp only [textCode] at h; omega
  | u :: s, v :: t, h => by
    have hu := u.isLt
    have hv := v.isLt
    simp only [textCode] at h
    have e1 : u = v := BitVec.eq_of_toNat_eq (by omega)
    rw [e1, textCode_injective (s := s) (t := t) (by omega)]

/-- All texts of at most `n` code units. -/
def textsUpTo : Nat → List Text
  | 0 => [[]]
  | n + 1 => [] :: (textsUpTo n).flatMap fun s => (List.range (2 ^ 16)).map fun u => BitVec.ofNat 16 u :: s

theorem mem_textsUpTo {s : Text} : ∀ {n : Nat}, s.length ≤ n → s ∈ textsUpTo n := by
  induction s with
  | nil => intro n _; cases n <;> simp [textsUpTo]
  | cons u s ih =>
    intro n h
    obtain ⟨n, rfl⟩ : ∃ m, n = m + 1 := ⟨n - 1, by simp at h; omega⟩
    refine List.mem_cons_of_mem _ (List.mem_flatMap.2 ⟨s, ih (by simpa using h), ?_⟩)
    exact List.mem_map.2 ⟨u.toNat, List.mem_range.2 u.isLt, by simp⟩

/-- The moves of the remembering scan, over texts of at most `n` code units. -/
def rememberMoves (n : Nat) : List LowerMove :=
  (textsUpTo n).flatMap fun
    | [] => []
    | u :: s => [{ state := textCode s, lo := u, hi := u, next := textCode (u :: s) }]

theorem lowerMove_remember {n : Nat} {s : Text} {u : CodeUnit} (h : (u :: s).length ≤ n) :
    lowerMove (rememberMoves n) (textCode s) u = textCode (u :: s) := by
  have hmem : (⟨textCode s, u, u, textCode (u :: s)⟩ : LowerMove) ∈ rememberMoves n :=
    List.mem_flatMap.2 ⟨u :: s, mem_textsUpTo h, by simp⟩
  unfold lowerMove
  split
  · next m hm =>
    obtain ⟨t, -, ht⟩ := List.mem_flatMap.1 (List.mem_of_find?_eq_some hm)
    have hp := List.find?_some hm
    cases t with
    | nil => simp at ht
    | cons v t =>
      obtain rfl : m = _ := by simpa using ht
      simp only [Bool.and_eq_true, beq_iff_eq, decide_eq_true_eq] at hp
      obtain ⟨⟨hs, h1⟩, h2⟩ := hp
      rw [textCode_injective hs, BitVec.le_antisymm h1 h2]
  · next hm =>
    have := List.find?_eq_none.1 hm _ hmem
    simp at this

/-- The rows that give each code unit of each text of at most `n` code units its piece of that text's image: `pieces s` is the
image of `s`, code unit by code unit. -/
def pieceRows (pieces : Text → List Text) (n : Nat) : List LowerRow :=
  (textsUpTo n).flatMap fun front => (textsUpTo n).flatMap fun
    | [] => []
    | u :: back =>
      [{ before := some (textCode front), lo := u, hi := u, after := some (textCode back),
         image := .text ((pieces (front.reverse ++ u :: back)).getD front.length []) }]

/-- The table that gives the pieces of every text of at most `n` code units. -/
def pieceTable (pieces : Text → List Text) (n : Nat) : LowerTable :=
  { forward := rememberMoves n, backward := rememberMoves n, rows := pieceRows pieces n }

/-- `pieces` cuts images as R256 asks: one piece for each code unit, the ASCII ones as (a) and (b) say. -/
def PiecesAdmissible (pieces : Text → List Text) : Prop :=
  ∀ s : Text, (pieces s).length = s.length ∧
    ∀ (i : Nat) (u : CodeUnit), s[i]? = some u → u.toNat < 0x80 → (pieces s)[i]? = some [asciiLower u]

theorem tableUnit_pieceTable {pieces : Text → List Text} (hp : PiecesAdmissible pieces) {n : Nat} {front back : Text}
    {u : CodeUnit} (h : (front.reverse ++ u :: back).length ≤ n) :
    tableUnit (pieceTable pieces n) (textCode front) u (textCode back) =
      (pieces (front.reverse ++ u :: back)).getD front.length [] := by
  have hlen : front.length ≤ n ∧ (u :: back).length ≤ n := by
    simp only [List.length_append, List.length_reverse, List.length_cons] at h ⊢
    omega
  unfold tableUnit
  split
  · next hu =>
    have hget : (front.reverse ++ u :: back)[front.length]? = some u := by
      rw [List.getElem?_append_right (by simp)]
      simp
    simp [List.getD, (hp _).2 _ u hget hu]
  · have hmem : (⟨some (textCode front), u, u, some (textCode back),
        .text ((pieces (front.reverse ++ u :: back)).getD front.length [])⟩ : LowerRow) ∈ (pieceTable pieces n).rows :=
      List.mem_flatMap.2 ⟨front, mem_textsUpTo hlen.1, List.mem_flatMap.2 ⟨u :: back, mem_textsUpTo hlen.2, by simp⟩⟩
    split
    · next row hrow =>
      obtain ⟨front', -, hf⟩ := List.mem_flatMap.1 (List.mem_of_find?_eq_some hrow)
      obtain ⟨back', -, hb⟩ := List.mem_flatMap.1 hf
      have hfit := List.find?_some hrow
      cases back' with
      | nil => simp at hb
      | cons v back' =>
        obtain rfl : row = _ := by simpa using hb
        simp only [lowerRowFits, Option.all_some, Bool.and_eq_true, beq_iff_eq, decide_eq_true_eq] at hfit
        obtain ⟨⟨⟨hs, h1⟩, h2⟩, hr⟩ := hfit
        rw [textCode_injective hs, textCode_injective hr, BitVec.le_antisymm h1 h2]
        rfl
    · next hrow =>
      have := List.find?_eq_none.1 hrow _ hmem
      simp [lowerRowFits] at this

theorem tablePieces_pieceTable {pieces : Text → List Text} (hp : PiecesAdmissible pieces) {n : Nat} (rest : Text) :
    ∀ front : Text, (front.reverse ++ rest).length ≤ n →
      tablePieces (pieceTable pieces n) (textCode front) rest =
        ((pieces (front.reverse ++ rest)).drop front.length, textCode rest) := by
  induction rest with
  | nil =>
    intro front _
    have hl := (hp front.reverse).1
    simp only [tablePieces, List.append_nil, textCode_nil, Prod.mk.injEq, and_true]
    exact (List.drop_eq_nil_of_le (by simp [hl])).symm
  | cons u rest ih =>
    intro front h
    have hcat : (u :: front).reverse ++ rest = front.reverse ++ u :: rest := by simp
    have hsplit : (u :: front).length ≤ n ∧ (u :: rest).length ≤ n := by
      simp only [List.length_append, List.length_reverse, List.length_cons] at h ⊢
      omega
    have hlt : front.length < (pieces (front.reverse ++ u :: rest)).length := by
      rw [(hp _).1]
      simp
    simp only [tablePieces]
    rw [show (pieceTable pieces n).forward = rememberMoves n from rfl,
      show (pieceTable pieces n).backward = rememberMoves n from rfl, lowerMove_remember hsplit.1,
      ih (u :: front) (hcat ▸ h), hcat]
    simp only [tableUnit_pieceTable hp h, lowerMove_remember hsplit.2, List.length_cons, Prod.mk.injEq, and_true]
    rw [List.drop_eq_getElem_cons hlt]
    simp [List.getD, List.getElem?_eq_getElem hlt]

/-- Every `LOWER` that R256 admits is, on the texts up to any length, the function of a table. -/
theorem lower_table_complete (f : Text → Text) (hf : LowerAdmissible f) (n : Nat) :
    ∃ t : LowerTable, ∀ s : Text, s.length ≤ n → lowerText (.table t) s = f s := by
  choose hlen pieces hflat hcount hascii using hf
  have hp : PiecesAdmissible pieces := fun s => ⟨hcount s, hascii s⟩
  refine ⟨pieceTable pieces n, fun s hs => ?_⟩
  have := tablePieces_pieceTable hp s [] (by simpa using hs)
  simp only [textCode_nil, List.reverse_nil, List.nil_append, List.length_nil, List.drop_zero] at this
  simp [lowerText, tableLower, this, ← hflat, hlen]

end Sys2Proof.Laws
end

