-- ==== Sys2Proof/Laws/PerInstr.lean ====
section
/-! SUPPORT. For every instruction: its word lies in its own row of the opcode map (spec/30_encoding.md R84), so that `encode` and the
printed match and mask columns are two accounts of one encoding. -/

namespace Sys2Proof.Laws

/-- The word of a well-formed instruction matches the instruction's row of the opcode map (R84). -/
def RowMatches.Statement (i : Instr) : Prop :=
  i.wellFormed = true → (opcodeMap.getD i.row ⟨0, 0⟩).matched (encode i) = true

/-- An `HBLK` word has its variant in bits 10:0 and the opcode, and any block index (R82, R84). -/
theorem blockWord_matched (hv : BitVec 3) (imm : BitVec 16) :
    (⟨0x00000021 + 0x100#32 * hv.setWidth 32, 0x0000FFFF⟩ : OpcodeRow).matched (blockWord hv imm) = true := by
  have h : blockWord hv imm &&& 0x0000FFFF = blockWord hv 0 := by
    refine BitVec.eq_of_getLsbD_eq fun i hi => ?_
    simp only [blockWord, BitVec.getLsbD_and, BitVec.getLsbD_append]
    interval_cases i <;> simp
  rw [OpcodeRow.matched, h]
  clear h
  revert hv
  decide

/-- A `GENONCE` word has its tag and three text indices in the bits its mask leaves free (R82, R84). -/
theorem genonceWord_matched (alg : BitVec 4) (a b d : BufField) :
    (⟨0x00000050, 0xF8880FFF⟩ : OpcodeRow).matched (commandWord 0x50 0 alg a b d) = true := by
  have h : commandWord 0x50 0 alg a b d &&& 0xF8880FFF = 0x00000050 := by
    refine BitVec.eq_of_getLsbD_eq fun i hi => ?_
    simp only [commandWord, BitVec.getLsbD_and, BitVec.getLsbD_append]
    interval_cases i <;> simp
  rw [OpcodeRow.matched, h]
  rfl

theorem RowMatches.nop : RowMatches.Statement .nop := fun _ => by decide
theorem RowMatches.wipe : RowMatches.Statement .wipe := fun _ => by decide
theorem RowMatches.utf8 (a d : BufField) : RowMatches.Statement (.utf8 a d) := by
  unfold RowMatches.Statement; revert a d; decide +kernel
theorem RowMatches.packle (a : BufField) : RowMatches.Statement (.packle a) := by
  unfold RowMatches.Statement; revert a; decide +kernel
theorem RowMatches.packbe (a : BufField) : RowMatches.Statement (.packbe a) := by
  unfold RowMatches.Statement; revert a; decide +kernel
theorem RowMatches.padle : RowMatches.Statement .padle := fun _ => by decide
theorem RowMatches.padbe : RowMatches.Statement .padbe := fun _ => by decide
theorem RowMatches.hinitMd4 : RowMatches.Statement .hinitMd4 := fun _ => by decide
theorem RowMatches.hinitMd5 : RowMatches.Statement .hinitMd5 := fun _ => by decide
theorem RowMatches.hinitMd5l : RowMatches.Statement .hinitMd5l := fun _ => by decide
theorem RowMatches.hinitSha1 : RowMatches.Statement .hinitSha1 := fun _ => by decide
theorem RowMatches.hinitSha256 : RowMatches.Statement .hinitSha256 := fun _ => by decide
theorem RowMatches.hinitSha256l : RowMatches.Statement .hinitSha256l := fun _ => by decide
theorem RowMatches.hinitRmd160 : RowMatches.Statement .hinitRmd160 := fun _ => by decide
theorem RowMatches.hblkMd4 (imm : BitVec 16) : RowMatches.Statement (.hblkMd4 imm) :=
  fun _ => blockWord_matched 0 imm
theorem RowMatches.hblkMd5 (imm : BitVec 16) : RowMatches.Statement (.hblkMd5 imm) :=
  fun _ => blockWord_matched 1 imm
theorem RowMatches.hblkMd5l (imm : BitVec 16) : RowMatches.Statement (.hblkMd5l imm) :=
  fun _ => blockWord_matched 2 imm
theorem RowMatches.hblkSha1 (imm : BitVec 16) : RowMatches.Statement (.hblkSha1 imm) :=
  fun _ => blockWord_matched 3 imm
theorem RowMatches.hblkSha256 (imm : BitVec 16) : RowMatches.Statement (.hblkSha256 imm) :=
  fun _ => blockWord_matched 4 imm
theorem RowMatches.hblkSha256l (imm : BitVec 16) : RowMatches.Statement (.hblkSha256l imm) :=
  fun _ => blockWord_matched 5 imm
theorem RowMatches.hblkRmd160 (imm : BitVec 16) : RowMatches.Statement (.hblkRmd160 imm) :=
  fun _ => blockWord_matched 6 imm
theorem RowMatches.houtMd4 (d : BufField) : RowMatches.Statement (.houtMd4 d) := by
  unfold RowMatches.Statement; revert d; decide +kernel
theorem RowMatches.houtMd5 (d : BufField) : RowMatches.Statement (.houtMd5 d) := by
  unfold RowMatches.Statement; revert d; decide +kernel
theorem RowMatches.houtMd5l (d : BufField) : RowMatches.Statement (.houtMd5l d) := by
  unfold RowMatches.Statement; revert d; decide +kernel
theorem RowMatches.houtSha1 (d : BufField) : RowMatches.Statement (.houtSha1 d) := by
  unfold RowMatches.Statement; revert d; decide +kernel
theorem RowMatches.houtSha256 (d : BufField) : RowMatches.Statement (.houtSha256 d) := by
  unfold RowMatches.Statement; revert d; decide +kernel
theorem RowMatches.houtSha256l (d : BufField) : RowMatches.Statement (.houtSha256l d) := by
  unfold RowMatches.Statement; revert d; decide +kernel
theorem RowMatches.houtRmd160 (d : BufField) : RowMatches.Statement (.houtRmd160 d) := by
  unfold RowMatches.Statement; revert d; decide +kernel
theorem RowMatches.digestMd4 (a d : BufField) : RowMatches.Statement (.digestMd4 a d) := by
  unfold RowMatches.Statement; revert a d; decide +kernel
theorem RowMatches.digestMd5 (a d : BufField) : RowMatches.Statement (.digestMd5 a d) := by
  unfold RowMatches.Statement; revert a d; decide +kernel
theorem RowMatches.digestMd5l (a d : BufField) : RowMatches.Statement (.digestMd5l a d) := by
  unfold RowMatches.Statement; revert a d; decide +kernel
theorem RowMatches.digestSha1 (a d : BufField) : RowMatches.Statement (.digestSha1 a d) := by
  unfold RowMatches.Statement; revert a d; decide +kernel
theorem RowMatches.digestSha256 (a d : BufField) : RowMatches.Statement (.digestSha256 a d) := by
  unfold RowMatches.Statement; revert a d; decide +kernel
theorem RowMatches.digestSha256l (a d : BufField) : RowMatches.Statement (.digestSha256l a d) := by
  unfold RowMatches.Statement; revert a d; decide +kernel
theorem RowMatches.digestRmd160 (a d : BufField) : RowMatches.Statement (.digestRmd160 a d) := by
  unfold RowMatches.Statement; revert a d; decide +kernel
theorem RowMatches.hmacMd4 (a b d : BufField) : RowMatches.Statement (.hmacMd4 a b d) := by
  unfold RowMatches.Statement; revert a b d; decide +kernel
theorem RowMatches.hmacMd5 (a b d : BufField) : RowMatches.Statement (.hmacMd5 a b d) := by
  unfold RowMatches.Statement; revert a b d; decide +kernel
theorem RowMatches.hmacMd5l (a b d : BufField) : RowMatches.Statement (.hmacMd5l a b d) := by
  unfold RowMatches.Statement; revert a b d; decide +kernel
theorem RowMatches.hmacSha1 (a b d : BufField) : RowMatches.Statement (.hmacSha1 a b d) := by
  unfold RowMatches.Statement; revert a b d; decide +kernel
theorem RowMatches.hmacSha256 (a b d : BufField) : RowMatches.Statement (.hmacSha256 a b d) := by
  unfold RowMatches.Statement; revert a b d; decide +kernel
theorem RowMatches.hmacSha256l (a b d : BufField) : RowMatches.Statement (.hmacSha256l a b d) := by
  unfold RowMatches.Statement; revert a b d; decide +kernel
theorem RowMatches.hmacRmd160 (a b d : BufField) : RowMatches.Statement (.hmacRmd160 a b d) := by
  unfold RowMatches.Statement; revert a b d; decide +kernel
theorem RowMatches.radix (a d : BufField) : RowMatches.Statement (.radix a d) := by
  unfold RowMatches.Statement; revert a d; decide +kernel
theorem RowMatches.leet (a d : BufField) : RowMatches.Statement (.leet a d) := by
  unfold RowMatches.Statement; revert a d; decide +kernel
theorem RowMatches.genonce (alg : BitVec 4) (a b d : BufField) : RowMatches.Statement (.genonce alg a b d) :=
  fun _ => genonceWord_matched alg a b d
theorem RowMatches.derive (alg : BitVec 4) : RowMatches.Statement (.derive alg) := by
  unfold RowMatches.Statement; revert alg; decide +kernel

end Sys2Proof.Laws
end

