-- ==== Sys2Proof/Tests/Slice0.lean ====
section
/-! SUPPORT. Tests with expected values from spec/ (the examples of the rules and spec/95_test_vectors.md), and for every statement
with hypotheses a witness that meets them. -/

set_option Elab.async false

namespace Sys2Proof.Tests

open Sys2Proof.Machine

/-! ### Small states -/

/-- A default instance, idle, every cell 0. -/
def blank : State := State.reset.wiped

/-- Bytes from numbers. -/
def hex (l : List Nat) : Bytes := l.map fun n => BitVec.ofNat 8 n

/-- The bytes of an ASCII string. -/
def ascii (s : String) : Bytes := s.toList.map fun c => BitVec.ofNat 8 c.toNat

/-- `s` with `TXT[k]` loaded. -/
def withText (s : State) (k : Fin 8) (t : String) : State := s.setText k (asciiText t)

/-- The state after a command, `s` itself where it stops. -/
def after (i : Instr) (s : State) : State :=
  match exec i s with
  | .next t => t
  | .fault _ | .refused _ => s

/-- Every command answers the next state that `after` names. -/
theorem exec_after (i : Instr) (s : State) : exec i s = .next (after i s) := by
  obtain ⟨u, st, -, h⟩ := exec_effect i s
  simp [after, h]

/-- The next state of a step, `none` where it stops. -/
def stepped (s : State) : Option State :=
  match step s with
  | .next t => some t
  | .fault _ | .refused _ => none

/-- `step` answers the next state that `stepped` finds. -/
theorem step_of_stepped {s t : State} (h : stepped s = some t) : step s = .next t := by
  unfold stepped at h
  split at h <;> simp_all

/-- The datum a host read of `off` returns. -/
def readBack (s : State) (off : Word) : Option Word :=
  (stepped { s with inputs := [.read off] }).bind State.reply

/-- `s` after a host write. -/
def written (s : State) (off v : Word) : State := (stepped { s with inputs := [.write off v] }).getD s

/-- What the decoder reads, `none` where the word is illegal. -/
def decoded (w : Word) : Option Instr := decodeTableWord 32 w.toNat

/-- PM's scenario of spec/48_derive.md R287: the alphabet of 36 symbols, the key "secret", the site "example.com", counter "0". -/
def scenario (len : Word) (pre suf : String) : State :=
  { withText (withText (withText (withText (withText (withText blank 5 "abcdefghijklmnopqrstuvwxyz0123456789") 1 "secret") 0
      "example.com") 6 "0") 3 pre) 4 suf with pwlen := len }

/-! ### WellFormed refuses what no word can hold (spec/30_encoding.md R82, R87) -/

theorem test_wf_utf8 : Instr.wellFormed (.utf8 7 3) = true ∧ Instr.wellFormed (.utf8 0 4) = false := by decide
theorem test_wf_packle : Instr.wellFormed (.packle 3) = true ∧ Instr.wellFormed (.packle 4) = false := by decide
theorem test_wf_packbe : Instr.wellFormed (.packbe 3) = true ∧ Instr.wellFormed (.packbe 7) = false := by decide
theorem test_wf_hout : ∀ v, Instr.wellFormed (.hout v 3) = true ∧ Instr.wellFormed (.hout v 4) = false := by
  intro v; cases v <;> decide
theorem test_wf_digest : ∀ v, Instr.wellFormed (.digest v 3 3) = true ∧ Instr.wellFormed (.digest v 4 0) = false ∧
    Instr.wellFormed (.digest v 0 5) = false := by
  intro v; cases v <;> decide
theorem test_wf_hmac : ∀ v, Instr.wellFormed (.hmac v 3 3 3) = true ∧ Instr.wellFormed (.hmac v 4 0 0) = false ∧
    Instr.wellFormed (.hmac v 0 6 0) = false ∧ Instr.wellFormed (.hmac v 0 0 7) = false := by
  intro v; cases v <;> decide
theorem test_wf_radix : Instr.wellFormed (.radix 3 7) = true ∧ Instr.wellFormed (.radix 4 0) = false := by decide

/-! ### Decoding: words of spec/95_test_vectors.md 8.1 and of the rules' examples -/

theorem test_decode_system : decoded 0x00000000 = some .nop ∧ decoded 0x00000001 = some .wipe := by decide
theorem test_decode_codecs :
    decoded 0x03070010 = some (.utf8 7 3) ∧ decoded 0x00010010 = some (.utf8 1 0) ∧ decoded 0x00030011 = some (.packle 3) ∧
    decoded 0x00000012 = some (.packbe 0) ∧ decoded 0x00000013 = some .padle ∧ decoded 0x00000014 = some .padbe := by
  decide
theorem test_decode_hinit :
    [0x00000020, 0x00000120, 0x00000220, 0x00000320, 0x00000420, 0x00000520, 0x00000620].map decoded =
      [some .hinitMd4, some .hinitMd5, some .hinitMd5l, some .hinitSha1, some .hinitSha256, some .hinitSha256l,
       some .hinitRmd160] := by decide
theorem test_decode_hblk :
    [0x00000021, 0xffff0121, 0x00010221, 0x00000321, 0x00400421, 0x00000521, 0x00000621].map decoded =
      [some (.hblkMd4 0), some (.hblkMd5 65535), some (.hblkMd5l 1), some (.hblkSha1 0), some (.hblkSha256 64),
       some (.hblkSha256l 0), some (.hblkRmd160 0)] := by decide
theorem test_decode_hout :
    [0x00000022, 0x01000122, 0x02000222, 0x01000322, 0x00000422, 0x03000522, 0x00000622].map decoded =
      [some (.houtMd4 0), some (.houtMd5 1), some (.houtMd5l 2), some (.houtSha1 1), some (.houtSha256 0),
       some (.houtSha256l 3), some (.houtRmd160 0)] := by decide
theorem test_decode_digest :
    [0x00010030, 0x01000130, 0x03020230, 0x01000330, 0x03000430, 0x00030530, 0x01020630].map decoded =
      [some (.digestMd4 1 0), some (.digestMd5 0 1), some (.digestMd5l 2 3), some (.digestSha1 0 1),
       some (.digestSha256 0 3), some (.digestSha256l 3 0), some (.digestRmd160 2 1)] := by decide
theorem test_decode_hmac :
    [0x02100031, 0x02100131, 0x03120231, 0x02100331, 0x02100431, 0x02100531, 0x01320631].map decoded =
      [some (.hmacMd4 0 1 2), some (.hmacMd5 0 1 2), some (.hmacMd5l 2 1 3), some (.hmacSha1 0 1 2),
       some (.hmacSha256 0 1 2), some (.hmacSha256l 0 1 2), some (.hmacRmd160 2 3 1)] := by decide
theorem test_decode_engine :
    decoded 0x07030040 = some (.radix 3 7) ∧ decoded 0x07070041 = some (.leet 7 7) ∧
    decoded 0x07017050 = some (.genonce 7 1 0 7) ∧ decoded 0x0777c050 = some (.genonce 12 7 7 7) ∧
    decoded 0x0777d050 = some (.genonce 13 7 7 7) ∧ decoded 0x0000c051 = some (.derive 12) ∧
    decoded 0x0000f051 = some (.derive 15) := by decide
theorem test_decode_refuses :
    [0x00000002, 0x00000100, 0x00010000, 0x07030010, 0x04000010, 0x00080010, 0x00000810, 0x00001010, 0x00100010,
     0x08000010, 0x00040011, 0x01000011, 0x00000113, 0x00000720, 0x00010020, 0x00001121, 0x03010522, 0x03420231,
     0x03100230, 0x07040040, 0x07017150, 0x00010051, 0x00000052, 0xffffffff].all (fun w => (decoded w).isNone) = true := by
  decide

/-! ### Commands -/

theorem test_nop_clears_status :
    exec .nop { blank with status := 0x16, rnd := 3 } = .next { blank with status := 0x02, rnd := 3 } := rfl

/-- spec/48_derive.md R291: the cells that held "secret" read 0, `CTRL` as it was. -/
theorem test_wipe :
    let t := after .wipe { scenario 8 "" "" with ctrl := 0x3 }
    (List.range 6).map (t.cellRead (.txt 1)) = [0, 0, 0, 0, 0, 0] ∧ t.tlen[0] = 0 ∧ t.pwlen = 0 ∧ t.ctrl = 0x3 ∧
      t.status = 0x02 := by
  decide +kernel

/-- spec/40_codecs.md R100. -/
theorem test_utf8_example :
    let t := after (.utf8 1 0) (blank.setText 1 [0x0041, 0x00E9, 0x20AC])
    t.bytes 0 = hex [0x41, 0xC3, 0xA9, 0xE2, 0x82, 0xAC] ∧ t.blen[0] = 6 := by
  decide +kernel

/-- spec/40_codecs.md R101: the first unit stands alone, the second and third pair. -/
theorem test_utf8_surrogates :
    toUtf8Bytes [0xD83D, 0xD83D, 0xDE00] = hex [0xed, 0xa0, 0xbd, 0xf0, 0x9f, 0x98, 0x80] := by
  decide +kernel

/-- spec/40_codecs.md R104, R109. -/
theorem test_packle_padle :
    let t := after (.packle 0) (blank.setBytes 0 (ascii "abc"))
    let u := after .padle t
    t.words = [0x00636261] ∧ t.bitlen = 24 ∧ u.words = [0x80636261] ++ List.replicate 13 0 ++ [0x18, 0] := by
  decide +kernel

/-- spec/40_codecs.md R105, R110. -/
theorem test_packbe_padbe :
    let t := after (.packbe 0) (blank.setBytes 0 (ascii "abc"))
    let u := after .padbe t
    t.words = [0x61626300] ∧ t.bitlen = 24 ∧ u.words = [0x61626380] ++ List.replicate 14 0 ++ [0x18] := by
  decide +kernel

/-- spec/45_digest_hmac.md R222: the padder keeps the words beyond the stated length. -/
theorem test_padbe_keeps_words :
    (padBE (List.replicate 24 0x01020304) 672).drop 16 =
      List.replicate 5 0x01020304 ++ [0x81020304, 0x01020304, 0x01020304] ++ List.replicate 7 0 ++ [0x2a0] := by
  decide +kernel

/-- spec/40_codecs.md R109: the three checks in their order. -/
theorem test_padle_errors :
    (after .padle { blank with bitlen := 12 }).status = 0x56 ∧
    (after .padle { blank with bitlen := 0x00010000 }).status = 0x66 ∧
    (after .padle { blank with bitlen := 8, wlen := 17 }).status = 0x56 := by
  decide +kernel

/-- The state that `HINIT.v` and a padded one-block message leave. -/
def oneBlock (init : Instr) (ws : List (Nat × Word)) : State :=
  after init { blank with mem := { blank.mem with wbuf := { base := .zero, map := ws } }, wlen := 16 }

/-- spec/41_md4_md5.md R131. -/
theorem test_hinit_md4 : (after .hinitMd4 { blank with h := Vector.replicate 8 0xffffffff }).h =
    #v[0x67452301, 0xefcdab89, 0x98badcfe, 0x10325476, 0, 0, 0, 0] := by decide +kernel

/-- spec/44_ripemd160.md R196 and spec/42_sha1.md R161. -/
theorem test_hinit_sha1_rmd160 : (after .hinitSha1 blank).h[4] = 0xc3d2e1f0 ∧ (after .hinitRmd160 blank).h[4] = 0xc3d2e1f0 := by
  decide +kernel

/-- spec/41_md4_md5.md R133. -/
theorem test_hblk_md4 : (after (.hblkMd4 0) (oneBlock .hinitMd4 [(0, 0x80636261), (14, 0x18)])).h.toList.take 4 =
    [0x7a0148a4, 0x52d821af, 0xe80ac15f, 0x9d72a67a] := by decide +kernel

/-- spec/41_md4_md5.md R143, R144. -/
theorem test_hblk_md5 : (after (.hblkMd5 0) (oneBlock .hinitMd5 [(0, 0x80636261), (14, 0x18)])).h.toList.take 4 =
    [0x98500190, 0xb04fd23c, 0x7d3f96d6, 0x727fe128] := by decide +kernel
theorem test_hblk_md5l : (after (.hblkMd5l 0) (oneBlock .hinitMd5l [(0, 0x80)])).h.toList.take 4 =
    [0xd98c1dd4, 0x04b2008f, 0x980980e9, 0x7e42f8ec] := by decide +kernel

/-- spec/42_sha1.md R163. -/
theorem test_hblk_sha1 : (after (.hblkSha1 0) (oneBlock .hinitSha1 [(0, 0x61626380), (15, 0x18)])).h.toList.take 5 =
    [0xa9993e36, 0x4706816a, 0xba3e2571, 0x7850c26c, 0x9cd0d89d] := by decide +kernel

/-- spec/43_sha256.md R179, R180. -/
theorem test_hblk_sha256 : (after (.hblkSha256 0) (oneBlock .hinitSha256 [(0, 0x61626380), (15, 0x18)])).h.toList =
    [0xba7816bf, 0x8f01cfea, 0x414140de, 0x5dae2223, 0xb00361a3, 0x96177a9c, 0xb410ff61, 0xf20015ad] := by decide +kernel
theorem test_hblk_sha256l : (after (.hblkSha256l 0) (oneBlock .hinitSha256l [(0, 0x61626380), (15, 0x18)])).h[7] =
    0xf20015ad := by decide +kernel

/-- spec/44_ripemd160.md R198. -/
theorem test_hblk_rmd160 : (after (.hblkRmd160 0) (oneBlock .hinitRmd160 [(0, 0x80)])).h.toList.take 5 =
    [0xa585119c, 0x54fce9c5, 0x97082861, 0x48f5e87e, 0x318d25b2] := by decide +kernel

/-- spec/41_md4_md5.md R130: block 65535 is outside the content. -/
theorem test_hblk_outside : (after (.hblkMd5 0xffff) (oneBlock .hinitMd5 [])).status = 0x56 := by decide +kernel

/-- spec/40_codecs.md R112. -/
theorem test_hout_order :
    let s := { blank with h := #v[0x98500190, 0xb04fd23c, 0x7d3f96d6, 0x727fe128, 0, 0, 0, 0] }
    (after (.houtMd5 1) s).bytes 1 = hex [0x90, 0x01, 0x50, 0x98, 0x3c, 0xd2, 0x4f, 0xb0, 0xd6, 0x96, 0x3f, 0x7d, 0x28, 0xe1,
      0x7f, 0x72] ∧
    ((after (.houtSha1 1) s).bytes 1).take 5 = hex [0x98, 0x50, 0x01, 0x90, 0xb0] ∧ (after (.houtSha1 1) s).blen[1] = 20 := by
  decide +kernel

/-! PM's known answers (spec/45_digest_hmac.md R216, R217). -/

theorem test_digest_md4_empty : digest .md4 [] = hex [0x31, 0xd6, 0xcf, 0xe0, 0xd1, 0x6a, 0xe9, 0x31, 0xb7, 0x3c, 0x59,
    0xd7, 0xe0, 0xc0, 0x89, 0xc0] := by decide +kernel
theorem test_digest_md5_empty : digest .md5 [] = hex [0xd4, 0x1d, 0x8c, 0xd9, 0x8f, 0x00, 0xb2, 0x04, 0xe9, 0x80, 0x09,
    0x98, 0xec, 0xf8, 0x42, 0x7e] := by decide +kernel
theorem test_digest_sha1_abc :
    let t := after (.digestSha1 0 1) (blank.setBytes 0 (ascii "abc"))
    t.bytes 1 = hex [0xa9, 0x99, 0x3e, 0x36, 0x47, 0x06, 0x81, 0x6a, 0xba, 0x3e, 0x25, 0x71, 0x78, 0x50, 0xc2, 0x6c, 0x9c,
      0xd0, 0xd8, 0x9d] ∧ t.blen[1] = 20 ∧ t.h = Vector.replicate 8 0 := by decide +kernel
theorem test_digest_sha256_abc : digest .sha256 (ascii "abc") = hex [0xba, 0x78, 0x16, 0xbf, 0x8f, 0x01, 0xcf, 0xea, 0x41,
    0x41, 0x40, 0xde, 0x5d, 0xae, 0x22, 0x23, 0xb0, 0x03, 0x61, 0xa3, 0x96, 0x17, 0x7a, 0x9c, 0xb4, 0x10, 0xff, 0x61, 0xf2,
    0x00, 0x15, 0xad] := by decide +kernel
theorem test_digest_rmd160_empty : digest .rmd160 [] = hex [0x9c, 0x11, 0x85, 0xa5, 0xc5, 0xe9, 0xfc, 0x54, 0x61, 0x28,
    0x08, 0x97, 0x7e, 0xe8, 0xf5, 0x48, 0xb2, 0x25, 0x8d, 0x31] := by decide +kernel

/-- The operands of spec/45_digest_hmac.md R221, R222: "Jefe" and its data. -/
def jefe : State := (blank.setBytes 0 (ascii "Jefe")).setBytes 1 (ascii "what do ya want for nothing?")

theorem test_hmac_md5 : (after (.hmacMd5 0 1 2) jefe).bytes 2 = hex [0x75, 0x0c, 0x78, 0x3e, 0x6a, 0xb0, 0xb5, 0x03, 0xea,
    0xa8, 0x6e, 0x31, 0x0a, 0x5d, 0xb7, 0x38] := by decide +kernel
theorem test_hmac_sha256l : ((after (.hmacSha256l 0 1 2) jefe).bytes 2).take 8 =
    hex [0xef, 0x13, 0xc0, 0xc8, 0x26, 0xaa, 0x0b, 0x39] := by decide +kernel
theorem test_hmac_sha256 : ((after (.hmacSha256 0 1 2) jefe).bytes 2).take 8 =
    hex [0x5b, 0xdc, 0xc1, 0x46, 0xbf, 0x60, 0x75, 0x4e] := by decide +kernel

/-- spec/46_radix.md R241. -/
theorem test_radix_example :
    let t := after (.radix 0 7) ((withText blank 5 "0123456789").setBytes 0 (hex [0x12, 0x34, 0x56, 0x78]))
    t.text 7 = asciiText "305419896" ∧ t.tlen[7] = 9 := by decide +kernel
theorem test_radix_errors :
    (after (.radix 0 7) (blank.setBytes 0 [1])).status = 0x56 ∧ (after (.radix 0 7) blank).status = 0x16 ∧
    (after (.radix 0 7) { blank with ctrl := 1 }).status = 0x1a := by decide +kernel

/-- spec/47_leet.md R259. -/
theorem test_leet_examples :
    (after (.leet 0 7) (withText blank 0 "Leet Speak 42!")).text 7 = asciiText "1337 sp34k 42!" ∧
    (after (.leet 0 7) { withText blank 0 "Secret" with leetctl := 0xFF00 }).text 7 = asciiText "Secret" ∧
    (after (.leet 0 7) { withText blank 0 "bake" with leetctl := 0x0400 }).text 7 = asciiText "|3@|<3" ∧
    (after (.leet 0 7) { withText blank 0 "mall" with leetctl := 0x0800 }).text 7 = asciiText "/\\/\\@|_|_" := by
  decide +kernel
/-- A `LOWER` of an instance's own, as a table: the three images of spec/47_leet.md R256, a capital sigma that becomes U+03C2
after a letter (0x03B1 to 0x03C9, either case) and before none, a deleted soft hyphen, and an image of three units. -/
def ownLower : Lowering :=
  .table
    { forward := [⟨0, 0x0391, 0x03C9, 1⟩, ⟨1, 0x0391, 0x03C9, 1⟩]
      backward := [⟨0, 0x0391, 0x03C9, 1⟩, ⟨1, 0x0391, 0x03C9, 1⟩]
      rows := [⟨none, 0x00C0, 0x00D6, none, .shift 0x20⟩, ⟨none, 0x0130, 0x0130, none, .text [0x69, 0x0307]⟩,
               ⟨none, 0x212A, 0x212A, none, .text [0x6B]⟩, ⟨some 1, 0x03A3, 0x03A3, some 0, .text [0x03C2]⟩,
               ⟨none, 0x0391, 0x03A9, none, .shift 0x20⟩, ⟨none, 0x00AD, 0x00AD, none, .text []⟩,
               ⟨none, 0x1F86, 0x1F86, none, .text [0x03B1, 0x0313, 0x0345]⟩] }

/-- spec/47_leet.md R256, and vector 6.18 of spec/95_test_vectors.md under full lowercasing. -/
theorem test_lower_unicode :
    lowerText ownLower [0x00C4] = [0x00E4] ∧ lowerText ownLower [0x212A] = asciiText "k" ∧
    lowerText ownLower [0x0130] = [0x69, 0x0307] ∧
    leetText { defaultParams with lower := ownLower } 0 [0x00C9, 0x54, 0x00E9, 0x0130, 0x212A, 0xD83D, 0xDE00, 0x41] =
      [0x00E9, 0x37, 0x00E9, 0x69, 0x0307, 0x6B, 0xD83D, 0xDE00, 0x34] := by decide +kernel

/-- spec/47_leet.md R256: a `LOWER` may look at the whole text, delete a unit, or put three in place of one where the whole
at most doubles (c); the default stands in on a text where it would not. -/
theorem test_lower_range :
    lowerText ownLower [0x03A3, 0x03A3, 0x41, 0x03A3] = [0x03C3, 0x03C2, 0x61, 0x03C3] ∧
    lowerText ownLower [0x41, 0x00AD, 0x42] = asciiText "ab" ∧
    lowerText ownLower [0x1F86, 0x41] = [0x03B1, 0x0313, 0x0345, 0x61] ∧
    lowerText ownLower [0x1F86] = [0x1F86] := by decide +kernel

/-- The default `LOWER` makes no text empty, as one premise of GenonceCompletes and DeriveCompletes asks. -/
theorem test_lower_ascii_keeps_text : ∀ x : Text, x ≠ [] → lowerText .ascii x ≠ [] := by
  simp [lowerText, asciiLowerText]

theorem test_leet_level_nine :
    (after (.leet 0 7) { withText blank 0 "mall" with leetctl := 0x0900 }).status = 0x56 := by decide +kernel

/-- spec/48_derive.md R271: `GENONCE md5` and `GENONCE hmac-md5`. -/
def site : State :=
  withText (withText (withText blank 5 "abcdefghijklmnopqrstuvwxyz0123456789") 1 "secret") 0 "example.com0"
theorem test_genonce_md5 :
    let t := after (.genonce 7 1 0 7) site
    t.text 7 = asciiText "hfvb1kr1f1rv7l2l3bnh6otay" ∧ t.rnd = 1 := by decide +kernel
theorem test_genonce_hmac_md5 :
    (after (.genonce 9 1 0 7) site).text 7 = asciiText "ndv6pew4mm1n0rirwt41q03ca" := by decide +kernel

/-- spec/48_derive.md R287. -/
theorem test_derive_two_rounds :
    let t := after (.derive 7) (scenario 30 "" "")
    t.text 7 = asciiText "hfvb1kr1f1rv7l2l3bnh6otayezotq" ∧ t.rnd = 2 := by decide +kernel
theorem test_derive_affixes :
    (after (.derive 7) (scenario 12 "P-" "!9")).text 7 = asciiText "P-hfvb1kr1!9" ∧
    (after (.derive 7) (scenario 3 "abcd" "yz")).text 7 = asciiText "ayz" := by decide +kernel

/-- A `LOWER` that deletes every unit from 0x80 up (R256 admits it) makes the chunk of two such symbols empty, and R283 leaves the
loop after one round (log 10). -/
theorem test_derive_empty_chunk :
    let deleting : Lowering := .table { forward := [], backward := [], rows := [⟨none, 0x80, 0xFFFF, none, .text []⟩] }
    let s := (scenario 12 "P-" "!9").setText 5 [0x00E0, 0x00E1]
    let t := after (.derive 7) { s with params := { s.params with lower := deleting }, leetctl := 0x00000002 }
    t.text 7 = asciiText "P-!9" ∧ t.rnd = 1 ∧ t.status = 0x02 := by decide +kernel

/-! ### The bus: spec/95_test_vectors.md 8.3 -/

theorem test_bus_registers :
    readBack blank 0x000 = some 0x504D4307 ∧ readBack blank 0x080 = some 0x10000400 ∧
    readBack (written blank 0x004 0xffffffff) 0x004 = some 0x3 ∧
    readBack (written blank 0x014 0x00000904) 0x014 = some 0x900 ∧
    readBack (written blank 0x01c 5) 0x01c = some 0 ∧
    readBack (written (written blank 0x060 1024) 0x060 1025) 0x060 = some 1024 ∧
    readBack (written blank 0x040 1041) 0x040 = some 0 := by decide +kernel
theorem test_bus_cells :
    readBack (written blank 0x100000 0x12345678) 0x100000 = some 0x5678 ∧
    readBack (written blank 0x1e0ffc 0x41) 0x1e0ffc = some 0x41 ∧
    readBack (written blank 0x1e1000 0x41) 0x1e1000 = some 0 ∧
    readBack (written blank 0x260000 0xab) 0x260000 = some 0xab ∧ readBack blank 0x280000 = some 0 ∧
    readBack (written blank 0x300000 0x12345678) 0x300000 = some 0x12345678 ∧
    readBack (written blank 0x03c 0xdeadbeef) 0x03c = some 0xdeadbeef := by decide +kernel

/-- The command of a word that is placed is the command that the next step runs (spec/60_exceptions.md R309). -/
theorem test_withFetchWord :
    (stepped (State.reset.withFetchWord 32 0x00000420)).map (fun t => (t.h[0], t.status)) = some (0x6a09e667, 0x02) ∧
    (stepped (State.reset.withFetchWord 32 0x00000002)).map State.status = some 0x46 := by decide +kernel

/-! ### Witnesses: for each statement with hypotheses, states and operands that meet them, at the boundaries of each clause -/

/-- An instance with the smallest buffers R5 allows. -/
def small : State := { blank with params := { defaultParams with txtCap := 256, bytCap := 128 } }

/-- `blank` with one host transaction to come. -/
def asked (e : HostEvent) : State := { blank with inputs := [e] }

theorem blank_fits : blank.Fits := by
  refine ⟨by decide +kernel, by decide +kernel, ?_, ?_⟩ <;> intro k <;> fin_cases k <;> decide +kernel

theorem blank_inv : blank.Inv :=
  have hm := State.wiped_sound State.reset 1
  ⟨blank_fits, by decide, by decide, by decide, hm.wbuf, hm.byt, hm.txt, fun _ => rfl⟩

theorem test_witness_DecodeOfEncode :
    Instr.wellFormed (.hmacSha256l 3 0 3) = true ∧ Instr.wellFormed (.genonce 15 7 7 7) = true ∧
      Instr.wellFormed (.hblkMd4 0xffff) = true := by decide

theorem test_witness_EncodeOfDecode : decode 0x0777d050 = .ok (.genonce 13 7 7 7) := rfl

theorem test_witness_DecodeFollowsOpcodeMap :
    decode 0x00000000 = .ok .nop ∧ (opcodeMap.getD 0 ⟨0, 0⟩).matched 0x00000000 = true ∧
      (opcodeMap.getD 45 ⟨0, 0⟩).matched 0x0000F051 = true := ⟨rfl, by decide, by decide⟩

theorem test_witness_IllegalWordRaisesIllegalCommand :
    (∀ r ∈ opcodeMap, r.matched 0x00000002 = false) ∧ (∀ r ∈ opcodeMap, r.matched 0xffffffff = false) ∧
      (∀ r ∈ opcodeMap, r.matched 0x00040011 = false) ∧ blank.inputs = [] := by decide

theorem test_witness_StepRunsDecodedInstruction :
    (blank.accept 0x00030011).busy = true ∧ decode (blank.accept 0x00030011).cmd = .ok (.packle 3) ∧
      (blank.accept 0x00030011).inputs = [] ∧ ((asked .idle).accept 0x00030011).inputs = .idle :: [] ∧
      blank.busy = false ∧ (asked .idle).inputs = .idle :: [] := ⟨rfl, rfl, rfl, rfl, rfl, rfl⟩

theorem test_witness_CommandLife :
    blank.busy = false ∧ Instr.wellFormed (.hmacMd5 3 3 3) = true ∧
      ({ blank with inputs := [.write 0x00C (encode (.hmacMd5 3 3 3)), .idle] } : State).inputs =
        .write 0x00C (encode (.hmacMd5 3 3 3)) :: .idle :: [] := by decide

/-- Offsets 0x008, 0x000, 0x3FFFFC while a command runs; 0x400000 and 0xFFFFFFFF outside; 0x001 and 0x3FFFFF misaligned. -/
theorem test_witness_AccessesOutsideTheContract :
    let s (e : HostEvent) := (asked e).accept 0
    (s (.read 0x008)).busy = true ∧ (s (.read 0x008)).inputs = .read 0x008 :: [] ∧
    (s (.read 0x3FFFFC)).inputs = .read 0x3FFFFC :: [] ∧ (0x3FFFFC : Word).toNat < 0x400000 ∧
    (0x3FFFFC : Word).toNat % 4 = 0 ∧ (0x3FFFFC : Word) ≠ 0x008 ∧
    (s (.write 0x00C 0)).inputs = .write 0x00C 0 :: [] ∧
    (asked (.read 0x400000)).inputs = .read 0x400000 :: [] ∧ 0x400000 ≤ (0x400000 : Word).toNat ∧
    (asked (.write 0x3FFFFF 0)).inputs = .write 0x3FFFFF 0 :: [] ∧ (0x3FFFFF : Word).toNat < 0x400000 ∧
    (0x3FFFFF : Word).toNat % 4 ≠ 0 := by decide

theorem test_witness_ErrorChangesOnlyStatus :
    ∃ t, exec (.hblkMd5 0xffff) blank = .next t ∧ t.err = true := ⟨_, exec_after _ _, by decide +kernel⟩

/-- The three commands with a silent path, and both codes. -/
theorem test_witness_WarnOnlyInCompatMode :
    let s := { blank with ctrl := 0x1 }
    (∃ t, exec (.radix 0 7) s = .next t ∧ t.warn = true) ∧
    (∃ t, exec (.genonce 13 0 0 7) { scenario 8 "" "" with ctrl := 0x1 } = .next t ∧ t.warn = true) ∧
    ∃ t, exec (.derive 0) s = .next t ∧ t.warn = true :=
  ⟨⟨_, exec_after _ _, by decide +kernel⟩, ⟨_, exec_after _ _, by decide +kernel⟩, ⟨_, exec_after _ _, by decide +kernel⟩⟩

theorem test_witness_OnlyNamedCommandsWriteControl :
    (∃ t, exec (.packle 0) (blank.setBytes 0 [1]) = .next t ∧ t.bitlen ≠ (blank.setBytes 0 [1]).bitlen) ∧
    (∃ t, exec (.genonce 7 1 0 7) site = .next t ∧ t.rnd ≠ site.rnd) ∧
    (∃ t, exec .wipe { blank with pwlen := 1 } = .next t ∧ t.pwlen ≠ 1) ∧
    ∃ t, exec .wipe { blank with leetctl := 1 } = .next t ∧ t.leetctl ≠ 1 :=
  ⟨⟨_, exec_after _ _, by decide +kernel⟩, ⟨_, exec_after _ _, by decide +kernel⟩, ⟨_, exec_after _ _, by decide +kernel⟩,
    ⟨_, exec_after _ _, by decide +kernel⟩⟩

theorem test_witness_StepKeepsInvariant :
    blank.Inv ∧ ∃ t, step blank = .next t := ⟨blank_inv, blank, rfl⟩

theorem test_witness_StepKeepsMemoryCanonical :
    (asked (.write 0x100000 7)).mem.wf ∧ ∃ t, step (asked (.write 0x100000 7)) = .next t :=
  ⟨by decide +kernel, _, rfl⟩

theorem test_witness_StepKeepsParameters : ∃ t, step (asked .reset) = .next t := ⟨_, rfl⟩

/-- A completion, and the two ways to a state with `BUSY` and `DONE` both 0: a step before the first command, a reset. -/
theorem test_witness_BusyAndDone :
    ((blank.accept 0).status ∈ legalStatuses ∧ ∃ t, step (blank.accept 0) = .next t ∧ t.done = true) ∧
    (blank.status ∈ legalStatuses ∧ ∃ t, step blank = .next t ∧ t.busy = false ∧ t.done = false) ∧
    ((asked .reset).status ∈ legalStatuses ∧ ∃ t, step (asked .reset) = .next t ∧ t.busy = false ∧ t.done = false) :=
  ⟨⟨by decide, _, rfl, by decide +kernel⟩, ⟨by decide, _, rfl, by decide⟩, ⟨by decide, _, rfl, by decide⟩⟩

theorem test_witness_ResetAtAnyTime :
    (asked .reset).inputs = .reset :: [] ∧ ((asked .reset).accept 0x00007051).inputs = .reset :: [] := ⟨rfl, rfl⟩

theorem test_witness_SideEffectsOfHostAccesses :
    (asked (.read 0x3FFFFC)).busy = false ∧ (0x3FFFFC : Word).toNat < 0x400000 ∧ (0x3FFFFC : Word).toNat % 4 = 0 ∧
    (asked (.read 0x3FFFFC)).inputs = .read 0x3FFFFC :: [] ∧
    (asked (.write 0x00C 0x51)).inputs = .write 0x00C 0x51 :: [] ∧
    (asked (.write 0x000 7)).inputs = .write 0x000 7 :: [] ∧ (0x000 : Word) ≠ 0x00C := by decide

/-- The first cell and the last one of each kind of buffer. -/
theorem test_witness_CellWriteThenRead :
    blank.params.legal = true ∧ blank.busy = false ∧ 0 < capacityOf blank.params (.txt 0) ∧
    1023 < capacityOf blank.params (.txt 7) ∧ 4095 < capacityOf blank.params (.byt 3) ∧
    1039 < capacityOf blank.params .wbuf ∧
    ({ blank with inputs := [.write (BitVec.ofNat 32 (cellOffset (.txt 7) 1023)) 5,
        .read (BitVec.ofNat 32 (cellOffset .wbuf 1039))] } : State).inputs =
      .write (BitVec.ofNat 32 (cellOffset (.txt 7) 1023)) 5 ::
        .read (BitVec.ofNat 32 (cellOffset .wbuf 1039)) :: [] := by
  refine ⟨by decide +kernel, rfl, by decide, by decide, by decide, by decide, rfl⟩

theorem test_witness_RegisterReads :
    blank.params.legal = true ∧ (asked (.read (BitVec.ofNat 32 (Register.offset (.tlen 7))))).busy = false ∧
    (asked (.read (BitVec.ofNat 32 (Register.offset (.tlen 7))))).inputs =
      .read (BitVec.ofNat 32 (Register.offset (.tlen 7))) :: [] := ⟨by decide +kernel, rfl, rfl⟩

theorem test_witness_RegisterWrites :
    blank.busy = false ∧ (asked (.write (BitVec.ofNat 32 Register.cap.offset) 9)).inputs =
      .write (BitVec.ofNat 32 Register.cap.offset) 9 :: [] ∧
    (asked (.write 0x014 0xffffffff)).inputs = .write 0x014 0xffffffff :: [] ∧
    (asked (.write (BitVec.ofNat 32 (0x020 + 4 * (7 : Fin 8))) 9)).inputs = .write 0x03C 9 :: [] := by decide

/-- At the capacity and one above it, for each kind of buffer. -/
theorem test_witness_LengthRegisterWrites :
    blank.busy = false ∧
    wbufCap blank.params < (1041 : Word).toNat ∧ (1040 : Word).toNat ≤ wbufCap blank.params ∧
    blank.params.bytCap < (4097 : Word).toNat ∧ (4096 : Word).toNat ≤ blank.params.bytCap ∧
    blank.params.txtCap < (1025 : Word).toNat ∧ (1024 : Word).toNat ≤ blank.params.txtCap ∧
    (asked (.write 0x040 1041)).inputs = .write 0x040 1041 :: [] ∧
    (asked (.write 0x05C 4096)).inputs = .write (BitVec.ofNat 32 (0x050 + 4 * (3 : Fin 4))) 4096 :: [] ∧
    (asked (.write 0x060 1025)).inputs = .write (BitVec.ofNat 32 (0x060 + 4 * (0 : Fin 8))) 1025 :: [] := by decide

/-- An offset below the buffers that no register has. -/
theorem reserved_register {off : Nat} (h : off % 4 = 0)
    (hs : off ∈ [0x044, 0x048, 0x04C] ∨ (0x084 ≤ off ∧ off < 0x100000)) : ReservedOffset defaultParams off := by
  simp only [List.mem_cons, List.not_mem_nil, or_false] at hs
  refine ⟨by omega, h, ?_⟩
  rintro (⟨r, hr⟩ | ⟨b, i, -, hr⟩)
  · cases r <;> simp only [Register.offset] at hr <;> omega
  · cases b <;> simp only [cellOffset] at hr <;> omega

/-- The first offset above the last text cell. -/
theorem reserved_cell : ReservedOffset defaultParams 0x1e1000 := by
  refine ⟨by omega, by omega, ?_⟩
  rintro (⟨r, hr⟩ | ⟨b, i, hi, hr⟩)
  · cases r <;> simp only [Register.offset] at hr <;> omega
  · cases b <;> simp only [cellOffset, capacityOf, wbufCap, defaultParams] at hi hr <;> omega

theorem test_witness_ReservedOffsets :
    blank.params.legal = true ∧ blank.busy = false ∧ ReservedOffset blank.params 0x044 ∧
    ReservedOffset blank.params 0x0FFFFC ∧ ReservedOffset blank.params 0x1e1000 ∧
    (asked (.write 0x1e1000 1)).inputs = .write 0x1e1000 1 :: [] :=
  ⟨by decide +kernel, rfl, reserved_register rfl (by decide), reserved_register rfl (by decide), reserved_cell, rfl⟩

theorem test_witness_InterruptLine : blank.ctrl.getLsbD 1 = false := rfl

theorem test_witness_NopCompletes :
    (0x00000100 : Word).toNat % 256 = 0 ∧ (0x00000100 : Word) ≠ 0 ∧ blank.inputs = [] := by decide

/-- The first and the last surrogate pair; a unit alone at the end, and one before a unit that is no low surrogate. -/
theorem test_witness_Utf8Bytes :
    0xD800 ≤ (0xD800 : CodeUnit).toNat ∧ (0xDBFF : CodeUnit).toNat ≤ 0xDBFF ∧ 0xDC00 ≤ (0xDC00 : CodeUnit).toNat ∧
    (0xDFFF : CodeUnit).toNat ≤ 0xDFFF ∧
    (¬ ∃ v more, ([] : Text) = v :: more ∧ 0xD800 ≤ (0xDBFF : CodeUnit).toNat ∧ (0xDBFF : CodeUnit).toNat ≤ 0xDBFF ∧
      0xDC00 ≤ v.toNat ∧ v.toNat ≤ 0xDFFF) ∧
    ∀ u ∈ ([0x00, 0x7F] : Text), u.toNat < 0x80 := by
  refine ⟨by decide, by decide, by decide, by decide, ?_, by simp⟩
  rintro ⟨v, more, h, -⟩
  cases h

/-- 128 bytes fit a buffer of 128 cells, 129 do not. -/
theorem test_witness_Utf8Completes :
    small.params.legal = true ∧
    (toUtf8Bytes ((small.setText 0 (List.replicate 128 0x41)).text 0)).length ≤ small.params.bytCap ∧
    small.params.bytCap < (toUtf8Bytes ((small.setText 0 (List.replicate 43 0xFFFF)).text 0)).length := by
  decide +kernel

theorem test_witness_PackleCompletes : blank.Fits := blank_fits

theorem test_witness_PackbeCompletes : blank.Fits := blank_fits

/-- The four clauses of `PADLE` and `PADBE`, the last two at `WLEN` = 17 and 16 for one block. -/
theorem test_witness_PadleCompletes :
    (0x00000001 : Word).toNat % 8 ≠ 0 ∧
    ((0x00010000 : Word).toNat % 8 = 0 ∧ wbufCap blank.params < 16 * (((0x00010000 : Word).toNat + 64) / 512) + 16) ∧
    ((440 : Word).toNat % 8 = 0 ∧ 16 * (((440 : Word).toNat + 64) / 512) + 16 ≤ wbufCap blank.params ∧
      16 * (((440 : Word).toNat + 64) / 512) + 16 < (17 : Word).toNat ∧
      (16 : Word).toNat ≤ 16 * (((440 : Word).toNat + 64) / 512) + 16) := by decide

theorem test_witness_PadbeCompletes :
    ((448 : Word).toNat % 8 = 0 ∧ 16 * (((448 : Word).toNat + 64) / 512) + 16 ≤ wbufCap blank.params ∧
      16 * (((448 : Word).toNat + 64) / 512) + 16 < (33 : Word).toNat ∧
      (32 : Word).toNat ≤ 16 * (((448 : Word).toNat + 64) / 512) + 16) ∧
    (0x00000007 : Word).toNat % 8 ≠ 0 ∧
    ((0xFFFFFFF8 : Word).toNat % 8 = 0 ∧ wbufCap blank.params < 16 * (((0xFFFFFFF8 : Word).toNat + 64) / 512) + 16) := by
  decide

theorem test_witness_PaddingIsThePublishedPadding : 8 * (hex [0x61]).length < 2 ^ 32 := by decide

theorem test_witness_HoutCompletes :
    blank.params.legal = true ∧ (Instr.houtRmd160 (byteField 3), 20, true) ∈
      [(Instr.houtMd4 (byteField 3), 16, true), (.houtMd5 (byteField 3), 16, true),
      (.houtMd5l (byteField 3), 16, true), (.houtSha1 (byteField 3), 20, false),
      (.houtSha256 (byteField 3), 32, false), (.houtSha256l (byteField 3), 32, false),
      (.houtRmd160 (byteField 3), 20, true)] := ⟨by decide +kernel, by decide⟩

/-- `HBLK.v` with `WLEN` one below and at the end of the block, for the first and the last block index. -/
theorem hblk_clauses :
    (15 : Word).toNat < 16 * (0 : BitVec 16).toNat + 16 ∧ 16 * (0 : BitVec 16).toNat + 16 ≤ (16 : Word).toNat ∧
    (0x000FFFFF : Word).toNat < 16 * (0xffff : BitVec 16).toNat + 16 ∧
    16 * (0xffff : BitVec 16).toNat + 16 ≤ (0x00100000 : Word).toNat := by decide

theorem test_witness_HblkMd4Completes :
    ({ blank with wlen := 15 } : State).wlen.toNat < 16 * (0 : BitVec 16).toNat + 16 ∧
    16 * (0 : BitVec 16).toNat + 16 ≤ ({ blank with wlen := 16 } : State).wlen.toNat := ⟨hblk_clauses.1, hblk_clauses.2.1⟩
theorem test_witness_HblkMd5Completes :
    ({ blank with wlen := 15 } : State).wlen.toNat < 16 * (0 : BitVec 16).toNat + 16 ∧
    16 * (0 : BitVec 16).toNat + 16 ≤ ({ blank with wlen := 16 } : State).wlen.toNat := ⟨hblk_clauses.1, hblk_clauses.2.1⟩
theorem test_witness_HblkSha1Completes :
    ({ blank with wlen := 15 } : State).wlen.toNat < 16 * (0 : BitVec 16).toNat + 16 ∧
    16 * (0 : BitVec 16).toNat + 16 ≤ ({ blank with wlen := 16 } : State).wlen.toNat := ⟨hblk_clauses.1, hblk_clauses.2.1⟩
theorem test_witness_HblkSha256Completes :
    ({ blank with wlen := 15 } : State).wlen.toNat < 16 * (0 : BitVec 16).toNat + 16 ∧
    16 * (0 : BitVec 16).toNat + 16 ≤ ({ blank with wlen := 16 } : State).wlen.toNat := ⟨hblk_clauses.1, hblk_clauses.2.1⟩
theorem test_witness_HblkRmd160Completes :
    ({ blank with wlen := 0x000FFFFF } : State).wlen.toNat < 16 * (0xffff : BitVec 16).toNat + 16 ∧
    16 * (0xffff : BitVec 16).toNat + 16 ≤ ({ blank with wlen := 0x00100000 } : State).wlen.toNat := hblk_clauses.2.2

theorem test_witness_DigestCompletes :
    blank.params.legal = true ∧ (Instr.digestSha256l (byteField 3) (byteField 3), Variant.sha256l, 32) ∈
      [(Instr.digestMd4 (byteField 3) (byteField 3), Variant.md4, 16),
      (.digestMd5 (byteField 3) (byteField 3), .md5, 16), (.digestMd5l (byteField 3) (byteField 3), .md5l, 16),
      (.digestSha1 (byteField 3) (byteField 3), .sha1, 20), (.digestSha256 (byteField 3) (byteField 3), .sha256, 32),
      (.digestSha256l (byteField 3) (byteField 3), .sha256l, 32),
      (.digestRmd160 (byteField 3) (byteField 3), .rmd160, 20)] := ⟨by decide +kernel, by decide⟩

theorem test_witness_DigestEqualsPrimitiveCommands : blank.Fits := blank_fits

theorem test_witness_HmacCompletes :
    blank.params.legal = true ∧ (Instr.hmacRmd160 (byteField 3) (byteField 3) (byteField 3), Variant.rmd160, 20) ∈
      [(Instr.hmacMd4 (byteField 3) (byteField 3) (byteField 3), Variant.md4, 16),
      (.hmacMd5 (byteField 3) (byteField 3) (byteField 3), .md5, 16),
      (.hmacMd5l (byteField 3) (byteField 3) (byteField 3), .md5l, 16),
      (.hmacSha1 (byteField 3) (byteField 3) (byteField 3), .sha1, 20),
      (.hmacSha256 (byteField 3) (byteField 3) (byteField 3), .sha256, 32),
      (.hmacRmd160 (byteField 3) (byteField 3) (byteField 3), .rmd160, 20)] := ⟨by decide +kernel, by decide⟩

theorem test_witness_HmacLegacyCompletes : blank.params.legal = true := by decide +kernel

/-- A positive value, the value 0, and no bytes, over an alphabet with a repeat. -/
theorem test_witness_RadixEncodeIsBaseN :
    (hex [0, 1]).length % 2 = 0 ∧ 2 ≤ (asciiText "aab").toFinset.card ∧ 0 < bigEndianValue (hex [0, 1]) ∧
    bigEndianValue (hex [0, 0]) = 0 ∧ hex [0, 0] ≠ [] ∧ (hex []).length % 2 = 0 := by decide

/-- The five clauses of `RADIX`: an odd length; one symbol, in both modes; 257 digits for 256 cells; a result that fits. -/
theorem test_witness_RadixCompletes :
    let s := small.setBytes 0 (1 :: List.replicate 33 0)
    small.params.legal = true ∧ (small.setBytes 0 [1]).blen[(0 : Fin 4)].toNat % 2 = 1 ∧
    small.blen[(0 : Fin 4)].toNat % 2 = 0 ∧ ((withText small 5 "aa").text 5).toFinset.card < 2 ∧
    small.ctrl.getLsbD 0 = false ∧ ({ small with ctrl := 0x1 } : State).ctrl.getLsbD 0 = true ∧
    s.blen[(0 : Fin 4)].toNat % 2 = 0 ∧ 2 ≤ ((withText s 5 "ab").text 5).toFinset.card ∧
    small.params.txtCap < (radixEncode ((withText s 5 "ab").bytes 0) ((withText s 5 "ab").text 5)).length ∧
    (radixEncode ((withText s 5 "abc").bytes 0) ((withText s 5 "abc").text 5)).length ≤ small.params.txtCap := by
  decide +kernel

/-- `Z` lowercased, `[` and 0x7F kept. -/
theorem test_witness_LowerObeysItsConstraints :
    ([0x5A, 0x5B, 0x7F] : Text)[0]? = some 0x5A ∧ 0x41 ≤ (0x5A : CodeUnit).toNat ∧ (0x5A : CodeUnit).toNat ≤ 0x5A ∧
    ([0x5A, 0x5B, 0x7F] : Text)[2]? = some 0x7F ∧ (0x7F : CodeUnit).toNat < 0x80 ∧
    ¬ (0x41 ≤ (0x5B : CodeUnit).toNat ∧ (0x5B : CodeUnit).toNat ≤ 0x5A) := by decide

theorem test_witness_LeetTransforms :
    defaultParams.legal = true ∧ (-1 : Int) < 0 ∧ (0 : Int) ≤ 8 ∧ (8 : Int) ≤ 8 ∧ defaultParams.lower = .ascii := by
  decide +kernel

/-- Levels 9 and 127; 65 tokens of four units for 256 cells, and 64 of them; level −128. -/
theorem test_witness_LeetCompletes :
    small.params.legal = true ∧ 8 < ((0x00000900 : Word).extractLsb' 8 8).toInt ∧
    8 < ((0x00007F00 : Word).extractLsb' 8 8).toInt ∧ ((0x00008000 : Word).extractLsb' 8 8).toInt ≤ 8 ∧
    ((0x00000800 : Word).extractLsb' 8 8).toInt ≤ 8 ∧
    small.params.txtCap < (leetText small.params 8 ((small.setText 0 (List.replicate 65 0x6D)).text 0)).length ∧
    (leetText small.params 8 ((small.setText 0 (List.replicate 64 0x6D)).text 0)).length ≤ small.params.txtCap := by
  decide +kernel

/-- A digest of 256 bits in two symbols that level 8 lengthens does not fit 256 cells; the example of R271 does. -/
theorem test_witness_GenonceCompletes :
    let s := { withText small 5 "mw" with leetctl := 0x00000802 }
    (small.params.legal = true ∧ Tag.ofField 0 = some .sha256 ∧ Tag.ofField 12 = some .hmacRmd160 ∧
    (s.leetctl.extractLsb' 8 8).toInt ≤ 8 ∧ 2 ≤ (s.text 5).toFinset.card ∧ (after (.genonce 0 0 0 7) s).status = 0x66 ∧
    (site.leetctl.extractLsb' 8 8).toInt ≤ 8 ∧ 2 ≤ (site.text 5).toFinset.card ∧
    (after (.genonce 7 1 0 7) site).status = 0x02 ∧ (s.leetctl.extractLsb' 0 2).toNat = 2 ∧
    0 ≤ (s.leetctl.extractLsb' 8 8).toInt) ∧ ∀ x : Text, x ≠ [] → lowerText s.params.lower x ≠ [] :=
  ⟨by decide +kernel, test_lower_ascii_keeps_text⟩

theorem test_witness_GenonceChecks :
    8 < ((0x00000900 : Word).extractLsb' 8 8).toInt ∧ (blank.leetctl.extractLsb' 8 8).toInt ≤ 8 ∧
    (blank.text 5).toFinset.card < 2 ∧ blank.ctrl.getLsbD 0 = false ∧
    ({ blank with ctrl := 0x1 } : State).ctrl.getLsbD 0 = true ∧ 2 ≤ (site.text 5).toFinset.card ∧
    13 ≤ (13 : BitVec 4).toNat ∧ 13 ≤ (15 : BitVec 4).toNat := by
  decide +kernel

/-- Every length from 0 up to the capacity is admitted. -/
theorem test_witness_DeriveCompletes :
    let s := scenario 1024 "P-" "!9"
    (s.params.legal = true ∧ Tag.ofField 12 = some .hmacRmd160 ∧ (s.leetctl.extractLsb' 8 8).toInt ≤ 8 ∧
    2 ≤ (s.text 5).toFinset.card ∧ s.pwlen.toNat ≤ s.params.txtCap ∧ (scenario 0 "" "").pwlen.toNat = 0) ∧
    ∀ x : Text, x ≠ [] → lowerText s.params.lower x ≠ [] :=
  ⟨by decide +kernel, test_lower_ascii_keeps_text⟩

theorem test_witness_DeriveChecks :
    let s := scenario 1025 "P-" "!9"
    s.params.legal = true ∧ 8 < ((0x00000900 : Word).extractLsb' 8 8).toInt ∧ (s.leetctl.extractLsb' 8 8).toInt ≤ 8 ∧
    (blank.text 5).toFinset.card < 2 ∧ 2 ≤ (s.text 5).toFinset.card ∧ s.ctrl.getLsbD 0 = false ∧
    ({ s with ctrl := 0x1 } : State).ctrl.getLsbD 0 = true ∧ 13 ≤ (13 : BitVec 4).toNat ∧ (12 : BitVec 4).toNat < 13 ∧
    s.params.txtCap < s.pwlen.toNat ∧ (scenario 1024 "" "").pwlen.toNat ≤ s.params.txtCap := by
  decide +kernel

/-- Two states that differ in registers and cells the result does not depend on. -/
theorem test_witness_DeriveIsDeterministic :
    let s := scenario 8 "" ""
    let u := { s.setText 7 (asciiText "old") with rnd := 5, bitlen := 3, ctrl := 0x2 }
    s ≠ u ∧ s.params = u.params ∧ s.ctrl.getLsbD 0 = u.ctrl.getLsbD 0 ∧ s.leetctl = u.leetctl ∧ s.pwlen = u.pwlen ∧
    ∀ k : Fin 8, k ≠ 7 → s.text k = u.text k := by
  decide +kernel

/-- `X` in `TXT[7]`; `PWLEN` equal to the length of the chunk, 25. -/
theorem test_witness_DeriveIsTheFirstChunk :
    let s := (scenario 25 "" "").setText 7 (asciiText "example.com0")
    (s.params.legal = true ∧ s.text 7 = s.text 0 ++ s.text 2 ++ s.text 6 ∧ s.text 3 = [] ∧ s.text 4 = []) ∧
    (∃ g, exec (.genonce 7 (textField 1) (textField 7) (textField 7)) s = .next g ∧ g.status = 0x02 ∧
      s.pwlen.toNat ≤ g.tlen[(7 : Fin 8)].toNat) := by
  exact ⟨by decide +kernel, _, exec_after _ _, by decide +kernel⟩

theorem test_witness_PostProcessKeepsTheSuffix :
    (asciiText "yz") ≠ [] ∧ (asciiText "yz").length ≤ 2 ∧ 1 < (asciiText "yz").length ∧
    3 ≤ (asciiText "P-" ++ asciiText "h").length := by decide

theorem test_witness_DecimalRendering : 1 ≤ 1 ∧ 1 ≤ 4294967295 ∧ decimal 10 = [0x0031, 0x0030] := by decide

end Sys2Proof.Tests
end

section
/-! The parameters of an instance are constants (spec/00_scope.md R13, spec/10_state.md R37, R40): what each kind of step does with
`State.params`. -/

namespace Sys2Proof.Machine

/-- A host write changes no parameter, whatever it addresses (R40). -/
@[simp] theorem State.writeTarget_params (s : State) (g : Target) (v : Word) : (s.writeTarget g v).params = s.params := by
  cases g with
  | id | status | rnd | cap | reserved | ctrl | cmd | pwlen | leetctl | bitlen | h | cell => rfl
  | wlen | blen | tlen => simp only [State.writeTarget]; split <;> rfl

/-- No shape of a command's result changes a parameter. -/
theorem Effect.params_eq {s u : State} {i : Instr} {st : Word} (h : Effect s i u st) : u.params = s.params := by
  cases h with
  | error | nop | wipe | hash | pack | pad | bytes | bytesScrubbed | text | emptyText | engine => rfl

/-- No command changes a parameter (R37). -/
theorem exec_params {i : Instr} {s t : State} (h : exec i s = .next t) : t.params = s.params := by
  obtain ⟨u, st, heffect, hexec⟩ := exec_effect i s
  obtain rfl : u.finish st = t := by rw [hexec] at h; injection h
  exact heffect.params_eq

theorem advance_params {s t : State} (h : advance s = .next t) : t.params = s.params := by
  obtain ⟨-, i, -, hexec⟩ | ⟨-, -, rfl⟩ | ⟨-, rfl⟩ := advance_next h
  · exact exec_params hexec
  · rfl
  · rfl

theorem hostRead_params {s t : State} {off : Word} (h : hostRead s off = .next t) : t.params = s.params := by
  obtain ⟨-, -, ⟨-, -, rfl⟩ | rfl⟩ := hostRead_next h
  · rfl
  · rfl

theorem hostWrite_params {s t : State} {off v : Word} (h : hostWrite s off v = .next t) : t.params = s.params := by
  obtain ⟨-, -, -, rfl⟩ := hostWrite_next h
  exact State.writeTarget_params ..

/-- Settles O16, by the four kinds of step: a move of the sequencer, a read, a write and a reset. -/
theorem stepKeepsParameters : Obligations.StepKeepsParameters := by
  intro s t h
  obtain ⟨rest, -, hmove⟩ | ⟨off, rest, -, hread⟩ | ⟨off, v, rest, -, hwrite⟩ | ⟨rest, -, rfl⟩ := step_next h
  · exact (advance_params hmove :)
  · exact (hostRead_params hread :)
  · exact (hostWrite_params hwrite :)
  · exact (hostReset_params { s with inputs := rest } :)

end Sys2Proof.Machine
end

section
/-! The invariant along each named update of the state, and so along every step (spec/10_state.md R23 to R36). A proof
below that extends `h` names the parts of the invariant that the update touches; the other parts speak of fields it leaves. -/

namespace Sys2Proof.Machine

/-! ### Writes to the length registers (R35) -/

section Lengths
variable {s : State} {v : Word}

theorem State.writeTarget_wlen_ignored (h : wbufCap s.params < v.toNat) : s.writeTarget .wlen v = s :=
  if_neg (Nat.not_le.2 h)

theorem State.writeTarget_wlen_stored (h : v.toNat ≤ wbufCap s.params) : s.writeTarget .wlen v = { s with wlen := v } :=
  if_pos h

theorem State.writeTarget_blen_ignored (k : Fin 4) (h : s.params.bytCap < v.toNat) : s.writeTarget (.blen k) v = s :=
  if_neg (Nat.not_le.2 h)

theorem State.writeTarget_blen_stored (k : Fin 4) (h : v.toNat ≤ s.params.bytCap) :
    s.writeTarget (.blen k) v = { s with blen := s.blen.set k v } :=
  if_pos h

theorem State.writeTarget_tlen_ignored (k : Fin 8) (h : s.params.txtCap < v.toNat) : s.writeTarget (.tlen k) v = s :=
  if_neg (Nat.not_le.2 h)

theorem State.writeTarget_tlen_stored (k : Fin 8) (h : v.toNat ≤ s.params.txtCap) :
    s.writeTarget (.tlen k) v = { s with tlen := s.tlen.set k v } :=
  if_pos h

end Lengths

/-- Lengths within a capacity stay within it when one of them is replaced by another that is. -/
theorem toNat_getElem_set_le {n cap : Nat} {lens : Vector Word n} (h : ∀ k : Fin n, lens[k].toNat ≤ cap) (k : Fin n)
    {l : Word} (hl : l.toNat ≤ cap) (j : Fin n) : (lens.set k l)[j].toNat ≤ cap := by
  by_cases hj : k = j
  · subst hj; simpa using hl
  · have hne : (k : Nat) ≠ j := fun e => hj (Fin.ext e)
    simpa [Vector.getElem_set, hne] using h j

/-! ### Updates of the state -/

namespace State.Inv
variable {s : State}

/-- The invariant's parts about cells, as one fact about the memory. -/
theorem sound (h : s.Inv) : s.mem.Sound s.params s.freeIx := ⟨h.wbuf, h.byt, h.txt⟩

/-- The invariant says nothing of `H`, `PWLEN`, `BITLEN`, `RND` and the host's side, and lets the counter of free values
advance. -/
theorem set_unconstrained (h : s.Inv) {hash : Vector Word 8} {pwlen bitlen rnd : Word} {inputs : List HostEvent}
    {reply : Option Word} {freeIx : Nat} (hfree : s.freeIx ≤ freeIx) :
    State.Inv { s with h := hash, pwlen := pwlen, bitlen := bitlen, rnd := rnd, inputs := inputs, reply := reply,
                       freeIx := freeIx } :=
  have hm := h.sound.mono hfree
  { h with fits := { h.fits with }, wbuf := hm.wbuf, byt := hm.byt, txt := hm.txt }

/-- The destination write to `WBUF` (R75). -/
theorem setWords (h : s.Inv) {ws : Words} (hl : ws.length ≤ wbufCap s.params) : (s.setWords ws).Inv :=
  have hm := State.setWords_sound h.sound hl
  { h with fits := State.setWords_fits h.fits hl, wbuf := hm.wbuf, byt := hm.byt, txt := hm.txt }

/-- The destination write to `BYT[k]` (R75). -/
theorem setBytes (h : s.Inv) (k : Fin 4) {bs : Bytes} (hl : bs.length ≤ s.params.bytCap) : (s.setBytes k bs).Inv :=
  have hm := State.setBytes_sound h.sound k hl
  { h with fits := State.setBytes_fits h.fits k hl, wbuf := hm.wbuf, byt := hm.byt, txt := hm.txt }

/-- The destination write to `TXT[k]` (R75). -/
theorem setText (h : s.Inv) (k : Fin 8) {t : Text} (hl : t.length ≤ s.params.txtCap) : (s.setText k t).Inv :=
  have hm := State.setText_sound h.sound k hl
  { h with fits := State.setText_fits h.fits k hl, wbuf := hm.wbuf, byt := hm.byt, txt := hm.txt }

/-- The scrub (R38). -/
theorem scrub (h : s.Inv) : s.scrub.Inv :=
  have hm := State.scrub_sound h.sound
  { h with fits := State.scrub_fits h.fits, wbuf := hm.wbuf, byt := hm.byt, txt := hm.txt }

/-- `WIPE`'s state change (R291). -/
theorem wiped (h : s.Inv) : s.wiped.Inv :=
  have hm := State.wiped_sound s s.freeIx
  { h with fits := State.wiped_fits h.fits, leetctl := by simp, wbuf := hm.wbuf, byt := hm.byt, txt := hm.txt }

/-- A completion with a legal `STATUS` consumes the command word (R27, R309). -/
theorem finish (h : s.Inv) {st : Word} (hst : st ∈ legalStatuses) : (s.finish st).Inv :=
  { h with fits := { h.fits with }, status := hst, idle := fun _ => rfl }

/-- The accept of any word: a word is held, and `BUSY` is 1 (R27). -/
theorem accept (h : s.Inv) (c : Word) : (s.accept c).Inv :=
  { h with fits := { h.fits with }, status := by simp [legalStatuses], idle := fun hb => by simp [State.busy] at hb }

/-- A host write, to a cell below its buffer's capacity or to anything else (R35, R36, R63). -/
theorem writeTarget (h : s.Inv) {g : Target} (hg : ∀ b i, g = .cell b i → i < capacityOf s.params b) (v : Word) :
    (s.writeTarget g v).Inv := by
  cases g with
  | id | status | rnd | cap | reserved => exact h
  | pwlen | bitlen | h => exact h.set_unconstrained le_rfl
  | cmd => exact h.accept v
  | ctrl =>
    have hreserved : (v &&& 0x00000003) &&& 0xFFFFFFFC = 0 := by rw [BitVec.and_assoc]; simp
    exact { h with fits := { h.fits with }, ctrl := hreserved }
  | leetctl =>
    have hreserved : (v &&& 0x0000FF03) &&& 0xFFFF00FC = 0 := by rw [BitVec.and_assoc]; simp
    exact { h with fits := { h.fits with }, leetctl := hreserved }
  | wlen =>
    rcases Nat.lt_or_ge (wbufCap s.params) v.toNat with hv | hv
    · rwa [State.writeTarget_wlen_ignored hv]
    · rw [State.writeTarget_wlen_stored hv]
      exact { h with fits := { h.fits with wlen := hv } }
  | blen k =>
    rcases Nat.lt_or_ge s.params.bytCap v.toNat with hv | hv
    · rwa [State.writeTarget_blen_ignored k hv]
    · rw [State.writeTarget_blen_stored k hv]
      exact { h with fits := { h.fits with blen := toNat_getElem_set_le h.fits.blen k hv } }
  | tlen k =>
    rcases Nat.lt_or_ge s.params.txtCap v.toNat with hv | hv
    · rwa [State.writeTarget_tlen_ignored k hv]
    · rw [State.writeTarget_tlen_stored k hv]
      exact { h with fits := { h.fits with tlen := toNat_getElem_set_le h.fits.tlen k hv } }
  | cell b i =>
    have hm := h.sound.write (hg b i rfl) v
    exact { h with fits := { h.fits with }, wbuf := hm.wbuf, byt := hm.byt, txt := hm.txt }

end State.Inv

/-- A reset under legal parameters meets the invariant, whatever the state was (R330). -/
theorem hostReset_inv {s : State} (h : s.params.legal = true) : (hostReset s).Inv :=
  have hm : (hostReset s).mem.Sound s.params (s.freeIx + 1) := Memory.Sound.unwritten (Nat.lt_succ_self _)
  ⟨⟨h, Nat.zero_le _, fun k => by simp, fun k => by simp⟩, by simp [legalStatuses], by simp, by simp, hm.wbuf, hm.byt,
    hm.txt, fun _ => rfl⟩

/-! ### Commands -/

/-- An error leaves one of the values of `STATUS` listed for it; `MalformedInput` is never raised (R311). -/
theorem statusError_mem_legalStatuses {e : ErrorCode} (h : e ≠ .malformedInput) : statusError e ∈ legalStatuses := by
  revert h
  cases e <;> decide

/-- A command ends with a legal `STATUS` (R301, R306, R309). -/
theorem Effect.status_mem_legalStatuses {s u : State} {i : Instr} {st : Word} (h : Effect s i u st) :
    st ∈ legalStatuses := by
  cases h with
  | error _ e he => exact statusError_mem_legalStatuses he
  | nop | wipe | hash | pack | pad | bytes | bytesScrubbed | text | emptyText => decide
  | engine _ _ _ _ _ _ _ hst => obtain rfl | ⟨-, rfl | rfl⟩ := hst <;> decide

/-- What a command does before its completion keeps the invariant. -/
theorem Effect.inv {s u : State} {i : Instr} {st : Word} (h : Effect s i u st) (hs : s.Inv) : u.Inv := by
  cases h with
  | error | nop => exact hs
  | wipe => exact hs.wiped
  | hash => exact hs.set_unconstrained le_rfl
  | pack _ _ _ _ _ hl => exact (hs.setWords hl).set_unconstrained le_rfl
  | pad _ _ hl => exact hs.setWords hl
  | bytes _ k _ hl => exact hs.setBytes k hl
  | bytesScrubbed _ k _ hl => exact (hs.setBytes k hl).scrub
  | text _ k _ hl => exact hs.setText k hl
  | emptyText _ _ k => exact hs.setText k (Nat.zero_le _)
  | engine _ _ k _ _ _ hl => exact State.Inv.scrub ((hs.setText k hl).set_unconstrained le_rfl)

/-- Every command keeps the invariant. -/
theorem exec_inv {i : Instr} {s t : State} (hs : s.Inv) (h : exec i s = .next t) : t.Inv := by
  obtain ⟨u, st, heffect, hexec⟩ := exec_effect i s
  obtain rfl : u.finish st = t := by rw [hexec] at h; injection h
  exact (heffect.inv hs).finish heffect.status_mem_legalStatuses

/-! ### Steps -/

theorem advance_inv {s t : State} (hs : s.Inv) (h : advance s = .next t) : t.Inv := by
  obtain ⟨-, i, -, hexec⟩ | ⟨-, -, rfl⟩ | ⟨-, rfl⟩ := advance_next h
  · exact exec_inv hs hexec
  · exact hs.finish (by decide)
  · exact hs

theorem hostRead_inv {s t : State} {off : Word} (hs : s.Inv) (h : hostRead s off = .next t) : t.Inv := by
  obtain ⟨-, -, ⟨-, -, rfl⟩ | rfl⟩ := hostRead_next h
  · exact hs.set_unconstrained (Nat.le_succ _)
  · exact hs.set_unconstrained le_rfl

theorem hostWrite_inv {s t : State} {off v : Word} (hs : s.Inv) (h : hostWrite s off v = .next t) : t.Inv := by
  obtain ⟨-, -, -, rfl⟩ := hostWrite_next h
  exact (hs.writeTarget (fun _ _ => targetOf_cell) v).set_unconstrained le_rfl

/-- Settles O14: serving the event keeps the invariant, and so does each of the four kinds of step. -/
theorem stepKeepsInvariant : Obligations.StepKeepsInvariant := by
  intro s t hs h
  have hserved (rest : List HostEvent) : State.Inv { s with inputs := rest } := hs.set_unconstrained le_rfl
  obtain ⟨rest, -, hmove⟩ | ⟨off, rest, -, hread⟩ | ⟨off, v, rest, -, hwrite⟩ | ⟨rest, -, rfl⟩ := step_next h
  · exact advance_inv (hserved rest) hmove
  · exact hostRead_inv (hserved rest) hread
  · exact hostWrite_inv (hserved rest) hwrite
  · exact hostReset_inv hs.fits.params

/-- The defaults of R5 lie in its ranges. -/
theorem defaultParams_legal : defaultParams.legal = true := by decide +kernel

/-- Settles O13: the reset state is the state after the reset numbered 0, under the default parameters. -/
theorem resetMeetsInvariant : Obligations.ResetMeetsInvariant :=
  hostReset_inv (s := { State.reset with freeIx := 0 }) defaultParams_legal

end Sys2Proof.Machine
end

section
/-! What a step does in each case of the host's next event, and the reset state as the host reads it (spec/60_exceptions.md R309,
spec/10_state.md R35, R39). -/

namespace Sys2Proof.Machine

section Step
variable {s : State} {rest : List HostEvent}

theorem step_of_inputs_nil (h : s.inputs = []) : step s = advance s := by
  simp [step, h]

theorem step_of_inputs_idle (h : s.inputs = .idle :: rest) : step s = advance { s with inputs := rest } := by
  simp [step, h]

theorem step_of_inputs_write {off v : Word} (h : s.inputs = .write off v :: rest) :
    step s = hostWrite { s with inputs := rest } off v := by
  simp [step, h]

/-- A command in progress executes (R309). -/
theorem advance_of_decode {i : Instr} (hb : s.busy = true) (hd : decode s.cmd = .ok i) : advance s = exec i s := by
  simp [advance, hb, runCommand, fetch, hd]

/-- With no command in progress PMCORE waits (R330). -/
theorem advance_of_idle (hb : s.busy = false) : advance s = .next s := by
  simp [advance, hb]

/-- A host write at an offset of the window, while no command runs. -/
theorem step_write_of_idle {off : Nat} {v : Word} (hb : s.busy = false)
    (hin : s.inputs = .write (BitVec.ofNat 32 off) v :: rest) (hoff : off < 0x400000) (halign : off % 4 = 0) :
    step s = .next { ({ s with inputs := rest } : State).writeTarget (targetOf s.params off) v with reply := none } := by
  have hnat : (BitVec.ofNat 32 off).toNat = off := Nat.mod_eq_of_lt (by omega)
  have hwrite := hostWrite_idle (s := { s with inputs := rest }) (off := BitVec.ofNat 32 off) v hb
    (by rwa [hnat]) (by rwa [hnat])
  rw [step_of_inputs_write hin, hwrite, hnat]

end Step

/-- Settles O6, by the branches of `step` and `advance`. -/
theorem stepRunsDecodedInstruction : Obligations.StepRunsDecodedInstruction := by
  intro s rest
  refine ⟨fun i hb hd => ⟨fun hin => ?_, fun hin => ?_⟩, fun hb => ⟨fun hin => ?_, fun hin => ?_⟩⟩
  · rw [step_of_inputs_nil hin, advance_of_decode hb hd]
  · rw [step_of_inputs_idle hin]; exact advance_of_decode hb hd
  · rw [step_of_inputs_nil hin, advance_of_idle hb]
  · rw [step_of_inputs_idle hin]; exact advance_of_idle hb

/-- Settles O24: the offset resolves to its length register, and the write is one of the two cases of R35. -/
theorem lengthRegisterWrites : Obligations.LengthRegisterWrites := by
  intro s v rest hb
  refine ⟨fun hin => ?wlen, fun k hin => ?blen, fun k hin => ?tlen⟩
  case wlen =>
    have hstep := step_write_of_idle hb hin (by decide) (by decide)
    rw [hstep, targetOf_wlen]
    exact ⟨fun hv => by simp [State.writeTarget_wlen_ignored, hv], fun hv => by simp [State.writeTarget_wlen_stored, hv]⟩
  case blen =>
    have hstep := step_write_of_idle hb hin (by omega) (by omega)
    rw [hstep, targetOf_blen]
    exact ⟨fun hv => by simp [State.writeTarget_blen_ignored, hv], fun hv => by simp [State.writeTarget_blen_stored, hv]⟩
  case tlen =>
    have hstep := step_write_of_idle hb hin (by omega) (by omega)
    rw [hstep, targetOf_tlen]
    exact ⟨fun hv => by simp [State.writeTarget_tlen_ignored, hv], fun hv => by simp [State.writeTarget_tlen_stored, hv]⟩

/-! ### The reset state (R39) -/

/-- A cell of `WBUF` that nothing has written since the reset numbered `epoch` reads its free value. -/
@[simp] theorem unwrittenMemory_wbuf_get (epoch i : Nat) :
    (unwrittenMemory epoch).wbuf.get i = Config.unspecifiedCell 32 epoch .wbuf i := rfl

@[simp] theorem unwrittenMemory_byt_get (epoch : Nat) (k : Fin 4) (i : Nat) :
    (unwrittenMemory epoch).byt[k].get i = Config.unspecifiedCell 8 epoch (.byt k) i := by
  simp [unwrittenMemory, Cells.get, Cells.unlisted]

@[simp] theorem unwrittenMemory_txt_get (epoch : Nat) (k : Fin 8) (i : Nat) :
    (unwrittenMemory epoch).txt[k].get i = Config.unspecifiedCell 16 epoch (.txt k) i := by
  simp [unwrittenMemory, Cells.get, Cells.unlisted]

/-- Settles O18: the registers by computation, the cells as cells of a memory nothing has written. -/
theorem resetState : Obligations.ResetState :=
  ⟨rfl, rfl, rfl, rfl, rfl, rfl, rfl, fun i => by simp [State.reset], rfl, fun k => by simp [State.reset],
    fun k => by simp [State.reset], unwrittenMemory_wbuf_get 0, unwrittenMemory_byt_get 0, unwrittenMemory_txt_get 0⟩

end Sys2Proof.Machine
end

section
/-! The canonical form of the memory along every step (spec/20_memory.md R63, R75; log 5): each shape of a command's result and
each host access keeps it. -/

namespace Sys2Proof.Machine

/-- What a command does before its completion keeps the canonical form. -/
theorem Effect.mem_wf {s u : State} {i : Instr} {st : Word} (h : Effect s i u st) (hs : s.mem.wf) : u.mem.wf := by
  cases h with
  | error | nop | hash => exact hs
  | wipe => exact State.wiped_wf s
  | pack _ _ _ ws => exact State.setWords_wf hs ws
  | pad _ ws => exact State.setWords_wf hs ws
  | bytes _ k bs => exact State.setBytes_wf hs k bs
  | bytesScrubbed _ k bs => exact State.scrub_wf (State.setBytes_wf hs k bs)
  | text _ k t => exact State.setText_wf hs k t
  | emptyText _ _ k => exact State.setText_wf hs k []
  | engine _ _ k t => exact State.scrub_wf (State.setText_wf hs k t)

/-- Every command keeps the canonical form. -/
theorem exec_mem_wf {i : Instr} {s t : State} (hs : s.mem.wf) (h : exec i s = .next t) : t.mem.wf := by
  obtain ⟨u, st, heffect, hexec⟩ := exec_effect i s
  obtain rfl : u.finish st = t := by rw [hexec] at h; injection h
  exact heffect.mem_wf hs

theorem advance_mem_wf {s t : State} (hs : s.mem.wf) (h : advance s = .next t) : t.mem.wf := by
  obtain ⟨-, i, -, hexec⟩ | ⟨-, -, rfl⟩ | ⟨-, rfl⟩ := advance_next h
  · exact exec_mem_wf hs hexec
  · exact hs
  · exact hs

theorem hostRead_mem_wf {s t : State} {off : Word} (hs : s.mem.wf) (h : hostRead s off = .next t) : t.mem.wf := by
  obtain ⟨-, -, ⟨-, -, rfl⟩ | rfl⟩ := hostRead_next h
  · exact hs
  · exact hs

/-- A host write keeps the canonical form, whatever it addresses: only a write of a cell touches the memory. -/
theorem State.writeTarget_mem_wf {s : State} (hs : s.mem.wf) (g : Target) (v : Word) : (s.writeTarget g v).mem.wf := by
  cases g with
  | id | status | rnd | cap | reserved | ctrl | cmd | pwlen | leetctl | bitlen | h => exact hs
  | wlen | blen | tlen => simp only [State.writeTarget]; split <;> exact hs
  | cell b i => exact Memory.wf_write hs b i v

theorem hostWrite_mem_wf {s t : State} {off v : Word} (hs : s.mem.wf) (h : hostWrite s off v = .next t) : t.mem.wf := by
  obtain ⟨-, -, -, rfl⟩ := hostWrite_next h
  exact State.writeTarget_mem_wf hs _ v

/-- Settles O15, by the four kinds of step: a move of the sequencer, a read, a write and a reset. -/
theorem stepKeepsMemoryCanonical : Obligations.StepKeepsMemoryCanonical := by
  intro s t hs h
  have hserved (rest : List HostEvent) : ({ s with inputs := rest } : State).mem.wf := hs
  obtain ⟨rest, -, hmove⟩ | ⟨off, rest, -, hread⟩ | ⟨off, v, rest, -, hwrite⟩ | ⟨rest, -, rfl⟩ := step_next h
  · exact advance_mem_wf (hserved rest) hmove
  · exact hostRead_mem_wf (hserved rest) hread
  · exact hostWrite_mem_wf (hserved rest) hwrite
  · exact hostReset_wf _

end Sys2Proof.Machine
end

section
/-! Host accesses (spec/20_memory.md R61 to R70): what a read and a write of the bus do in each case of the offset, and what
a cell keeps of a bus word. -/

namespace Sys2Proof.Machine

/-! ### The address map -/

theorem cellTarget_ne_cmd (b : BufId) (cap i : Nat) : cellTarget b cap i ≠ .cmd := by
  unfold cellTarget
  split <;> nofun

/-- `CMD` stands at one offset (R62). -/
theorem targetOf_eq_cmd {p : Params} {off : Nat} (h : targetOf p off = .cmd) : off = 0x00C := by
  unfold targetOf at h
  iterate 3 rcases ite_cases h with ⟨-, h⟩ | ⟨-, h⟩; · cases h
  rcases ite_cases h with ⟨hoff, -⟩ | ⟨-, h⟩
  · exact hoff
  iterate 9 rcases ite_cases h with ⟨-, h⟩ | ⟨-, h⟩; · cases h
  iterate 3 rcases ite_cases h with ⟨-, h⟩ | ⟨-, h⟩; · exact absurd h (cellTarget_ne_cmd _ _ _)
  cases h

/-- What the offset of a register names: the row of R62 it stands in. -/
def Register.target : Register → Target
  | .id => .id
  | .ctrl => .ctrl
  | .status => .status
  | .cmd => .cmd
  | .pwlen => .pwlen
  | .leetctl => .leetctl
  | .bitlen => .bitlen
  | .rnd => .rnd
  | .h i => .h i
  | .wlen => .wlen
  | .blen k => .blen k
  | .tlen k => .tlen k
  | .cap => .cap

/-- Every register stands at its offset (R62). -/
theorem targetOf_registerOffset (p : Params) (r : Register) : targetOf p r.offset = r.target := by
  cases r with
  | h i => exact targetOf_h p i
  | blen k => exact targetOf_blen p k
  | tlen k => exact targetOf_tlen p k
  | _ => rfl

/-- A register lies below the buffers, at a multiple of 4 (R62). -/
theorem registerOffset_lt (r : Register) : r.offset < 0x400000 ∧ r.offset % 4 = 0 := by
  cases r with
  | h i | blen i | tlen i => simp only [Register.offset]; omega
  | _ => decide

/-- `CAP` as one number (R26): a legal capacity fits its half. -/
theorem capWord_eq {p : Params} (hp : p.legal = true) :
    capWord p = BitVec.ofNat 32 (p.txtCap + 0x10000 * p.bytCap) := by
  obtain ⟨-, htxt, -, hbyt, -⟩ := legal_caps hp
  apply BitVec.eq_of_toNat_eq
  simp only [capWord, BitVec.toNat_append, BitVec.toNat_ofNat]
  rw [Nat.mod_eq_of_lt (by omega : p.bytCap < 2 ^ 16), Nat.mod_eq_of_lt (by omega : p.txtCap < 2 ^ 16),
    Nat.mod_eq_of_lt (by omega : p.txtCap + 0x10000 * p.bytCap < 2 ^ 32),
    ← Nat.shiftLeft_add_eq_or_of_lt (by omega : p.txtCap < 2 ^ 16), Nat.shiftLeft_eq]
  omega

/-! ### What a read and a write of a target do -/

section Targets
variable (s : State) (g : Target) (v : Word)

/-- No write depends on the host's side or touches it. -/
theorem State.writeTarget_hostSide (inputs : List HostEvent) (reply : Option Word) :
    State.writeTarget { s with inputs := inputs, reply := reply } g v =
      { s.writeTarget g v with inputs := inputs, reply := reply } := by
  cases g with
  | id | status | rnd | cap | reserved | ctrl | cmd | pwlen | leetctl | bitlen | h | cell => rfl
  | wlen | blen | tlen => simp only [State.writeTarget]; split <;> rfl

variable {g}

/-- Only a write to `CMD` issues a command (R67). -/
theorem State.writeTarget_command (h : g ≠ .cmd) :
    (s.writeTarget g v).status = s.status ∧ (s.writeTarget g v).cmd = s.cmd := by
  cases g with
  | cmd => exact absurd rfl h
  | id | status | rnd | cap | reserved | ctrl | pwlen | leetctl | bitlen | h | cell => exact ⟨rfl, rfl⟩
  | wlen | blen | tlen => simp only [State.writeTarget]; split <;> exact ⟨rfl, rfl⟩

end Targets

/-! ### Cells -/

section CellWrites
variable {w : Nat}

theorem insertCell_insertCell (i : Nat) (v : BitVec w) (l : List (Nat × BitVec w)) :
    insertCell i v (insertCell i v l) = insertCell i v l := by
  induction l with
  | nil => simp [insertCell]
  | cons e rest ih =>
    obtain ⟨j, u⟩ := e
    rcases Nat.lt_trichotomy i j with h | rfl | h
    · simp [insertCell, h]
    · simp [insertCell]
    · have hlt : ¬ i < j := by omega
      have hne : i ≠ j := by omega
      simp [insertCell, hlt, hne, ih]

/-- One cell written twice with one value, whatever form the cells are in. -/
theorem Cells.set_set (c : Cells w) (i : Nat) (v : BitVec w) : (c.set i v).set i v = c.set i v := by
  by_cases hl : c.base.lists (i, v)
  · simp [Cells.set, hl, insertCell_insertCell]
  · simp [Cells.set, hl, List.filter_filter]

end CellWrites

theorem Memory.write_write (m : Memory) (b : BufId) (i : Nat) (v : Word) :
    (m.write b i v).write b i v = m.write b i v := by
  cases b <;> simp [Memory.write, Cells.set_set]

/-- Cutting a bus word to `n` bits and extending it again masks its low bits. -/
theorem setWidth_setWidth_eq_and {n : Nat} (hn : n ≤ 32) (v : Word) :
    (v.setWidth n).setWidth 32 = v &&& BitVec.ofNat 32 (2 ^ n - 1) := by
  have hpow : 2 ^ n ≤ 2 ^ 32 := Nat.pow_le_pow_right (by decide) hn
  have hpos : 0 < 2 ^ n := Nat.two_pow_pos n
  have hmask : (2 ^ n - 1) % 2 ^ 32 = 2 ^ n - 1 := Nat.mod_eq_of_lt (by omega)
  have hcut : v.toNat % 2 ^ n % 2 ^ 32 = v.toNat % 2 ^ n := Nat.mod_eq_of_lt ((Nat.mod_lt _ hpos).trans_le hpow)
  apply BitVec.eq_of_toNat_eq
  rw [BitVec.toNat_setWidth, BitVec.toNat_setWidth, BitVec.toNat_and, BitVec.toNat_ofNat, hmask, hcut,
    Nat.and_two_pow_sub_one_eq_mod]

/-- A byte cell keeps bits 7:0 (R63). -/
theorem storedIn_byt (k : Fin 4) (v : Word) : storedIn (.byt k) v = (v.setWidth 8).setWidth 32 :=
  (setWidth_setWidth_eq_and (n := 8) (by decide) v).symm

/-- A text cell keeps bits 15:0 (R63). -/
theorem storedIn_txt (k : Fin 8) (v : Word) : storedIn (.txt k) v = (v.setWidth 16).setWidth 32 :=
  (setWidth_setWidth_eq_and (n := 16) (by decide) v).symm

/-- Read of the cell that was written (R63). -/
theorem Memory.read_write_same (m : Memory) (b : BufId) (i : Nat) (v : Word) :
    (m.write b i v).read b i = storedIn b v := by
  cases b with
  | wbuf => simp [Memory.write, Memory.read, Cells.get_set, storedIn]
  | byt k => simp [Memory.write, Memory.read, Cells.get_set, storedIn_byt]
  | txt k => simp [Memory.write, Memory.read, Cells.get_set, storedIn_txt]

/-- A cell reads zero-extended (R63): it holds no more bits than its width. -/
theorem Memory.storedIn_read (m : Memory) (b : BufId) (i : Nat) : storedIn b (m.read b i) = m.read b i := by
  cases b with
  | wbuf => rfl
  | byt k => simp [Memory.read, storedIn_byt]
  | txt k => simp [Memory.read, storedIn_txt]

/-- Every write but one to `CMD` is idempotent (R67). -/
theorem State.writeTarget_writeTarget (s : State) {g : Target} (h : g ≠ .cmd) (v : Word) :
    (s.writeTarget g v).writeTarget g v = s.writeTarget g v := by
  cases g with
  | cmd => exact absurd rfl h
  | id | status | rnd | cap | reserved | ctrl | pwlen | leetctl | bitlen => rfl
  | h i => simp [State.writeTarget]
  | wlen | blen | tlen => simp only [State.writeTarget]; split <;> simp [*]
  | cell b i => simp [State.writeTarget, Memory.write_write]

/-! ### Steps that serve an access -/

section Step
variable {s : State} {rest : List HostEvent}

theorem step_of_inputs_read {off : Word} (h : s.inputs = .read off :: rest) :
    step s = hostRead { s with inputs := rest } off := by
  simp [step, h]

/-- A host read at an offset of the window, while no command runs (R67). -/
theorem step_read_of_idle {off : Nat} (hb : s.busy = false) (hin : s.inputs = .read (BitVec.ofNat 32 off) :: rest)
    (hoff : off < 0x400000) (halign : off % 4 = 0) :
    step s = .next { s with inputs := rest, reply := some (s.readTarget (targetOf s.params off)) } := by
  have hnat : (BitVec.ofNat 32 off).toNat = off := Nat.mod_eq_of_lt (by omega)
  have hread := hostRead_idle (s := { s with inputs := rest }) (off := BitVec.ofNat 32 off) hb
    (by rwa [hnat]) (by rwa [hnat])
  rw [step_of_inputs_read hin, hread, hnat]
  rfl

/-- `step_write_of_idle` with the host's side set apart from what the target does. -/
theorem step_write_served {off : Nat} {v : Word} (hb : s.busy = false)
    (hin : s.inputs = .write (BitVec.ofNat 32 off) v :: rest) (hoff : off < 0x400000) (halign : off % 4 = 0) :
    step s = .next { s.writeTarget (targetOf s.params off) v with inputs := rest, reply := none } := by
  rw [step_write_of_idle hb hin hoff halign, State.writeTarget_hostSide s _ v rest s.reply]

/-- Serving a write that its target ignores leaves the state but for the host's side. -/
theorem step_write_ignored {off : Nat} {v : Word} (hb : s.busy = false) (hoff : off < 0x400000) (halign : off % 4 = 0)
    (hsame : s.writeTarget (targetOf s.params off) v = s) (reply : Option Word) :
    step { s with inputs := .write (BitVec.ofNat 32 off) v :: rest, reply := reply } =
      .next { s with inputs := rest, reply := none } := by
  rw [step_write_served (s := { s with inputs := .write (BitVec.ofNat 32 off) v :: rest, reply := reply }) hb rfl hoff
    halign, State.writeTarget_hostSide, hsame]

/-- A read of a register returns what it holds and changes nothing else (R62). -/
theorem step_read_register {r : Register} (hb : s.busy = false)
    (hin : s.inputs = .read (BitVec.ofNat 32 r.offset) :: rest) :
    step s = .next { s with inputs := rest, reply := some (s.readTarget r.target) } := by
  obtain ⟨hoff, halign⟩ := registerOffset_lt r
  rw [step_read_of_idle hb hin hoff halign, targetOf_registerOffset]

/-- A write to a register is the write of its target (R62). -/
theorem step_write_register {r : Register} {v : Word} (hb : s.busy = false)
    (hin : s.inputs = .write (BitVec.ofNat 32 r.offset) v :: rest) :
    step s = .next { s.writeTarget r.target v with inputs := rest, reply := none } := by
  obtain ⟨hoff, halign⟩ := registerOffset_lt r
  rw [step_write_served hb hin hoff halign, targetOf_registerOffset]

/-- A read of a cell, under legal parameters (R63). -/
theorem step_read_cell {b : BufId} {i : Nat} (hp : s.params.legal = true) (hb : s.busy = false)
    (hi : i < capacityOf s.params b) (hin : s.inputs = .read (BitVec.ofNat 32 (cellOffset b i)) :: rest) :
    step s = .next { s with inputs := rest, reply := some (s.cellRead b i) } := by
  obtain ⟨hoff, halign⟩ := cellOffset_lt hp hi
  rw [step_read_of_idle hb hin hoff halign, targetOf_cellOffset hp hi]
  rfl

/-- A write to a cell, under legal parameters (R63). -/
theorem step_write_cell {b : BufId} {i : Nat} {v : Word} (hp : s.params.legal = true) (hb : s.busy = false)
    (hi : i < capacityOf s.params b) (hin : s.inputs = .write (BitVec.ofNat 32 (cellOffset b i)) v :: rest) :
    step s = .next { s with mem := s.mem.write b i v, inputs := rest, reply := none } := by
  obtain ⟨hoff, halign⟩ := cellOffset_lt hp hi
  rw [step_write_served hb hin hoff halign, targetOf_cellOffset hp hi]
  rfl

/-! ### Accesses without a meaning -/

/-- Outside the window nothing of PMCORE is addressed (R61; log 9). -/
theorem badOffset_outside {off : Word} (h : 0x400000 ≤ off.toNat) : badOffset off = some (.fault (.outsideWindow off)) :=
  if_pos h

/-- A misaligned access is refused (R65; log 8). -/
theorem badOffset_misaligned {off : Word} (h : off.toNat < 0x400000) (halign : off.toNat % 4 ≠ 0) :
    badOffset off = some (.refused (.misaligned off)) :=
  (if_neg (Nat.not_le.2 h)).trans (if_pos halign)

theorem badOffset_none {off : Word} (h : off.toNat < 0x400000) (halign : off.toNat % 4 = 0) : badOffset off = none :=
  (if_neg (Nat.not_le.2 h)).trans (if_neg (not_not.2 halign))

/-- A read or a write at a bad offset stops as `badOffset` says, running command or not. -/
theorem step_of_badOffset {off v : Word} {stop : Result} (hbad : badOffset off = some stop)
    (hin : s.inputs = .read off :: rest ∨ s.inputs = .write off v :: rest) : step s = stop := by
  rcases hin with hin | hin
  · rw [step_of_inputs_read hin, hostRead, hbad]
  · rw [step_of_inputs_write hin, hostWrite, hbad]

/-- `STATUS` reads as it is, also while a command runs (R70). -/
theorem hostRead_status (s : State) : hostRead s 0x008 = .next { s with reply := some s.status } := by
  simp [hostRead, badOffset_none, State.readTarget]

/-- While a command runs, any other read returns a free value (R70; log 6). -/
theorem hostRead_busy {off : Word} (hb : s.busy = true) (hoff : off.toNat < 0x400000) (halign : off.toNat % 4 = 0)
    (hne : off ≠ 0x008) :
    hostRead s off =
      .next { s with reply := some (Config.busyReadData s.freeIx off.toNat), freeIx := s.freeIx + 1 } := by
  have hnat : off.toNat ≠ 0x008 := fun e => hne (BitVec.eq_of_toNat_eq e)
  simp [hostRead, badOffset_none hoff halign, hb, hnat]

/-- While a command runs, a write is refused (R70, R336; log 7). -/
theorem hostWrite_busy {off : Word} (v : Word) (hb : s.busy = true) (hoff : off.toNat < 0x400000)
    (halign : off.toNat % 4 = 0) : hostWrite s off v = .refused (.busyWrite off) := by
  simp [hostWrite, badOffset_none hoff halign, hb]

end Step

/-! ### The statements -/

/-- Settles O20: the read by what it answers, the write by whether its target is `CMD`. -/
theorem sideEffectsOfHostAccesses : Obligations.SideEffectsOfHostAccesses := by
  intro s off v rest hb hoff halign
  have hword : BitVec.ofNat 32 off.toNat = off := by simp
  refine ⟨fun hin => ?read, fun hin hcmd => ?command, fun hin hcmd => ?write⟩
  case read =>
    rw [← hword] at hin ⊢
    exact ⟨_, step_read_of_idle hb hin hoff halign, rfl, step_read_of_idle hb rfl hoff halign⟩
  case command =>
    subst hcmd
    exact step_write_register (r := .cmd) hb hin
  case write =>
    have hne : off.toNat ≠ 0x00C := fun e => hcmd (BitVec.eq_of_toNat_eq e)
    have hg : targetOf s.params off.toNat ≠ .cmd := fun e => hne (targetOf_eq_cmd e)
    obtain ⟨hstatus, hcmdWord⟩ := State.writeTarget_command s v hg
    have hidle : (s.writeTarget (targetOf s.params off.toNat) v).busy = false := by rwa [State.busy, hstatus]
    rw [← hword] at hin ⊢
    refine ⟨_, step_write_served hb hin hoff halign, hstatus, hcmdWord, step_write_ignored hidle hoff halign ?_ none⟩
    rw [State.writeTarget_params, State.writeTarget_writeTarget s hg]

/-- Settles O21, by whether the cell asked for is the one that was written. -/
theorem cellWriteThenRead : Obligations.CellWriteThenRead := by
  intro s b c i j v rest hp hb hi hj hin
  refine ⟨_, _, step_write_cell hp hb hi hin, step_read_cell hp hb hj rfl, rfl, fun d k => ?_, rfl,
    Memory.storedIn_read ..⟩
  split
  · rename_i h
    obtain ⟨rfl, rfl⟩ := h
    exact Memory.read_write_same ..
  · exact Memory.read_write_other _ _ _ _ _ _ ‹_›

/-- Settles O25: a reserved offset resolves to the target that reads 0 and ignores writes. -/
theorem reservedOffsets : Obligations.ReservedOffsets := by
  intro s off v rest _ hb hreserved
  have htarget := targetOf_reserved hreserved
  have hword : BitVec.ofNat 32 off.toNat = off := by simp
  obtain ⟨hoff, halign, -⟩ := hreserved
  rw [← hword]
  refine ⟨fun hin => ?read, fun hin => ?write⟩
  case read => rw [step_read_of_idle hb hin hoff halign, htarget]; rfl
  case write => rw [step_write_served hb hin hoff halign, htarget]; rfl

/-- Settles O8, by the order in which an access is looked at: the window, the alignment, a running command. -/
theorem accessesOutsideTheContract : Obligations.AccessesOutsideTheContract := by
  intro s off v rest
  refine ⟨fun hb hoff halign => ⟨fun hin hstatus => ?status, fun hin hother => ?other, fun hin => ?write⟩,
    fun hin => ⟨fun hoff => ?outside, fun hoff halign => ?misaligned⟩⟩
  case status => rw [step_of_inputs_read hin, hstatus, hostRead_status]
  case other => exact ⟨_, (step_of_inputs_read hin).trans (hostRead_busy hb hoff halign hother)⟩
  case write => exact (step_of_inputs_write hin).trans (hostWrite_busy v hb hoff halign)
  case outside => exact step_of_badOffset (badOffset_outside hoff) hin
  case misaligned => exact step_of_badOffset (badOffset_misaligned hoff halign) hin

/-- Settles O22: the register's target holds the value the statement lists; `CAP` is the one that is computed. -/
theorem registerReads : Obligations.RegisterReads := by
  intro s r rest hp hb hin
  rw [step_read_register hb hin]
  cases r with
  | cap => rw [← capWord_eq hp]; rfl
  | _ => rfl

/-- Settles O23: each offset is a register's, and the write is the register's own. -/
theorem registerWrites : Obligations.RegisterWrites := by
  intro s v rest hb
  refine ⟨fun r hr hin => ?readOnly, fun hin => step_write_register (r := .ctrl) hb hin,
    fun hin => step_write_register (r := .pwlen) hb hin, fun hin => step_write_register (r := .leetctl) hb hin,
    fun hin => step_write_register (r := .bitlen) hb hin, fun i hin => step_write_register (r := .h i) hb hin⟩
  case readOnly =>
    have hstep := step_write_register hb hin
    simp only [List.mem_cons, List.not_mem_nil, or_false] at hr
    obtain rfl | rfl | rfl | rfl := hr <;> exact hstep

end Sys2Proof.Machine
end

section
/-! The two directions of the command encoding and its opcode map (spec/30_encoding.md R81 to R88). The proofs go by the sixteen
lines of the decoder, `Instr.cases_opcode`; the seven rows of an opcode with an `HV` field share one argument. -/

namespace Sys2Proof

/-! ### The rows of one opcode -/

/-- The `HV` number of a variant (R85). -/
def Variant.number : Variant → BitVec 3
  | .md4 => 0 | .md5 => 1 | .md5l => 2 | .sha1 => 3 | .sha256 => 4 | .sha256l => 5 | .rmd160 => 6

@[simp] theorem variantOf_number (v : Variant) : variantOf v.number = some v := by cases v <;> rfl

theorem eq_number_of_variantOf {hv : BitVec 3} {v : Variant} (h : variantOf hv = some v) : hv = v.number := by
  rw [variantOf_eq h]
  cases v <;> rfl

/-- Every command belongs to one of the sixteen opcodes of R84. -/
theorem Instr.cases_opcode {motive : Instr → Prop} (nop : motive .nop) (wipe : motive .wipe)
    (utf8 : ∀ a d, motive (.utf8 a d)) (packle : ∀ a, motive (.packle a)) (packbe : ∀ a, motive (.packbe a))
    (padle : motive .padle) (padbe : motive .padbe) (hinit : ∀ v, motive (.hinit v))
    (hblk : ∀ v imm, motive (.hblk v imm)) (hout : ∀ v d, motive (.hout v d))
    (digest : ∀ v a d, motive (.digest v a d)) (hmac : ∀ v a b d, motive (.hmac v a b d))
    (radix : ∀ a d, motive (.radix a d)) (leet : ∀ a d, motive (.leet a d))
    (genonce : ∀ alg a b d, motive (.genonce alg a b d)) (derive : ∀ alg, motive (.derive alg)) (i : Instr) :
    motive i := by
  cases i with
  | nop => exact nop
  | wipe => exact wipe
  | utf8 a d => exact utf8 a d
  | packle a => exact packle a
  | packbe a => exact packbe a
  | padle => exact padle
  | padbe => exact padbe
  | hinitMd4 => exact hinit .md4
  | hinitMd5 => exact hinit .md5
  | hinitMd5l => exact hinit .md5l
  | hinitSha1 => exact hinit .sha1
  | hinitSha256 => exact hinit .sha256
  | hinitSha256l => exact hinit .sha256l
  | hinitRmd160 => exact hinit .rmd160
  | hblkMd4 imm => exact hblk .md4 imm
  | hblkMd5 imm => exact hblk .md5 imm
  | hblkMd5l imm => exact hblk .md5l imm
  | hblkSha1 imm => exact hblk .sha1 imm
  | hblkSha256 imm => exact hblk .sha256 imm
  | hblkSha256l imm => exact hblk .sha256l imm
  | hblkRmd160 imm => exact hblk .rmd160 imm
  | houtMd4 d => exact hout .md4 d
  | houtMd5 d => exact hout .md5 d
  | houtMd5l d => exact hout .md5l d
  | houtSha1 d => exact hout .sha1 d
  | houtSha256 d => exact hout .sha256 d
  | houtSha256l d => exact hout .sha256l d
  | houtRmd160 d => exact hout .rmd160 d
  | digestMd4 a d => exact digest .md4 a d
  | digestMd5 a d => exact digest .md5 a d
  | digestMd5l a d => exact digest .md5l a d
  | digestSha1 a d => exact digest .sha1 a d
  | digestSha256 a d => exact digest .sha256 a d
  | digestSha256l a d => exact digest .sha256l a d
  | digestRmd160 a d => exact digest .rmd160 a d
  | hmacMd4 a b d => exact hmac .md4 a b d
  | hmacMd5 a b d => exact hmac .md5 a b d
  | hmacMd5l a b d => exact hmac .md5l a b d
  | hmacSha1 a b d => exact hmac .sha1 a b d
  | hmacSha256 a b d => exact hmac .sha256 a b d
  | hmacSha256l a b d => exact hmac .sha256l a b d
  | hmacRmd160 a b d => exact hmac .rmd160 a b d
  | radix a d => exact radix a d
  | leet a d => exact leet a d
  | genonce alg a b d => exact genonce alg a b d
  | derive alg => exact derive alg

@[simp] theorem encode_hinit (v : Variant) : encode (.hinit v) = commandWord 0x20 v.number 0 0 0 0 := by cases v <;> rfl
@[simp] theorem encode_hblk (v : Variant) (imm : BitVec 16) : encode (.hblk v imm) = blockWord v.number imm := by
  cases v <;> rfl
@[simp] theorem encode_hout (v : Variant) (d : BufField) : encode (.hout v d) = commandWord 0x22 v.number 0 0 0 d := by
  cases v <;> rfl
@[simp] theorem encode_digest (v : Variant) (a d : BufField) :
    encode (.digest v a d) = commandWord 0x30 v.number 0 a 0 d := by cases v <;> rfl
@[simp] theorem encode_hmac (v : Variant) (a b d : BufField) :
    encode (.hmac v a b d) = commandWord 0x31 v.number 0 a b d := by cases v <;> rfl

@[simp] theorem wellFormed_hinit (v : Variant) : (Instr.hinit v).wellFormed = true := by cases v <;> rfl
@[simp] theorem wellFormed_hblk (v : Variant) (imm : BitVec 16) : (Instr.hblk v imm).wellFormed = true := by
  cases v <;> rfl
@[simp] theorem wellFormed_hout (v : Variant) (d : BufField) : (Instr.hout v d).wellFormed = BufField.isByte d := by
  cases v <;> rfl
@[simp] theorem wellFormed_digest (v : Variant) (a d : BufField) :
    (Instr.digest v a d).wellFormed = (BufField.isByte a && BufField.isByte d) := by cases v <;> rfl
@[simp] theorem wellFormed_hmac (v : Variant) (a b d : BufField) :
    (Instr.hmac v a b d).wellFormed = (BufField.isByte a && BufField.isByte b && BufField.isByte d) := by
  cases v <;> rfl

/-! ### What a format asks of the fields -/

@[simp] theorem IndexUse.zeroOk_unused (k : BufField) : IndexUse.unused.zeroOk k = (k == 0) := rfl
@[simp] theorem IndexUse.zeroOk_text (k : BufField) : IndexUse.text.zeroOk k = true := rfl
@[simp] theorem IndexUse.zeroOk_byte (k : BufField) : IndexUse.byte.zeroOk k = true := rfl
@[simp] theorem IndexUse.byteOk_unused (k : BufField) : IndexUse.unused.byteOk k = true := rfl
@[simp] theorem IndexUse.byteOk_text (k : BufField) : IndexUse.text.byteOk k = true := rfl
@[simp] theorem IndexUse.byteOk_byte (k : BufField) : IndexUse.byte.byteOk k = BufField.isByte k := rfl

/-- Settles O1: for each opcode the decoder takes that opcode's line, and the line's checks pass. -/
theorem decodeOfEncode : Obligations.DecodeOfEncode := by
  intro i hwf
  cases i using Instr.cases_opcode with
  | nop | wipe | padle | padbe => rfl
  | utf8 | packle | packbe | radix =>
    simp only [Instr.wellFormed] at hwf
    simp [encode, decode, checked, Format.zeroOk, Format.byteOk, hwf]
  | leet | genonce | derive => simp [encode, decode, checked, Format.zeroOk, Format.byteOk]
  | hinit => simp [decode, withVariant, checked, Format.zeroOk, Format.byteOk]
  | hblk => simp [decode, withVariant, checkedBlock]
  | hout | digest | hmac =>
    simp only [wellFormed_hout, wellFormed_digest, wellFormed_hmac, Bool.and_eq_true] at hwf
    simp [decode, withVariant, checked, Format.zeroOk, Format.byteOk, hwf]

/-! ### Words that pass the checks -/

/-- What a format takes from an index field. -/
def IndexUse.taken (u : IndexUse) (k : BufField) : BufField := if u = .unused then 0 else k

/-- The word built from those fields of `f` that the format uses. -/
def Format.word (m : Format) (f : Fields) : Word :=
  commandWord f.opc (if m.hv then f.hv else 0) (if m.alg then f.alg else 0) (m.a.taken f.a) (m.b.taken f.b) (m.d.taken f.d)

@[simp] theorem IndexUse.taken_unused (k : BufField) : IndexUse.unused.taken k = 0 := rfl
@[simp] theorem IndexUse.taken_text (k : BufField) : IndexUse.text.taken k = k := rfl
@[simp] theorem IndexUse.taken_byte (k : BufField) : IndexUse.byte.taken k = k := rfl

theorem IndexUse.taken_of_zeroOk {u : IndexUse} {k : BufField} (h : u.zeroOk k = true) : u.taken k = k := by
  cases u with
  | unused =>
    obtain rfl : k = 0 := by simpa using h
    rfl
  | text | byte => rfl

/-- A word that obeys a format is built from the fields the format uses: no must-be-zero bit is ignored (R81). -/
theorem Format.word_fieldsOf {m : Format} {w : Word} (h : m.zeroOk (fieldsOf w) = true) : m.word (fieldsOf w) = w := by
  obtain ⟨h11, h19, h23, h27⟩ := Format.zeroOk_fixed h
  simp only [Format.zeroOk, Bool.and_eq_true, Bool.or_eq_true, beq_iff_eq] at h
  obtain ⟨⟨⟨⟨⟨-, hhv⟩, halg⟩, ha⟩, hb⟩, hd⟩ := h
  have hhv' : (if m.hv then (fieldsOf w).hv else 0) = (fieldsOf w).hv := by
    rcases hhv with hhv | hhv <;> simp [hhv]
  have halg' : (if m.alg then (fieldsOf w).alg else 0) = (fieldsOf w).alg := by
    rcases halg with halg | halg <;> simp [halg]
  rw [Format.word, hhv', halg', IndexUse.taken_of_zeroOk ha, IndexUse.taken_of_zeroOk hb, IndexUse.taken_of_zeroOk hd]
  exact commandWord_of_fields h11 h19 h23 h27

/-- The instruction `j` is what a format reads from the fields `f`: well formed if the byte-buffer indices are in range, and
the word built from the fields is its word. -/
structure Format.Reads (m : Format) (f : Fields) (j : Instr) : Prop where
  wellFormed : m.byteOk f = true → j.wellFormed = true
  word : encode j = m.word f

/-! What each opcode's format reads (R82, R84). -/

section Reads
variable {f : Fields} {v : Variant}

theorem reads_nop (ho : f.opc = 0x00) : Format.Reads {} f .nop :=
  ⟨fun _ => rfl, by simp [encode, Format.word, ho]⟩
theorem reads_wipe (ho : f.opc = 0x01) : Format.Reads {} f .wipe :=
  ⟨fun _ => rfl, by simp [encode, Format.word, ho]⟩
theorem reads_utf8 (ho : f.opc = 0x10) : Format.Reads { a := .text, d := .byte } f (.utf8 f.a f.d) :=
  ⟨by simp [Instr.wellFormed, Format.byteOk], by simp [encode, Format.word, ho]⟩
theorem reads_packle (ho : f.opc = 0x11) : Format.Reads { a := .byte } f (.packle f.a) :=
  ⟨by simp [Instr.wellFormed, Format.byteOk], by simp [encode, Format.word, ho]⟩
theorem reads_packbe (ho : f.opc = 0x12) : Format.Reads { a := .byte } f (.packbe f.a) :=
  ⟨by simp [Instr.wellFormed, Format.byteOk], by simp [encode, Format.word, ho]⟩
theorem reads_padle (ho : f.opc = 0x13) : Format.Reads {} f .padle :=
  ⟨fun _ => rfl, by simp [encode, Format.word, ho]⟩
theorem reads_padbe (ho : f.opc = 0x14) : Format.Reads {} f .padbe :=
  ⟨fun _ => rfl, by simp [encode, Format.word, ho]⟩
theorem reads_hinit (ho : f.opc = 0x20) (hv : f.hv = v.number) : Format.Reads { hv := true } f (.hinit v) :=
  ⟨by simp, by simp [Format.word, ho, hv]⟩
theorem reads_hout (ho : f.opc = 0x22) (hv : f.hv = v.number) :
    Format.Reads { hv := true, d := .byte } f (.hout v f.d) :=
  ⟨by simp [Format.byteOk], by simp [Format.word, ho, hv]⟩
theorem reads_digest (ho : f.opc = 0x30) (hv : f.hv = v.number) :
    Format.Reads { hv := true, a := .byte, d := .byte } f (.digest v f.a f.d) :=
  ⟨by simp [Format.byteOk], by simp [Format.word, ho, hv]⟩
theorem reads_hmac (ho : f.opc = 0x31) (hv : f.hv = v.number) :
    Format.Reads { hv := true, a := .byte, b := .byte, d := .byte } f (.hmac v f.a f.b f.d) :=
  ⟨by simp [Format.byteOk], by simp [Format.word, ho, hv]⟩
theorem reads_radix (ho : f.opc = 0x40) : Format.Reads { a := .byte, d := .text } f (.radix f.a f.d) :=
  ⟨by simp [Instr.wellFormed, Format.byteOk], by simp [encode, Format.word, ho]⟩
theorem reads_leet (ho : f.opc = 0x41) : Format.Reads { a := .text, d := .text } f (.leet f.a f.d) :=
  ⟨fun _ => rfl, by simp [encode, Format.word, ho]⟩
theorem reads_genonce (ho : f.opc = 0x50) :
    Format.Reads { alg := true, a := .text, b := .text, d := .text } f (.genonce f.alg f.a f.b f.d) :=
  ⟨fun _ => rfl, by simp [encode, Format.word, ho]⟩
theorem reads_derive (ho : f.opc = 0x51) : Format.Reads { alg := true } f (.derive f.alg) :=
  ⟨fun _ => rfl, by simp [encode, Format.word, ho]⟩

end Reads

/-- A line of the decoder accepts only the encoding of the instruction its format reads. -/
theorem encode_of_checked {m : Format} {w : Word} {i j : Instr} (hj : m.Reads (fieldsOf w) j)
    (h : checked m (fieldsOf w) j = .ok i) : i.wellFormed = true ∧ encode i = w := by
  obtain ⟨rfl, hzero, hbyte⟩ := checked_ok h
  exact ⟨hj.wellFormed hbyte, hj.word.trans (Format.word_fieldsOf hzero)⟩

/-- Settles O2, by the lines of the decoder. -/
theorem encodeOfDecode : Obligations.EncodeOfDecode := by
  intro w i h
  obtain ⟨ho, h⟩ | ⟨ho, h⟩ | ⟨ho, h⟩ | ⟨ho, h⟩ | ⟨ho, h⟩ | ⟨ho, h⟩ | ⟨ho, h⟩ | ⟨ho, v, hv, h⟩ | ⟨ho, v, hv, h⟩ |
    ⟨ho, v, hv, h⟩ | ⟨ho, v, hv, h⟩ | ⟨ho, v, hv, h⟩ | ⟨ho, h⟩ | ⟨ho, h⟩ | ⟨ho, h⟩ | ⟨ho, h⟩ := decode_ok h
  · exact encode_of_checked (reads_nop ho) h
  · exact encode_of_checked (reads_wipe ho) h
  · exact encode_of_checked (reads_utf8 ho) h
  · exact encode_of_checked (reads_packle ho) h
  · exact encode_of_checked (reads_packbe ho) h
  · exact encode_of_checked (reads_padle ho) h
  · exact encode_of_checked (reads_padbe ho) h
  · exact encode_of_checked (reads_hinit ho (eq_number_of_variantOf hv)) h
  · obtain ⟨rfl, h11, halg⟩ := checkedBlock_ok h
    rw [encode_hblk, ← eq_number_of_variantOf hv]
    exact ⟨wellFormed_hblk .., blockWord_of_fields ho h11 halg⟩
  · exact encode_of_checked (reads_hout ho (eq_number_of_variantOf hv)) h
  · exact encode_of_checked (reads_digest ho (eq_number_of_variantOf hv)) h
  · exact encode_of_checked (reads_hmac ho (eq_number_of_variantOf hv)) h
  · exact encode_of_checked (reads_radix ho) h
  · exact encode_of_checked (reads_leet ho) h
  · exact encode_of_checked (reads_genonce ho) h
  · exact encode_of_checked (reads_derive ho) h

/-! ### The opcode map -/

/-- The word with the given fields (R81). -/
def Fields.word (f : Fields) : Word :=
  f.z27 ++ f.d ++ f.z23 ++ f.b ++ f.z19 ++ f.a ++ f.alg ++ f.z11 ++ f.hv ++ f.opc

@[simp] theorem fieldsOf_word (f : Fields) : fieldsOf f.word = f := by
  obtain ⟨opc, hv, z11, alg, a, z19, b, z23, d, z27⟩ := f
  simp only [fieldsOf, Fields.mk.injEq]
  and_intros <;>
    · ext i hi
      simp only [Fields.word, BitVec.getElem_extractLsb', BitVec.getLsbD_append]
      interval_cases i <;> simp

/-- The fields of a bitwise conjunction (R81). -/
theorem fieldsOf_and (w x : Word) :
    fieldsOf (w &&& x) =
      { opc := (fieldsOf w).opc &&& (fieldsOf x).opc, hv := (fieldsOf w).hv &&& (fieldsOf x).hv,
        z11 := (fieldsOf w).z11 &&& (fieldsOf x).z11, alg := (fieldsOf w).alg &&& (fieldsOf x).alg,
        a := (fieldsOf w).a &&& (fieldsOf x).a, z19 := (fieldsOf w).z19 &&& (fieldsOf x).z19,
        b := (fieldsOf w).b &&& (fieldsOf x).b, z23 := (fieldsOf w).z23 &&& (fieldsOf x).z23,
        d := (fieldsOf w).d &&& (fieldsOf x).d, z27 := (fieldsOf w).z27 &&& (fieldsOf x).z27 } := by
  simp [fieldsOf, BitVec.extractLsb'_and]

/-- The fields of a word that matches a row. -/
theorem fieldsOf_matched {r : OpcodeRow} {w : Word} (h : r.matched w = true) :
    fieldsOf (w &&& r.mask) = fieldsOf r.bits := by
  rw [beq_iff_eq.1 h]

/-- The bits of an index field that a format fixes at 0: all where the field is unused, the top one of a byte-buffer index
(R82, R87). -/
def IndexUse.fixedBits : IndexUse → BufField
  | .unused => BitVec.allOnes 3
  | .text => 0
  | .byte => 4

/-- An index field that is 0 in the bits its format fixes passes both checks of the decoder. -/
theorem IndexUse.and_fixedBits_eq_zero {u : IndexUse} {k : BufField} (h : k &&& u.fixedBits = 0) :
    u.zeroOk k = true ∧ u.byteOk k = true := by
  revert k
  cases u <;> decide

/-- The row of the opcode map that a format makes: the opcode and the `HV` field fixed, and every bit the format leaves no
choice for fixed at 0 (R82, R84). -/
def Format.row (m : Format) (opc : BitVec 8) (hv : BitVec 3) : OpcodeRow where
  bits := commandWord opc hv 0 0 0 0
  mask := Fields.word ⟨BitVec.allOnes 8, BitVec.allOnes 3, BitVec.allOnes 1, if m.alg then 0 else BitVec.allOnes 4,
    m.a.fixedBits, BitVec.allOnes 1, m.b.fixedBits, BitVec.allOnes 1, m.d.fixedBits, BitVec.allOnes 5⟩

/-- A word that matches a format's row obeys the format. -/
theorem Format.matched_row {m : Format} {opc : BitVec 8} {hv : BitVec 3} {w : Word} (hm : m.hv = true ∨ hv = 0)
    (h : (m.row opc hv).matched w = true) :
    (fieldsOf w).opc = opc ∧ (fieldsOf w).hv = hv ∧ m.zeroOk (fieldsOf w) = true ∧ m.byteOk (fieldsOf w) = true := by
  have hf := fieldsOf_matched h
  rw [Format.row, fieldsOf_and, fieldsOf_word, fieldsOf_commandWord] at hf
  simp only [BitVec.and_allOnes, Fields.mk.injEq] at hf
  obtain ⟨ho, hhv, h11, halg, ha, h19, hb, h23, hd, h27⟩ := hf
  have hhvOk : (m.hv || (fieldsOf w).hv == 0) = true := by simpa [hhv] using hm
  have halgOk : (m.alg || (fieldsOf w).alg == 0) = true := by
    cases hma : m.alg with
    | true => rfl
    | false =>
      rw [hma, if_neg Bool.false_ne_true, BitVec.and_allOnes] at halg
      simp [halg]
  obtain ⟨haz, hab⟩ := IndexUse.and_fixedBits_eq_zero ha
  obtain ⟨hbz, hbb⟩ := IndexUse.and_fixedBits_eq_zero hb
  obtain ⟨hdz, hdb⟩ := IndexUse.and_fixedBits_eq_zero hd
  refine ⟨ho, hhv, ?_, by simp [Format.byteOk, hab, hbb, hdb]⟩
  rw [Format.zeroOk, h11, h19, h23, h27, hhvOk, halgOk, haz, hbz, hdz]
  rfl

/-- A word that matches a format's row is the encoding of the instruction the format reads. -/
theorem exists_encode_of_matched_row {m : Format} {opc : BitVec 8} {hv : BitVec 3} {w : Word} {i : Instr} {n : Nat}
    (hi : (fieldsOf w).opc = opc → (fieldsOf w).hv = hv → m.Reads (fieldsOf w) i) (hm : m.hv = true ∨ hv = 0)
    (hrow : i.row = n) (h : (m.row opc hv).matched w = true) :
    ∃ i : Instr, i.row = n ∧ i.wellFormed = true ∧ encode i = w := by
  obtain ⟨ho, hhv, hzero, hbyte⟩ := Format.matched_row hm h
  exact ⟨i, hrow, (hi ho hhv).wellFormed hbyte, (hi ho hhv).word.trans (Format.word_fieldsOf hzero)⟩

/-- The row of `HBLK`, whose format leaves bits 31:16 to the block index (R82, R84). -/
def blockRow (hv : BitVec 3) : OpcodeRow where
  bits := blockWord hv 0
  mask := Fields.word ⟨BitVec.allOnes 8, BitVec.allOnes 3, BitVec.allOnes 1, BitVec.allOnes 4, 0, 0, 0, 0, 0, 0⟩

theorem blockWord_of_matched {hv : BitVec 3} {w : Word} (h : (blockRow hv).matched w = true) :
    blockWord hv (imm16Of w) = w := by
  obtain ⟨ho, hhv, h11, halg, -⟩ := fieldsOf_blockWord hv 0
  have hf := fieldsOf_matched h
  rw [blockRow, fieldsOf_and, fieldsOf_word] at hf
  simp only [BitVec.and_allOnes] at hf
  have ho' : (fieldsOf w).opc = 0x21 := (congrArg Fields.opc hf).trans ho
  have hhv' : (fieldsOf w).hv = hv := (congrArg Fields.hv hf).trans hhv
  have h11' : (fieldsOf w).z11 = 0 := (congrArg Fields.z11 hf).trans h11
  have halg' : (fieldsOf w).alg = 0 := (congrArg Fields.alg hf).trans halg
  rw [← hhv']
  exact blockWord_of_fields ho' h11' halg'

/-- The row of an instruction (R84). -/
def Instr.opcodeRow (i : Instr) : OpcodeRow := opcodeMap.getD i.row ⟨0, 0⟩

theorem opcodeRow_hinit (v : Variant) : (Instr.hinit v).opcodeRow = Format.row { hv := true } 0x20 v.number := by
  cases v <;> rfl
theorem opcodeRow_hblk (v : Variant) (imm : BitVec 16) : (Instr.hblk v imm).opcodeRow = blockRow v.number := by
  cases v <;> rfl
theorem opcodeRow_hout (v : Variant) (d : BufField) :
    (Instr.hout v d).opcodeRow = Format.row { hv := true, d := .byte } 0x22 v.number := by
  cases v <;> rfl
theorem opcodeRow_digest (v : Variant) (a d : BufField) :
    (Instr.digest v a d).opcodeRow = Format.row { hv := true, a := .byte, d := .byte } 0x30 v.number := by
  cases v <;> rfl
theorem opcodeRow_hmac (v : Variant) (a b d : BufField) :
    (Instr.hmac v a b d).opcodeRow = Format.row { hv := true, a := .byte, b := .byte, d := .byte } 0x31 v.number := by
  cases v <;> rfl

/-- A word that matches the row of some instruction is the encoding of a well-formed instruction of that row. -/
theorem exists_encode_of_matched (j : Instr) {w : Word} (h : j.opcodeRow.matched w = true) :
    ∃ i, i.row = j.row ∧ i.wellFormed = true ∧ encode i = w := by
  cases j using Instr.cases_opcode with
  | nop => exact exists_encode_of_matched_row (fun ho _ => reads_nop ho) (.inr rfl) rfl h
  | wipe => exact exists_encode_of_matched_row (fun ho _ => reads_wipe ho) (.inr rfl) rfl h
  | utf8 => exact exists_encode_of_matched_row (fun ho _ => reads_utf8 ho) (.inr rfl) rfl h
  | packle => exact exists_encode_of_matched_row (fun ho _ => reads_packle ho) (.inr rfl) rfl h
  | packbe => exact exists_encode_of_matched_row (fun ho _ => reads_packbe ho) (.inr rfl) rfl h
  | padle => exact exists_encode_of_matched_row (fun ho _ => reads_padle ho) (.inr rfl) rfl h
  | padbe => exact exists_encode_of_matched_row (fun ho _ => reads_padbe ho) (.inr rfl) rfl h
  | hinit v =>
    rw [opcodeRow_hinit] at h
    exact exists_encode_of_matched_row reads_hinit (.inl rfl) (by cases v <;> rfl) h
  | hblk v =>
    rw [opcodeRow_hblk] at h
    exact ⟨.hblk v (imm16Of w), by cases v <;> rfl, wellFormed_hblk .., (encode_hblk ..).trans (blockWord_of_matched h)⟩
  | hout v =>
    rw [opcodeRow_hout] at h
    exact exists_encode_of_matched_row reads_hout (.inl rfl) (by cases v <;> rfl) h
  | digest v =>
    rw [opcodeRow_digest] at h
    exact exists_encode_of_matched_row reads_digest (.inl rfl) (by cases v <;> rfl) h
  | hmac v =>
    rw [opcodeRow_hmac] at h
    exact exists_encode_of_matched_row reads_hmac (.inl rfl) (by cases v <;> rfl) h
  | radix => exact exists_encode_of_matched_row (fun ho _ => reads_radix ho) (.inr rfl) rfl h
  | leet => exact exists_encode_of_matched_row (fun ho _ => reads_leet ho) (.inr rfl) rfl h
  | genonce => exact exists_encode_of_matched_row (fun ho _ => reads_genonce ho) (.inr rfl) rfl h
  | derive => exact exists_encode_of_matched_row (fun ho _ => reads_derive ho) (.inr rfl) rfl h

/-- The seven variants, in the order of their `HV` numbers (R85). -/
def variants : List Variant := [.md4, .md5, .md5l, .sha1, .sha256, .sha256l, .rmd160]

/-- One instruction of each row, in the order of the opcode map. -/
def rowInstrs : List Instr :=
  List.flatten [[.nop, .wipe, .utf8 0 0, .packle 0, .packbe 0, .padle, .padbe], variants.map .hinit,
    variants.map fun v => .hblk v 0, variants.map fun v => .hout v 0, variants.map fun v => .digest v 0 0,
    variants.map fun v => .hmac v 0 0 0, [.radix 0 0, .leet 0 0, .genonce 0 0 0 0, .derive 0]]

theorem rowInstrs_map_row : rowInstrs.map Instr.row = List.range 46 := rfl

/-- Every row of the opcode map has an instruction. -/
theorem exists_row_eq {n : Nat} (h : n < 46) : ∃ j : Instr, j.row = n := by
  have hn : n ∈ rowInstrs.map Instr.row := by rw [rowInstrs_map_row]; exact List.mem_range.2 h
  obtain ⟨j, -, hj⟩ := List.mem_map.1 hn
  exact ⟨j, hj⟩

theorem Instr.row_lt (i : Instr) : i.row < 46 := by
  cases i <;> simp [Instr.row]

/-- The word of a well-formed instruction matches its row: the family `RowMatches`, as one statement. -/
theorem opcodeRow_matched_encode (i : Instr) (h : i.wellFormed = true) : i.opcodeRow.matched (encode i) = true := by
  have hrow : Laws.RowMatches.Statement i := by
    cases i with
    | nop => exact Laws.RowMatches.nop
    | wipe => exact Laws.RowMatches.wipe
    | utf8 a d => exact Laws.RowMatches.utf8 a d
    | packle a => exact Laws.RowMatches.packle a
    | packbe a => exact Laws.RowMatches.packbe a
    | padle => exact Laws.RowMatches.padle
    | padbe => exact Laws.RowMatches.padbe
    | hinitMd4 => exact Laws.RowMatches.hinitMd4
    | hinitMd5 => exact Laws.RowMatches.hinitMd5
    | hinitMd5l => exact Laws.RowMatches.hinitMd5l
    | hinitSha1 => exact Laws.RowMatches.hinitSha1
    | hinitSha256 => exact Laws.RowMatches.hinitSha256
    | hinitSha256l => exact Laws.RowMatches.hinitSha256l
    | hinitRmd160 => exact Laws.RowMatches.hinitRmd160
    | hblkMd4 imm => exact Laws.RowMatches.hblkMd4 imm
    | hblkMd5 imm => exact Laws.RowMatches.hblkMd5 imm
    | hblkMd5l imm => exact Laws.RowMatches.hblkMd5l imm
    | hblkSha1 imm => exact Laws.RowMatches.hblkSha1 imm
    | hblkSha256 imm => exact Laws.RowMatches.hblkSha256 imm
    | hblkSha256l imm => exact Laws.RowMatches.hblkSha256l imm
    | hblkRmd160 imm => exact Laws.RowMatches.hblkRmd160 imm
    | houtMd4 d => exact Laws.RowMatches.houtMd4 d
    | houtMd5 d => exact Laws.RowMatches.houtMd5 d
    | houtMd5l d => exact Laws.RowMatches.houtMd5l d
    | houtSha1 d => exact Laws.RowMatches.houtSha1 d
    | houtSha256 d => exact Laws.RowMatches.houtSha256 d
    | houtSha256l d => exact Laws.RowMatches.houtSha256l d
    | houtRmd160 d => exact Laws.RowMatches.houtRmd160 d
    | digestMd4 a d => exact Laws.RowMatches.digestMd4 a d
    | digestMd5 a d => exact Laws.RowMatches.digestMd5 a d
    | digestMd5l a d => exact Laws.RowMatches.digestMd5l a d
    | digestSha1 a d => exact Laws.RowMatches.digestSha1 a d
    | digestSha256 a d => exact Laws.RowMatches.digestSha256 a d
    | digestSha256l a d => exact Laws.RowMatches.digestSha256l a d
    | digestRmd160 a d => exact Laws.RowMatches.digestRmd160 a d
    | hmacMd4 a b d => exact Laws.RowMatches.hmacMd4 a b d
    | hmacMd5 a b d => exact Laws.RowMatches.hmacMd5 a b d
    | hmacMd5l a b d => exact Laws.RowMatches.hmacMd5l a b d
    | hmacSha1 a b d => exact Laws.RowMatches.hmacSha1 a b d
    | hmacSha256 a b d => exact Laws.RowMatches.hmacSha256 a b d
    | hmacSha256l a b d => exact Laws.RowMatches.hmacSha256l a b d
    | hmacRmd160 a b d => exact Laws.RowMatches.hmacRmd160 a b d
    | radix a d => exact Laws.RowMatches.radix a d
    | leet a d => exact Laws.RowMatches.leet a d
    | genonce alg a b d => exact Laws.RowMatches.genonce alg a b d
    | derive alg => exact Laws.RowMatches.derive alg
  exact hrow h

/-- Settles O3: an accepted word is the encoding of its instruction and so matches that row, and a matching word is the
encoding of an instruction of the row and so decodes to it. -/
theorem decodeFollowsOpcodeMap : Obligations.DecodeFollowsOpcodeMap := by
  refine ⟨by decide, fun w i h => ?_, fun w n hn h => ?_⟩
  · obtain ⟨hwf, rfl⟩ := encodeOfDecode w i h
    exact ⟨i.row_lt, opcodeRow_matched_encode i hwf⟩
  · obtain ⟨j, rfl⟩ := exists_row_eq hn
    obtain ⟨i, hrow, hwf, rfl⟩ := exists_encode_of_matched j h
    exact ⟨i, decodeOfEncode i hwf, hrow⟩

/-- Settles O4, by running the decoder on each word. -/
theorem knownWordsDecode : Obligations.KnownWordsDecode := by
  unfold Obligations.KnownWordsDecode
  decide

end Sys2Proof

namespace Sys2Proof.Machine

theorem advance_of_decode_error {s : State} {why : DecodeError} (hb : s.busy = true) (hd : decode s.cmd = .error why) :
    advance s = raise s .illegalCommand := by
  simp [advance, hb, runCommand, fetch, hd, illegalWord]

/-- A word that matches no row of the opcode map is refused by the decoder (R84, R88). -/
theorem decode_error_of_unmatched {w : Word} (h : ∀ r ∈ opcodeMap, r.matched w = false) : ∃ why, decode w = .error why := by
  cases hd : decode w with
  | error why => exact ⟨why, rfl⟩
  | ok i =>
    obtain ⟨hlength, haccepted, -⟩ := decodeFollowsOpcodeMap
    obtain ⟨hrow, hmatched⟩ := haccepted w i hd
    have hlt : i.row < opcodeMap.length := hlength ▸ hrow
    rw [List.getD_eq_getElem _ _ hlt, h _ (List.getElem_mem hlt)] at hmatched
    cases hmatched

/-- Settles O5: the decoder refuses the word, and the sequencer raises `IllegalCommand` on the state of the accept. -/
theorem illegalWordRaisesIllegalCommand : Obligations.IllegalWordRaisesIllegalCommand := by
  intro s w h hin
  obtain ⟨why, hd⟩ := decode_error_of_unmatched h
  have hbusy : (s.accept w).busy = true := by simp [State.busy]
  rw [step_of_inputs_nil (s := s.accept w) hin, advance_of_decode_error hbusy hd, raise_eq, statusError_illegalCommand]
  rfl

/-- Settles O43: the model gives the two commands of each pair one meaning, by definition of the tables they use. -/
theorem legacyVariantsAreAliases : Obligations.LegacyVariantsAreAliases :=
  fun _ _ _ _ _ => ⟨rfl, rfl, rfl, rfl, rfl, rfl, rfl, rfl, rfl⟩

end Sys2Proof.Machine
end

section
/-! `DERIVE` against `GENONCE` on one chunk (spec/30_encoding.md R91(c), spec/48_derive.md R286(e)): both end the same checks,
and where one chunk is enough, the loop of R283 stops with it. -/

namespace Sys2Proof.Machine

/-- A command that ends with `DONE` alone has not raised an error (R303). -/
theorem raise_ne_done {s g : State} {e : ErrorCode} (hg : g.status = 0x02) : raise s e ≠ .next g := by
  rintro h
  cases h
  have hstatus : statusError e ≠ 0x02 := by cases e <;> decide
  exact hstatus hg

/-- A command that ends with `DONE` alone has not taken a silent path (R306). -/
theorem completeWarn_ne_done {s g : State} {e : ErrorCode} (hg : g.status = 0x02) : completeWarn s e ≠ .next g := by
  rintro h
  cases h
  have hstatus : statusWarn e ≠ 0x02 := by cases e <;> decide
  exact hstatus hg

/-- What a `GENONCE` that ends with `DONE` alone has passed and leaves: the checks, a tag, and the chunk, which fits
(R271, R273). -/
theorem execGenonce_done {alg : BitVec 4} {a b d : BufField} {s g : State} (hlegal : s.params.legal = true)
    (h : execGenonce alg a b d s = .next g) (hg : g.status = 0x02) :
    s.leetLevel ≤ 8 ∧ charsetOk (s.text alphaBuf) = true ∧ ∃ tag, Tag.ofField alg = some tag ∧
      (g.text (textBuf d)).length ≤ s.params.txtCap ∧
      g.text (textBuf d) = generateOnce s.params tag (s.text (textBuf a)) (s.text (textBuf b)) s.leetTiming s.leetLevel
        (s.text alphaBuf) := by
  unfold execGenonce at h
  simp only at h
  split at h
  · exact absurd h (raise_ne_done hg)
  rename_i hlevel
  split at h
  · split at h
    · exact absurd h (completeWarn_ne_done hg)
    · exact absurd h (raise_ne_done hg)
  rename_i hcharset
  split at h
  · split at h
    · exact absurd h (completeWarn_ne_done hg)
    · exact absurd h (raise_ne_done hg)
  rename_i tag htag
  refine ⟨by omega, by simpa using hcharset, tag, htag, ?_⟩
  generalize generateOnce s.params tag (s.text (textBuf a)) (s.text (textBuf b)) s.leetTiming s.leetLevel
    (s.text alphaBuf) = chunk at h ⊢
  rcases Nat.lt_or_ge s.params.txtCap chunk.length with hlong | hfits
  · rw [State.storeText_none hlong] at h
    exact absurd h (raise_ne_done hg)
  · obtain ⟨t, ht, -, -, htext⟩ := deliverScrubbed_storeText (k := textBuf d) hlegal hfits
    obtain rfl : t = g := by rw [ht] at h; injection h
    rw [htext]
    exact ⟨hfits, rfl⟩

/-- A `DERIVE` that passes its checks completes (R280, R281). -/
theorem execDerive_checked {alg : BitVec 4} {tag : Tag} {s : State} (hlevel : s.leetLevel ≤ 8)
    (hcharset : charsetOk (s.text alphaBuf) = true) (htag : Tag.ofField alg = some tag)
    (hlen : s.pwlen.toNat ≤ s.params.txtCap) : execDerive alg s = complete (s.derived (some tag)) := by
  unfold execDerive
  rw [if_neg (by omega), if_neg (by simp [hcharset]), htag]
  exact if_neg (by omega)

/-- The loop of R283 with a first chunk of at least `len` code units: it runs no second round, and the first `len` code
units it accumulates are the chunk's. -/
theorem deriveRounds_take_of_le {chunkOf : Nat → Text} {len : Nat} (h : len ≤ (chunkOf 0).length) :
    (deriveRounds chunkOf len len 0 []).1.take len = (chunkOf 0).take len := by
  cases len with
  | zero => rfl
  | succ fuel =>
    cases hchunk : chunkOf 0 with
    | nil => simp [hchunk] at h
    | cons u rest =>
      rw [hchunk] at h
      have hstop : deriveRounds chunkOf (fuel + 1) fuel 1 (u :: rest) = (u :: rest, 1) := by
        cases fuel with
        | zero => rfl
        | succ fuel => exact if_neg (by omega)
      simp [deriveRounds, hchunk, hstop]

/-- Post-processing with nothing before and nothing behind the chunks cuts to the length (R285). -/
theorem postProcess_nil_nil (acc : Text) (len : Nat) : postProcess [] acc [] len = acc.take len := rfl

/-- The text that a `DERIVE` which passed its checks leaves in `OUT` (R280). -/
theorem derived_text {s : State} (hlegal : s.params.legal = true) (tag : Option Tag) (hlen : s.pwlen.toNat ≤ s.params.txtCap) :
    (s.derived tag).text outBuf = postProcess (s.text 3) (deriveAcc s tag).1 (s.text 4) s.pwlen.toNat := by
  obtain ⟨-, hcap, -⟩ := legal_caps hlegal
  exact State.text_setText s outBuf _ (((postProcess_length_le ..).trans (hlen.trans hcap)).trans_lt (by decide))

/-- Settles O58: `DERIVE` passes the checks that `GENONCE` passed, and its first chunk is `GENONCE`'s. -/
theorem deriveIsTheFirstChunk : Obligations.DeriveIsTheFirstChunk := by
  intro s g alg x hlegal hx hpre hsuf hexec hg hlen
  obtain ⟨hlevel, hcharset, tag, htag, hfits, hchunk⟩ := execGenonce_done hlegal hexec hg
  rw [textBuf_textField] at hfits hchunk
  rw [textBuf_textField, textBuf_textField, hx] at hchunk
  have hlen' : s.pwlen.toNat ≤ (g.text 7).length := by simpa using hlen
  have hfirst : deriveChunk s (some tag) 0 = g.text 7 := hchunk.symm
  refine ⟨_, (execDerive_checked hlevel hcharset htag (hlen'.trans hfits)).trans (complete_eq _), rfl, ?_⟩
  calc (s.derived (some tag)).text outBuf
      = (deriveAcc s (some tag)).1.take s.pwlen.toNat := by
        rw [derived_text hlegal _ (hlen'.trans hfits), hpre, hsuf, postProcess_nil_nil]
    _ = (g.text 7).take s.pwlen.toNat := by
        rw [deriveAcc, deriveRounds_take_of_le (hfirst ▸ hlen'), hfirst]

end Sys2Proof.Machine
end

section
/-! `DIGEST.v` against the primitive commands (spec/30_encoding.md R91(a), spec/45_digest_hmac.md R215 to R217): the state after each part of
the sequence, `PACKx`, `PADx`, the blocks, `HOUT.v`, is written out, and the parts are run one after another. -/

namespace Sys2Proof.Machine

/-! ### Sequences of commands -/

theorem runCommands_cons {i : Instr} {is : List Instr} {s t : State} (h : exec i s = .next t) :
    runCommands (i :: is) s = runCommands is t := by
  simp [runCommands, h]

theorem runCommands_append {is js : List Instr} {s t : State} (h : runCommands is s = .next t) :
    runCommands (is ++ js) s = runCommands js t := by
  induction is generalizing s with
  | nil => cases h; rfl
  | cons i is ih =>
    obtain ⟨u, st, -, hexec⟩ := exec_effect i s
    rw [runCommands_cons hexec] at h
    rw [List.cons_append, runCommands_cons hexec, ih h]

/-! ### The commands of one variant -/

theorem exec_hinit (v : Variant) (s : State) : exec (.hinit v) s = hinitOp v s := by cases v <;> rfl
theorem exec_hblk (v : Variant) (imm : BitVec 16) (s : State) : exec (.hblk v imm) s = hblkOp v imm s := by cases v <;> rfl
theorem exec_hout (v : Variant) (d : BufField) (s : State) : exec (.hout v d) s = houtOp v d s := by cases v <;> rfl
theorem exec_digest (v : Variant) (a d : BufField) (s : State) : exec (.digest v a d) s = digestOp v a d s := by
  cases v <;> rfl

/-- The packer of a variant, as a command (R11). -/
def packInstr (v : Variant) (a : BufField) : Instr := if v.littleEndian then .packle a else .packbe a

/-- The padder of a variant, as a command (R11). -/
def padInstr (v : Variant) : Instr := if v.littleEndian then .padle else .padbe

/-- The blocks of `HBLK.v` in order, as commands. -/
def blockInstrs (v : Variant) (blocks : Nat) : List Instr := (List.range blocks).map fun i => .hblk v (BitVec.ofNat 16 i)

theorem primitiveDigest_eq (v : Variant) (a d : BufField) (blocks : Nat) :
    primitiveDigest v a d blocks = packInstr v a :: padInstr v :: .hinit v :: (blockInstrs v blocks ++ [.hout v d]) := by
  unfold primitiveDigest packInstr padInstr blockInstrs
  split <;> simp

/-- The state after a packer that fits (R104, R105). -/
def State.packed (s : State) (ws : Words) (n : Nat) : State :=
  { s.setWords ws with bitlen := BitVec.ofNat 32 (8 * n), status := 0x02, cmd := 0 }

/-- The state after a padder whose checks pass (R109, R110). -/
def State.padded (s : State) (ws : Words) : State := (s.setWords ws).finish 0x02

@[simp] theorem packFor_length (v : Variant) (m : Bytes) : (packFor v m).length = (m.length + 3) / 4 := by
  unfold packFor; split <;> simp

theorem exec_packInstr {v : Variant} {a : Fin 4} {s : State} (h : (packFor v (s.bytes a)).length ≤ wbufCap s.params) :
    exec (packInstr v (byteField a)) s = .next (s.packed (packFor v (s.bytes a)) (s.bytes a).length) := by
  have hexec : exec (packInstr v (byteField a)) s = packInto s (packFor v (s.bytes a)) (s.bytes a).length := by
    unfold packInstr packFor
    split <;> exact withByteBuf_byteField s a _
  rw [hexec, packInto, State.storeWords_some h, Option.map_some, deliver_some, complete_eq]
  rfl

theorem exec_padInstr {v : Variant} {s : State} (h8 : s.bitlen.toNat % 8 = 0)
    (hcap : paddedWords s.bitlen.toNat ≤ wbufCap s.params) (hwlen : s.wlen.toNat ≤ paddedWords s.bitlen.toNat) :
    exec (padInstr v) s = .next (s.padded (padFor v s.words s.bitlen.toNat)) := by
  have hexec : exec (padInstr v) s = padInto s (padFor v) := by
    unfold padInstr
    cases v <;> rfl
  rw [hexec, padInto, if_neg (by omega), if_neg (by omega), if_neg (by omega), complete_eq]
  rfl

/-- The chaining registers replaced. -/
def State.withH (s : State) (h : Vector Word 8) : State := { s with h := h }

/-- A completion after another one leaves `STATUS` and the command word as they were. -/
theorem complete_of_done {s : State} (hstatus : s.status = 0x02) (hcmd : s.cmd = 0) : complete s = .next s := by
  rw [complete_eq, ← hstatus, ← hcmd]

theorem exec_hinit_done {v : Variant} {s : State} (hstatus : s.status = 0x02) (hcmd : s.cmd = 0) :
    exec (.hinit v) s = .next (s.withH (initialH v)) :=
  (exec_hinit v s).trans (complete_of_done (s := s.withH _) hstatus hcmd)

theorem exec_hblk_done {v : Variant} {s : State} {i : Nat} (hwlen : 16 * i + 16 ≤ s.wlen.toNat) (himm : i < 2 ^ 16)
    (hstatus : s.status = 0x02) (hcmd : s.cmd = 0) :
    exec (.hblk v (BitVec.ofNat 16 i)) s = .next (s.withH (compress v s.h (blockAt s.words i))) := by
  have hi : (BitVec.ofNat 16 i).toNat = i := Nat.mod_eq_of_lt himm
  rw [exec_hblk, hblkOp, hi, if_neg (by omega)]
  exact complete_of_done (s := s.withH _) hstatus hcmd

theorem exec_hout_fits {v : Variant} {d : Fin 4} {s : State} (hcap : 128 ≤ s.params.bytCap) :
    exec (.hout v (byteField d)) s = .next ((s.setBytes d (unpackState v s.h)).finish 0x02) := by
  have hfits : (unpackState v s.h).length ≤ s.params.bytCap := by
    rw [unpackState_length]
    exact (digestBytes_le v).trans (by omega)
  rw [exec_hout, houtOp, withByteBuf_byteField, State.storeBytes_some hfits, deliver_some, complete_eq]
  rfl

/-- The first blocks of the content of `WBUF`, compressed one command at a time (R130, R215). -/
theorem runCommands_blockInstrs {v : Variant} {s : State} {blocks : Nat} (hwlen : 16 * blocks ≤ s.wlen.toNat)
    (himm : blocks ≤ 2 ^ 16) (hstatus : s.status = 0x02) (hcmd : s.cmd = 0) :
    runCommands (blockInstrs v blocks) s =
      .next (s.withH ((List.range blocks).foldl (fun h i => compress v h (blockAt s.words i)) s.h)) := by
  induction blocks with
  | zero => rfl
  | succ n ih =>
    have hsplit : blockInstrs v (n + 1) = blockInstrs v n ++ [.hblk v (BitVec.ofNat 16 n)] := by
      simp [blockInstrs, List.range_succ]
    rw [hsplit, runCommands_append (ih (by omega) (by omega)), List.range_succ, List.foldl_concat]
    exact runCommands_cons (exec_hblk_done hwlen himm hstatus hcmd)

/-! ### The whole sequence -/

/-- `NW` of a message of `n` bytes, in blocks (R108). -/
theorem paddedWords_bytes (n : Nat) : paddedWords (8 * n) = 16 * ((n + 8) / 64 + 1) := by
  unfold paddedWords; omega

theorem packed_length_le (n : Nat) : (n + 3) / 4 ≤ paddedWords (8 * n) := by
  unfold paddedWords; omega

/-- A padded message has `NW` words (R108, R215). -/
theorem padFor_packFor_length (v : Variant) (m : Bytes) :
    (padFor v (packFor v m) (8 * m.length)).length = paddedWords (8 * m.length) := by
  rw [padFor_length, packFor_length]
  exact max_eq_right (packed_length_le m.length)

/-- The chaining state after the blocks of the padded message (R215). -/
def chainedState (v : Variant) (m : Bytes) : Vector Word 8 :=
  compressBlocks v (initialH v) (padFor v (packFor v m) (8 * m.length))

theorem digest_eq_unpackState (v : Variant) (m : Bytes) : digest v m = unpackState v (chainedState v m) := rfl

/-- One block of `chainedState` for each block of the padded message. -/
theorem chainedState_eq_foldl (v : Variant) (m : Bytes) :
    chainedState v m = (List.range ((m.length + 8) / 64 + 1)).foldl
      (fun h i => compress v h (blockAt (padFor v (packFor v m) (8 * m.length)) i)) (initialH v) := by
  rw [chainedState, compressBlocks, padFor_packFor_length, paddedWords_bytes, Nat.mul_div_cancel_left _ (by decide)]

/-- The state after the packer and the padder: the padded message in `WBUF`. -/
def State.messagePadded (s : State) (v : Variant) (m : Bytes) : State :=
  (s.packed (packFor v m) m.length).padded (padFor v (packFor v m) (8 * m.length))

/-- The state after the primitive commands: the padded message in `WBUF`, the last chaining state, and the digest in
`BYT[d]`. -/
def State.primitivesRun (s : State) (v : Variant) (m : Bytes) (d : Fin 4) : State :=
  (((s.messagePadded v m).withH (chainedState v m)).setBytes d (digest v m)).finish 0x02

section Message
variable {s : State} {v : Variant} {m : Bytes}

theorem State.words_messagePadded (hm : m.length ≤ 32768) :
    (s.messagePadded v m).words = padFor v (packFor v m) (8 * m.length) := by
  refine State.words_setWords _ _ ?_
  rw [padFor_packFor_length, paddedWords_bytes]
  omega

theorem State.wlen_messagePadded (hm : m.length ≤ 32768) :
    (s.messagePadded v m).wlen.toNat = 16 * ((m.length + 8) / 64 + 1) := by
  rw [← State.words_length, State.words_messagePadded hm, padFor_packFor_length, paddedWords_bytes]

/-- Packing and padding write no cell but those of `WBUF`. -/
theorem State.cellRead_messagePadded {b : BufId} (hb : b ≠ .wbuf) (i : Nat) :
    (s.messagePadded v m).cellRead b i = s.cellRead b i :=
  (State.cellRead_setWords_other _ _ b i fun h => hb h.1).trans
    (State.cellRead_setWords_other _ _ b i fun h => hb h.1)

/-- The packer, then the padder, on a message that a byte buffer can hold (R104, R105, R109, R110). -/
theorem exec_padInstr_packed (hm : m.length ≤ 32768) (hcap : m.length ≤ s.params.bytCap) :
    exec (padInstr v) (s.packed (packFor v m) m.length) = .next (s.messagePadded v m) := by
  have hpacked : (packFor v m).length < 2 ^ 32 := by rw [packFor_length]; omega
  have hwords : (s.packed (packFor v m) m.length).words = packFor v m := State.words_setWords s _ hpacked
  have hbits : (s.packed (packFor v m) m.length).bitlen.toNat = 8 * m.length := Nat.mod_eq_of_lt (by omega)
  have hwlen : (s.packed (packFor v m) m.length).wlen.toNat ≤ paddedWords (8 * m.length) := by
    rw [← State.words_length, hwords, packFor_length]
    exact packed_length_le m.length
  rw [exec_padInstr (by omega) (hbits ▸ paddedWords_le_wbufCap hcap) (hbits ▸ hwlen), hwords, hbits]
  rfl

/-- `HINIT.v`, then every block of the padded message (R130, R131, R215). -/
theorem runCommands_hinit_blocks (hm : m.length ≤ 32768) :
    runCommands (.hinit v :: blockInstrs v ((m.length + 8) / 64 + 1)) (s.messagePadded v m) =
      .next ((s.messagePadded v m).withH (chainedState v m)) := by
  have hwords : ((s.messagePadded v m).withH (initialH v)).words = padFor v (packFor v m) (8 * m.length) :=
    State.words_messagePadded hm
  have hwlen : 16 * ((m.length + 8) / 64 + 1) ≤ ((s.messagePadded v m).withH (initialH v)).wlen.toNat :=
    (State.wlen_messagePadded (s := s) hm).ge
  rw [runCommands_cons (exec_hinit_done rfl rfl), runCommands_blockInstrs hwlen (by omega) rfl rfl, hwords,
    chainedState_eq_foldl]
  rfl

/-- The primitive commands on a message that fits complete. -/
theorem runCommands_primitiveDigest {a : Fin 4} (d : Fin 4) (hs : s.Fits) (ha : s.bytes a = m) :
    runCommands (primitiveDigest v (byteField a) (byteField d) ((m.length + 8) / 64 + 1)) s =
      .next (s.primitivesRun v m d) := by
  obtain ⟨-, -, hbytes, hsmall, -⟩ := legal_caps hs.params
  have hcap : m.length ≤ s.params.bytCap := by rw [← ha, State.bytes_length]; exact hs.blen a
  have hm := hcap.trans hsmall
  have hpack : (packFor v (s.bytes a)).length ≤ wbufCap s.params := by
    rw [ha, packFor_length]
    exact (packed_length_le _).trans (paddedWords_le_wbufCap hcap)
  have hout : exec (.hout v (byteField d)) ((s.messagePadded v m).withH (chainedState v m)) =
      .next (s.primitivesRun v m d) := exec_hout_fits hbytes
  rw [primitiveDigest_eq, runCommands_cons (exec_packInstr hpack), ha, runCommands_cons (exec_padInstr_packed hm hcap),
    ← List.cons_append, runCommands_append (runCommands_hinit_blocks hm), runCommands_cons hout]
  rfl

/-- `DIGEST.v` on a message in a state whose parameters are legal completes (R217). -/
theorem exec_digest_completes {a : Fin 4} (d : Fin 4) (hlegal : s.params.legal = true) (ha : s.bytes a = m) :
    exec (.digest v (byteField a) (byteField d)) s = .next ((s.setBytes d (digest v m)).scrub.finish 0x02) := by
  obtain ⟨-, -, hbytes, -⟩ := legal_caps hlegal
  have hfits : (digest v m).length ≤ s.params.bytCap := by
    rw [digest_length]
    exact (digestBytes_le v).trans (by omega)
  rw [exec_digest, digestOp, withByteBuf_byteField, withByteBuf_byteField, ha, State.storeBytes_some hfits,
    deliverScrubbed_some, complete_eq]
  rfl

/-- Outside `WBUF` the primitive commands and `DIGEST.v` leave the same cells. -/
theorem State.cellRead_primitivesRun (d : Fin 4) {b : BufId} (hb : b ≠ .wbuf) (i : Nat) :
    (s.primitivesRun v m d).cellRead b i = ((s.setBytes d (digest v m)).scrub.finish 0x02).cellRead b i := by
  have hprimitive := State.wroteCells_setBytes ((s.messagePadded v m).withH (chainedState v m)) d (digest v m) b i
  have hcompound := State.wroteCellsScrubbed_setBytes s d (digest v m) b i
  rw [if_neg hb] at hcompound
  have hother : ((s.messagePadded v m).withH (chainedState v m)).cellRead b i = s.cellRead b i :=
    State.cellRead_messagePadded hb i
  rw [hother] at hprimitive
  exact hprimitive.trans hcompound.symm

end Message

/-- Settles O45: both runs are written out, and they differ in `WBUF`, `WLEN`, `H` and `BITLEN` alone. -/
theorem digestEqualsPrimitiveCommands : Obligations.DigestEqualsPrimitiveCommands := by
  intro s v a d hs n
  have hn : n = (s.bytes a).length := (State.bytes_length s a).symm
  clear_value n
  subst hn
  obtain ⟨-, -, -, hsmall, -⟩ := legal_caps hs.params
  have hm : (s.bytes a).length ≤ 32768 := by rw [State.bytes_length]; exact (hs.blen a).trans hsmall
  have hdigest : (digest v (s.bytes a)).length < 2 ^ 32 := by
    rw [digest_length]
    exact (digestBytes_le v).trans_lt (by decide)
  have hprimitive : (s.primitivesRun v (s.bytes a) d).bytes d = digest v (s.bytes a) := State.bytes_setBytes _ d _ hdigest
  have hcompound : ((s.setBytes d (digest v (s.bytes a))).scrub.finish 0x02).bytes d = digest v (s.bytes a) :=
    State.bytes_setBytes s d _ hdigest
  exact ⟨_, _, exec_digest_completes d hs.params rfl, runCommands_primitiveDigest d hs rfl, hprimitive.trans hcompound.symm,
    rfl, fun b i hb => State.cellRead_primitivesRun d hb i, State.words_messagePadded hm, hcompound.symm⟩

end Sys2Proof.Machine
end

section
/-! The text codec (spec/40_codecs.md R100 to R103): one code point in plain arithmetic, the two equations of the recursion on texts,
and `UTF8` with its destination write. -/

namespace Sys2Proof.Machine

/-! ### One code point -/

/-- An OR into the low bits that a marker leaves 0 is an addition. -/
theorem or_eq_add_of_dvd {k marker x : Nat} (hmarker : 2 ^ k ∣ marker) (hx : x < 2 ^ k) : marker ||| x = marker + x := by
  obtain ⟨a, rfl⟩ := hmarker
  exact (Nat.two_pow_add_eq_or_of_lt hx a).symm

/-- A continuation byte holds six bits (R102). -/
theorem continuation_eq (n : Nat) : 0x80 ||| (n &&& 0x3F) = 0x80 + n % 0x40 := by
  rw [show n &&& 0x3F = n % 0x40 from Nat.and_two_pow_sub_one_eq_mod n 6]
  exact or_eq_add_of_dvd (k := 6) (by decide) (Nat.mod_lt _ (by decide))

/-- The first three ranges of R102, which take every code unit that stands alone. -/
theorem encodeCp_unit (u : CodeUnit) :
    encodeCp u.toNat =
      if u.toNat ≤ 0x7F then [BitVec.ofNat 8 u.toNat]
      else if u.toNat ≤ 0x7FF then [BitVec.ofNat 8 (0xC0 + u.toNat / 0x40), BitVec.ofNat 8 (0x80 + u.toNat % 0x40)]
      else [BitVec.ofNat 8 (0xE0 + u.toNat / 0x1000), BitVec.ofNat 8 (0x80 + u.toNat / 0x40 % 0x40),
        BitVec.ofNat 8 (0x80 + u.toNat % 0x40)] := by
  have hu := u.isLt
  unfold encodeCp
  simp only [continuation_eq, Nat.shiftRight_eq_div_pow]
  split
  · rfl
  split
  · rw [or_eq_add_of_dvd (k := 5) (by decide) (by omega)]
  rw [if_pos (by omega), or_eq_add_of_dvd (k := 4) (by decide) (by omega)]

/-- The last range of R102, which takes the code points of the surrogate pairs. -/
theorem encodeCp_supplementary {cp : Nat} (hlow : 0x10000 ≤ cp) (hhigh : cp < 0x110000) :
    encodeCp cp =
      [BitVec.ofNat 8 (0xF0 + cp / 0x40000), BitVec.ofNat 8 (0x80 + cp / 0x1000 % 0x40),
       BitVec.ofNat 8 (0x80 + cp / 0x40 % 0x40), BitVec.ofNat 8 (0x80 + cp % 0x40)] := by
  unfold encodeCp
  simp only [continuation_eq, Nat.shiftRight_eq_div_pow]
  rw [if_neg (by omega), if_neg (by omega), if_neg (by omega), or_eq_add_of_dvd (k := 4) (by decide) (by omega)]

theorem encodeCp_unit_length (u : CodeUnit) : 1 ≤ (encodeCp u.toNat).length ∧ (encodeCp u.toNat).length ≤ 3 := by
  rw [encodeCp_unit]
  split
  · simp
  split <;> simp

theorem encodeCp_ascii {u : CodeUnit} (hu : u.toNat < 0x80) : encodeCp u.toNat = [u.setWidth 8] := by
  rw [encodeCp_unit, if_pos (by omega), BitVec.ofNat_toNat]

/-! ### Surrogate pairs -/

/-- A high surrogate with a low one after it (R101). -/
def SurrogatePair (u v : CodeUnit) : Prop :=
  0xD800 ≤ u.toNat ∧ u.toNat ≤ 0xDBFF ∧ 0xDC00 ≤ v.toNat ∧ v.toNat ≤ 0xDFFF

theorem surrogates_iff (u v : CodeUnit) : (isHighSurrogate u && isLowSurrogate v) = true ↔ SurrogatePair u v := by
  simp [isHighSurrogate, isLowSurrogate, SurrogatePair, and_assoc]

/-- The code point of a pair: ten bits from each of its units (R101). -/
theorem SurrogatePair.codePoint_eq {u v : CodeUnit} (h : SurrogatePair u v) :
    pairCodePoint u v = 0x10000 + (u.toNat - 0xD800) * 0x400 + (v.toNat - 0xDC00) := by
  obtain ⟨hu, hu', hv, hv'⟩ := h
  have hlow (n : Nat) : n &&& 0x3FF = n % 0x400 := Nat.and_two_pow_sub_one_eq_mod n 10
  unfold pairCodePoint
  rw [hlow, hlow, Nat.shiftLeft_eq]
  omega

/-- The pairs give the code points above the range of one unit (R102). -/
theorem SurrogatePair.codePoint_range {u v : CodeUnit} (h : SurrogatePair u v) :
    0x10000 ≤ pairCodePoint u v ∧ pairCodePoint u v < 0x110000 := by
  rw [h.codePoint_eq]
  obtain ⟨hu, hu', hv, hv'⟩ := h
  omega

/-! ### Texts -/

theorem toUtf8Bytes_pair {u v : CodeUnit} (h : SurrogatePair u v) (rest : Text) :
    toUtf8Bytes (u :: v :: rest) = encodeCp (pairCodePoint u v) ++ toUtf8Bytes rest := by
  rw [toUtf8Bytes, if_pos ((surrogates_iff u v).mpr h)]

theorem toUtf8Bytes_unit {u : CodeUnit} {rest : Text} (h : ∀ v more, rest = v :: more → ¬ SurrogatePair u v) :
    toUtf8Bytes (u :: rest) = encodeCp u.toNat ++ toUtf8Bytes rest := by
  cases rest with
  | nil => simp [toUtf8Bytes]
  | cons v more => rw [toUtf8Bytes, if_neg fun hpair => h v more rfl ((surrogates_iff u v).mp hpair)]

/-- Induction along the two equations of `toUtf8Bytes`: a text is empty, or begins with a surrogate pair, or with a unit that
stands alone. -/
theorem text_induction {motive : Text → Prop} (nil : motive [])
    (pair : ∀ u v rest, SurrogatePair u v → motive rest → motive (u :: v :: rest))
    (unit : ∀ u rest, (∀ v more, rest = v :: more → ¬ SurrogatePair u v) → motive rest → motive (u :: rest)) :
    ∀ t, motive t := by
  intro t
  induction t using toUtf8Bytes.induct with
  | case1 => exact nil
  | case2 u => exact unit u [] (fun _ _ h => by cases h) nil
  | case3 u v rest h ih => exact pair u v rest ((surrogates_iff u v).mp h) ih
  | case4 u v rest h ih =>
    refine unit u (v :: rest) (fun _ _ heq hpair => h ?_) ih
    cases heq
    exact (surrogates_iff u v).mpr hpair

/-- R103. -/
theorem toUtf8Bytes_length (t : Text) : t.length ≤ (toUtf8Bytes t).length ∧ (toUtf8Bytes t).length ≤ 3 * t.length := by
  induction t using text_induction with
  | nil => simp [toUtf8Bytes]
  | pair u v rest h ih =>
    obtain ⟨hlow, hhigh⟩ := h.codePoint_range
    simp only [toUtf8Bytes_pair h, encodeCp_supplementary hlow hhigh, List.length_append, List.length_cons, List.length_nil]
    omega
  | unit u rest h ih =>
    obtain ⟨hlow, hhigh⟩ := encodeCp_unit_length u
    simp only [toUtf8Bytes_unit h, List.length_append, List.length_cons]
    omega

theorem toUtf8Bytes_ascii {t : Text} (ht : ∀ u ∈ t, u.toNat < 0x80) : toUtf8Bytes t = t.map fun u => u.setWidth 8 := by
  induction t with
  | nil => rfl
  | cons u rest ih =>
    obtain ⟨hu, hrest⟩ := List.forall_mem_cons.mp ht
    have halone : ∀ v more, rest = v :: more → ¬ SurrogatePair u v := by
      rintro v more - ⟨hhigh, -⟩
      omega
    rw [toUtf8Bytes_unit halone, encodeCp_ascii hu, ih hrest]
    rfl

/-! ### The statements -/

/-- Settles O29: the two equations of the recursion, with the bytes of one code point in each. -/
theorem utf8Bytes : Obligations.Utf8Bytes := by
  refine ⟨rfl, fun u v rest hu hu' hv hv' => ?_, fun u rest h => ?_, toUtf8Bytes_length, fun _ => toUtf8Bytes_ascii⟩
  · have hpair : SurrogatePair u v := ⟨hu, hu', hv, hv'⟩
    obtain ⟨hlow, hhigh⟩ := hpair.codePoint_range
    rw [toUtf8Bytes_pair hpair, encodeCp_supplementary hlow hhigh, hpair.codePoint_eq]
  · rw [toUtf8Bytes_unit fun v more hrest hpair => h ⟨v, more, hrest, hpair⟩, encodeCp_unit]

theorem exec_utf8 (s : State) (a : Fin 8) (d : Fin 4) :
    exec (.utf8 (textField a) (byteField d)) s = deliver s (s.storeBytes d (toUtf8Bytes (s.text a))) := by
  change execUtf8 (textField a) (byteField d) s = _
  rw [execUtf8, withByteBuf_byteField, textBuf_textField]

/-- Settles O30: the command is the destination write of the bytes, which the capacity decides. -/
theorem utf8Completes : Obligations.Utf8Completes := by
  intro s a d hlegal out
  rw [exec_utf8]
  exact ⟨deliver_storeBytes_none, deliver_storeBytes hlegal⟩

end Sys2Proof.Machine
end

section
/-! The packers and the padders (spec/40_codecs.md R104 to R110): a word as the sum of its bytes, and the commands with every cell
they leave. Each pair of commands goes through one argument, over the function in which the two differ. -/

namespace Sys2Proof.Machine

/-! ### One word -/

theorem append_toNat {v w : Nat} (x : BitVec v) (y : BitVec w) : (x ++ y).toNat = 2 ^ w * x.toNat + y.toNat := by
  rw [BitVec.toNat_append, Nat.shiftLeft_eq, Nat.mul_comm, Nat.two_pow_add_eq_or_of_lt y.isLt]

/-- Four bytes, the first one highest, as a sum (R105). -/
theorem wordBE_eq_add (b0 b1 b2 b3 : Byte) :
    wordBE b0 b1 b2 b3 =
      (b0.setWidth 32 <<< 24) + (b1.setWidth 32 <<< 16) + (b2.setWidth 32 <<< 8) + b3.setWidth 32 := by
  apply BitVec.eq_of_toNat_eq
  simp only [wordBE, append_toNat, BitVec.toNat_add, BitVec.toNat_shiftLeft, BitVec.toNat_setWidth, Nat.shiftLeft_eq]
  omega

/-- The two byte orders are each other's mirror image (R104, R105). -/
theorem wordLE_eq_wordBE (b0 b1 b2 b3 : Byte) : wordLE b0 b1 b2 b3 = wordBE b3 b2 b1 b0 := rfl

/-- Four bytes, the first one lowest, as a sum (R104). -/
theorem wordLE_eq_add (b0 b1 b2 b3 : Byte) :
    wordLE b0 b1 b2 b3 =
      b0.setWidth 32 + (b1.setWidth 32 <<< 8) + (b2.setWidth 32 <<< 16) + (b3.setWidth 32 <<< 24) := by
  rw [wordLE_eq_wordBE, wordBE_eq_add]
  ring

/-! ### The packers -/

/-- A packer on a state whose lengths fit: every cell of `WBUF` under `WLEN` takes its word (R104, R105). -/
theorem packInto_completes {s : State} {a : Fin 4} (hs : s.Fits) (word : Byte → Byte → Byte → Byte → Word) :
    ∃ t : State, packInto s (packWords word (s.bytes a)) (s.bytes a).length = .next t ∧
      t = { s with mem := t.mem, wlen := BitVec.ofNat 32 ((s.blen[a].toNat + 3) / 4),
                   bitlen := BitVec.ofNat 32 (8 * s.blen[a].toNat), status := 0x02, cmd := 0 } ∧
      ∀ b j, t.cellRead b j =
        if b = .wbuf ∧ j < (s.blen[a].toNat + 3) / 4 then
          word ((s.bytes a).getD (4 * j) 0) ((s.bytes a).getD (4 * j + 1) 0) ((s.bytes a).getD (4 * j + 2) 0)
            ((s.bytes a).getD (4 * j + 3) 0)
        else s.cellRead b j := by
  have hlen : (packWords word (s.bytes a)).length = (s.blen[a].toNat + 3) / 4 := by
    rw [packWords_length, State.bytes_length]
  have hcap : (packWords word (s.bytes a)).length ≤ wbufCap s.params :=
    hlen ▸ (packed_length_le _).trans (paddedWords_le_wbufCap (hs.blen a))
  obtain ⟨t, hexec, ht, hcells⟩ := packInto_fits (s := s) (s.bytes a).length hcap
  rw [hlen, State.bytes_length] at ht
  refine ⟨t, hexec, ht, fun b j => ?_⟩
  rw [hcells b j, hlen]
  split
  next h => exact packWords_getD word _ j (by rw [State.bytes_length]; exact h.2)
  next => rfl

theorem exec_packle (s : State) (a : Fin 4) :
    exec (.packle (byteField a)) s = packInto s (packWords wordLE (s.bytes a)) (s.bytes a).length :=
  withByteBuf_byteField s a _

theorem exec_packbe (s : State) (a : Fin 4) :
    exec (.packbe (byteField a)) s = packInto s (packWords wordBE (s.bytes a)) (s.bytes a).length :=
  withByteBuf_byteField s a _

/-- Settles O31: the packed words, each the sum of its four bytes. -/
theorem packleCompletes : Obligations.PackleCompletes := by
  intro s a hs
  obtain ⟨t, hexec, ht, hcells⟩ := packInto_completes (a := a) hs wordLE
  refine ⟨t, (exec_packle s a).trans hexec, ht, fun b j => ?_⟩
  rw [hcells b j, wordLE_eq_add]
  rfl

/-- Settles O32: as for `PACKLE`, with the bytes in the other order. -/
theorem packbeCompletes : Obligations.PackbeCompletes := by
  intro s a hs
  obtain ⟨t, hexec, ht, hcells⟩ := packInto_completes (a := a) hs wordBE
  refine ⟨t, (exec_packbe s a).trans hexec, ht, fun b j => ?_⟩
  rw [hcells b j, wordBE_eq_add]
  rfl

/-! ### The padders -/

/-- The three checks of a padder, each reached when the ones before pass (R109, R110). -/
theorem padInto_errors (s : State) (pad : Words → Nat → Words) :
    (s.bitlen.toNat % 8 ≠ 0 → padInto s pad = .next { s with status := 0x56, cmd := 0 }) ∧
    (s.bitlen.toNat % 8 = 0 → wbufCap s.params < paddedWords s.bitlen.toNat →
      padInto s pad = .next { s with status := 0x66, cmd := 0 }) ∧
    (s.bitlen.toNat % 8 = 0 → paddedWords s.bitlen.toNat ≤ wbufCap s.params →
      paddedWords s.bitlen.toNat < s.wlen.toNat → padInto s pad = .next { s with status := 0x56, cmd := 0 }) := by
  unfold padInto
  refine ⟨fun h8 => ?_, fun h8 hcap => ?_, fun h8 hcap hwlen => ?_⟩
  · rw [if_pos h8, raise_eq, statusError_illegalParameter]
  · rw [if_neg (by omega), if_pos hcap, raise_eq, statusError_capacityExceeded]
  · rw [if_neg (by omega), if_neg (by omega), if_pos hwlen, raise_eq, statusError_illegalParameter]

/-- The content of `WBUF`, 0 from `WLEN` on. -/
theorem State.words_getD (s : State) (j : Nat) :
    s.words.getD j 0 = if j < s.wlen.toNat then s.cellRead .wbuf j else 0 := by
  unfold State.words
  split <;> simp [State.cellRead, Memory.read, *]

/-- What both padders do: the marker at `shift`, then `x` in the last word but one and `y` in the last (R109, R110). -/
def paddedWith (ws : Words) (bits shift : Nat) (x y : Word) : Words :=
  ((markPadding ws bits shift).set (paddedWords bits - 2) x).set (paddedWords bits - 1) y

theorem padLE_eq (ws : Words) (bits : Nat) : padLE ws bits = paddedWith ws bits (bits % 32) (BitVec.ofNat 32 bits) 0 := rfl

theorem padBE_eq (ws : Words) (bits : Nat) :
    padBE ws bits = paddedWith ws bits (24 - bits % 32) 0 (BitVec.ofNat 32 bits) := rfl

@[simp] theorem paddedWith_length (ws : Words) (bits shift : Nat) (x y : Word) :
    (paddedWith ws bits shift x y).length = max ws.length (paddedWords bits) := by
  simp [paddedWith]

theorem paddedWith_getD (ws : Words) {bits j : Nat} (shift : Nat) (x y : Word) (hj : j < paddedWords bits) :
    (paddedWith ws bits shift x y).getD j 0 =
      if j = paddedWords bits - 2 then x
      else if j = paddedWords bits - 1 then y
      else ws.getD j 0 ||| (if j = bits / 32 then 0x80#32 <<< shift else 0) := by
  have hpos := paddedWords_pos bits
  have hlen : j < (markPadding ws bits shift).length := by
    rw [markPadding_length]
    exact hj.trans_le (le_max_right _ _)
  rw [← markPadding_getD ws bits shift j hj, paddedWith, List.getD_eq_getElem?_getD, List.getD_eq_getElem?_getD]
  by_cases hx : j = paddedWords bits - 2
  · subst hx
    rw [List.getElem?_set_ne (by omega), List.getElem?_set_self hlen, if_pos rfl, Option.getD_some]
  by_cases hy : j = paddedWords bits - 1
  · subst hy
    rw [List.getElem?_set_self (by simpa using hlen), if_neg hx, if_pos rfl, Option.getD_some]
  · rw [List.getElem?_set_ne (Ne.symm hy), List.getElem?_set_ne (Ne.symm hx), if_neg hx, if_neg hy]

/-- A padder whose checks pass, with every cell (R109, R110). -/
theorem padInto_completes {s : State} {pad : Words → Nat → Words} {shift : Nat} {x y : Word}
    (hpad : pad s.words s.bitlen.toNat = paddedWith s.words s.bitlen.toNat shift x y)
    (h8 : s.bitlen.toNat % 8 = 0) (hcap : paddedWords s.bitlen.toNat ≤ wbufCap s.params)
    (hwlen : s.wlen.toNat ≤ paddedWords s.bitlen.toNat) :
    ∃ t : State, padInto s pad = .next t ∧
      t = { s with mem := t.mem, wlen := BitVec.ofNat 32 (paddedWords s.bitlen.toNat), status := 0x02, cmd := 0 } ∧
      ∀ b j, t.cellRead b j =
        if b = .wbuf ∧ j < paddedWords s.bitlen.toNat then
          if j = paddedWords s.bitlen.toNat - 2 then x
          else if j = paddedWords s.bitlen.toNat - 1 then y
          else (if j < s.wlen.toNat then s.cellRead .wbuf j else 0) |||
            (if j = s.bitlen.toNat / 32 then (0x80 : Word) <<< shift else 0)
        else s.cellRead b j := by
  have hlen : (pad s.words s.bitlen.toNat).length = paddedWords s.bitlen.toNat := by
    rw [hpad, paddedWith_length, State.words_length, max_eq_right hwlen]
  obtain ⟨t, hexec, ht, hcells⟩ := padInto_fits (pad := pad) h8 hcap hwlen
  refine ⟨t, hexec, hlen ▸ ht, fun b j => ?_⟩
  rw [hcells b j, hlen]
  split
  next h => rw [hpad, paddedWith_getD _ _ _ _ h.2, State.words_getD]; rfl
  next => rfl

/-- Settles O33: the checks, then the padded sequence word by word. -/
theorem padleCompletes : Obligations.PadleCompletes := by
  intro s l nw
  obtain ⟨hparameter, hcapacity, hlength⟩ := padInto_errors s padLE
  have hpad : padLE s.words l = paddedWith s.words l (l % 32) s.bitlen 0 := by
    rw [padLE_eq, BitVec.ofNat_toNat, BitVec.setWidth_eq]
  exact ⟨hparameter, hcapacity, hlength, padInto_completes hpad⟩

/-- Settles O34: as for `PADLE`, with the other marker and the last two words exchanged. -/
theorem padbeCompletes : Obligations.PadbeCompletes := by
  intro s l nw
  obtain ⟨hparameter, hcapacity, hlength⟩ := padInto_errors s padBE
  have hpad : padBE s.words l = paddedWith s.words l (24 - l % 32) 0 s.bitlen := by
    rw [padBE_eq, BitVec.ofNat_toNat, BitVec.setWidth_eq]
  exact ⟨hparameter, hcapacity, hlength, padInto_completes hpad⟩

end Sys2Proof.Machine
end

section
/-! The padders against the published padding (spec/40_codecs.md R111): the message, the byte 0x80, zero bytes and the length, packed
as one byte string, is word for word what a padder makes of the packed message. -/

namespace Sys2Proof.Machine

/-! ### The padded byte string -/

/-- The message, the byte 0x80, `z` zero bytes and the bytes of the length (R111). -/
def publishedPadding (m : Bytes) (z : Nat) (lengthBytes : Bytes) : Bytes :=
  m ++ [0x80] ++ List.replicate z 0 ++ lengthBytes

/-- The byte 0x80 at offset `n` of a string of zero bytes. -/
def markerByte (n i : Nat) : Byte := if i = n then 0x80 else 0

@[simp] theorem publishedPadding_length (m : Bytes) (z : Nat) (lengthBytes : Bytes) :
    (publishedPadding m z lengthBytes).length = m.length + 1 + z + lengthBytes.length := by
  simp [publishedPadding]
  omega

/-- Before the length: the message with the marker behind it. -/
theorem publishedPadding_getD {m : Bytes} {z i : Nat} (lengthBytes : Bytes) (hi : i < m.length + 1 + z) :
    (publishedPadding m z lengthBytes).getD i 0 = m.getD i 0 ||| markerByte m.length i := by
  have hpre : i < (m ++ [0x80] ++ List.replicate z 0).length := by simp; omega
  rw [publishedPadding, List.getD_append _ _ _ _ hpre]
  rcases lt_trichotomy i m.length with hlt | rfl | hgt
  · rw [List.append_assoc, List.getD_append _ _ _ _ hlt, markerByte, if_neg hlt.ne]
    exact BitVec.or_zero.symm
  · simp [markerByte]
  · obtain ⟨k, rfl⟩ := Nat.exists_eq_add_of_le (Nat.succ_le_of_lt hgt)
    rw [List.getD_append_right _ _ _ _ (by simp), List.getD_eq_default m _ (by omega), markerByte, if_neg hgt.ne']
    simp only [List.getD_eq_getElem?_getD, List.getElem?_replicate]
    split <;> simp

theorem publishedPadding_getD_length (m : Bytes) (z : Nat) (lengthBytes : Bytes) (k : Nat) :
    (publishedPadding m z lengthBytes).getD (m.length + 1 + z + k) 0 = lengthBytes.getD k 0 := by
  have hlen : (m ++ [0x80] ++ List.replicate z (0 : Byte)).length = m.length + 1 + z := by simp; omega
  rw [publishedPadding, List.getD_append_right _ _ _ _ (by omega), hlen, Nat.add_sub_cancel_left]

/-! ### The two byte orders -/

/-- What the two ways of making a word of four bytes have in common: they work bit by bit, and a marker behind
`4 * q + r` bytes, which is byte `r` of its word, is the marker of the padder shifted (R109, R110). -/
structure ByteOrder (word : Byte → Byte → Byte → Byte → Word) (shift : Nat → Nat) : Prop where
  zero : word 0 0 0 0 = 0
  or (a0 a1 a2 a3 b0 b1 b2 b3 : Byte) :
    word (a0 ||| b0) (a1 ||| b1) (a2 ||| b2) (a3 ||| b3) = word a0 a1 a2 a3 ||| word b0 b1 b2 b3
  marker (q r : Nat) (hr : r < 4) :
    word (markerByte r 0) (markerByte r 1) (markerByte r 2) (markerByte r 3) = 0x80#32 <<< shift (4 * q + r)

theorem ByteOrder.big : ByteOrder wordBE (fun n => 24 - 8 * n % 32) where
  zero := by decide
  or _ _ _ _ _ _ _ _ := by simp only [wordBE, ← BitVec.or_append]
  marker q r hr := by
    have hshift : 8 * (4 * q + r) % 32 = 8 * r := by omega
    rw [hshift]
    interval_cases r <;> decide

theorem ByteOrder.little : ByteOrder wordLE (fun n => 8 * n % 32) where
  zero := by decide
  or _ _ _ _ _ _ _ _ := by simp only [wordLE, ← BitVec.or_append]
  marker q r hr := by
    have hshift : 8 * (4 * q + r) % 32 = 8 * r := by omega
    rw [hshift]
    interval_cases r <;> decide

section Order
variable {word : Byte → Byte → Byte → Byte → Word} {shift : Nat → Nat}

/-- Word `j` of a packed byte string, every byte beyond its end read as 0. -/
theorem ByteOrder.packWords_getD (h : ByteOrder word shift) (m : Bytes) (j : Nat) :
    (packWords word m).getD j 0 =
      word (m.getD (4 * j + 0) 0) (m.getD (4 * j + 1) 0) (m.getD (4 * j + 2) 0) (m.getD (4 * j + 3) 0) := by
  by_cases hj : j < (m.length + 3) / 4
  · exact Machine.packWords_getD word m j hj
  · rw [List.getD_eq_default _ _ (by rw [packWords_length]; omega), List.getD_eq_default m _ (by omega),
      List.getD_eq_default m _ (by omega), List.getD_eq_default m _ (by omega), List.getD_eq_default m _ (by omega), h.zero]

/-- Word `j` of the packed marker. -/
theorem ByteOrder.word_markerByte (h : ByteOrder word shift) (n j : Nat) :
    word (markerByte n (4 * j + 0)) (markerByte n (4 * j + 1)) (markerByte n (4 * j + 2)) (markerByte n (4 * j + 3)) =
      if j = 8 * n / 32 then 0x80#32 <<< shift n else 0 := by
  split
  next hj =>
    have hoffset (k : Nat) : markerByte n (4 * j + k) = markerByte (n % 4) k := by
      unfold markerByte
      exact if_congr (by omega) rfl rfl
    have hn : n = 4 * j + n % 4 := by omega
    have hmarker := h.marker j (n % 4) (Nat.mod_lt _ (by decide))
    rw [← hn] at hmarker
    rw [← hmarker, hoffset, hoffset, hoffset, hoffset]
  next hj =>
    have hoffset (k : Nat) (hk : k < 4) : markerByte n (4 * j + k) = 0 := if_neg (by omega)
    rw [hoffset 0 (by decide), hoffset 1 (by decide), hoffset 2 (by decide), hoffset 3 (by decide), h.zero]

/-- Packing the published padding is padding the packed message (R111). -/
theorem ByteOrder.packWords_publishedPadding (h : ByteOrder word shift) {m lengthBytes : Bytes} {z : Nat}
    (hlength : lengthBytes.length = 8) (hz : m.length + 1 + z + 8 = 4 * paddedWords (8 * m.length)) :
    packWords word (publishedPadding m z lengthBytes) =
      paddedWith (packWords word m) (8 * m.length) (shift m.length)
        (word (lengthBytes.getD 0 0) (lengthBytes.getD 1 0) (lengthBytes.getD 2 0) (lengthBytes.getD 3 0))
        (word (lengthBytes.getD 4 0) (lengthBytes.getD 5 0) (lengthBytes.getD 6 0) (lengthBytes.getD 7 0)) := by
  have hfits := packed_length_le m.length
  apply List.ext_getElem
  · rw [packWords_length, publishedPadding_length, paddedWith_length, packWords_length, max_eq_right hfits]
    omega
  intro j hj hj'
  have hnw : j < paddedWords (8 * m.length) := by
    rwa [paddedWith_length, packWords_length, max_eq_right hfits] at hj'
  rw [← List.getD_eq_getElem _ 0 hj, ← List.getD_eq_getElem _ 0 hj', h.packWords_getD, paddedWith_getD _ _ _ _ hnw]
  split
  next =>
    have hbyte (k : Nat) : (publishedPadding m z lengthBytes).getD (4 * j + k) 0 = lengthBytes.getD k 0 := by
      rw [← publishedPadding_getD_length m z lengthBytes k, show 4 * j = m.length + 1 + z by omega]
    rw [hbyte, hbyte, hbyte, hbyte]
  split
  next =>
    have hbyte (k : Nat) : (publishedPadding m z lengthBytes).getD (4 * j + k) 0 = lengthBytes.getD (4 + k) 0 := by
      rw [← publishedPadding_getD_length m z lengthBytes (4 + k), ← Nat.add_assoc,
        show 4 * j = m.length + 1 + z + 4 by omega]
    rw [hbyte, hbyte, hbyte, hbyte]
  next =>
    have hbyte (k : Nat) (hk : k < 4) := publishedPadding_getD (m := m) (z := z) (i := 4 * j + k) lengthBytes (by omega)
    rw [hbyte 0 (by decide), hbyte 1 (by decide), hbyte 2 (by decide), hbyte 3 (by decide), h.or, h.packWords_getD,
      h.word_markerByte]

end Order

/-! ### The length -/

/-- The low four bytes of a number, highest first, are its low word. -/
theorem wordBE_bytes (x : Nat) :
    wordBE (BitVec.ofNat 8 (x / 2 ^ 24)) (BitVec.ofNat 8 (x / 2 ^ 16)) (BitVec.ofNat 8 (x / 2 ^ 8))
      (BitVec.ofNat 8 (x / 2 ^ 0)) =
      BitVec.ofNat 32 x := by
  apply BitVec.eq_of_toNat_eq
  simp only [wordBE, append_toNat, BitVec.toNat_ofNat]
  omega

/-- The high four bytes of a number that one word holds are 0. -/
theorem wordBE_high_bytes {x : Nat} (hx : x < 2 ^ 32) :
    wordBE (BitVec.ofNat 8 (x / 2 ^ 56)) (BitVec.ofNat 8 (x / 2 ^ 48)) (BitVec.ofNat 8 (x / 2 ^ 40))
      (BitVec.ofNat 8 (x / 2 ^ 32)) = 0 := by
  rw [Nat.div_eq_of_lt (by omega), Nat.div_eq_of_lt (by omega), Nat.div_eq_of_lt (by omega), Nat.div_eq_of_lt (by omega)]
  rfl

/-- Settles O35: both padders by `packWords_publishedPadding`, with the two words of the length read from its bytes. -/
theorem paddingIsThePublishedPadding : Obligations.PaddingIsThePublishedPadding := by
  intro m hm
  have hz : m.length + 1 + (63 - (m.length + 8) % 64) + 8 = 4 * paddedWords (8 * m.length) := by
    rw [paddedWords_bytes]
    omega
  refine ⟨63 - (m.length + 8) % 64, by omega, by omega, ?_, ?_⟩
  · refine .trans ?_ (ByteOrder.little.packWords_publishedPadding (by simp) hz).symm
    rw [padLE_eq, ← wordBE_bytes, ← wordBE_high_bytes hm]
    rfl
  · refine .trans ?_ (ByteOrder.big.packWords_publishedPadding (by simp) hz).symm
    rw [padBE_eq, ← wordBE_bytes, ← wordBE_high_bytes hm]
    rfl

end Sys2Proof.Machine
end

section
/-! The digest bytes (spec/40_codecs.md R112): each byte of `unpackState` from its register, and `HOUT.v` with its destination
write. -/

namespace Sys2Proof.Machine

/-- Where every part has four members, member `i` of the joined list stands in part `i / 4`. -/
theorem getD_flatMap_four {α β : Type} {f : α → List β} (hf : ∀ x, (f x).length = 4) (l : List α) (x : α) (y : β) {i : Nat}
    (hi : i < 4 * l.length) : (l.flatMap f).getD i y = (f (l.getD (i / 4) x)).getD (i % 4) y := by
  induction l generalizing i with
  | nil => simp at hi
  | cons a l ih =>
    rw [List.flatMap_cons]
    by_cases h : i < 4
    · rw [List.getD_append _ _ _ _ (by rw [hf]; exact h), Nat.div_eq_of_lt h, Nat.mod_eq_of_lt h]
      rfl
    · have hdiv : i / 4 = (i - 4) / 4 + 1 := by omega
      have hmod : i % 4 = (i - 4) % 4 := by omega
      rw [List.length_cons] at hi
      rw [List.getD_append_right _ _ _ _ (by rw [hf]; omega), hf, ih (by omega), hdiv, List.getD_cons_succ, hmod]

/-- How far the byte at offset `i` of a word stands from bit 0, in each byte order (R112). -/
def byteShift (littleEndian : Bool) (i : Nat) : Nat := if littleEndian then 8 * i else 24 - 8 * i

theorem unpackLE_getD (w : Word) {i : Nat} (hi : i < 4) : (unpackLE w).getD i 0 = (w >>> byteShift true i).setWidth 8 := by
  interval_cases i <;> rfl

theorem unpackBE_getD (w : Word) {i : Nat} (hi : i < 4) : (unpackBE w).getD i 0 = (w >>> byteShift false i).setWidth 8 := by
  interval_cases i <;> rfl

/-- Four digest bytes from each register (R11). -/
theorem digestBytes_eq (v : Variant) : v.digestBytes = 4 * v.stateWords := by cases v <;> rfl

theorem stateWords_le (v : Variant) : v.stateWords ≤ 8 := by cases v <;> decide

/-- Byte `i` of the digest, from register `i / 4` (R112). -/
theorem unpackState_getD (v : Variant) (h : Vector Word 8) {i : Nat} (hi : i < v.digestBytes) :
    (unpackState v h).getD i 0 = (h.toList.getD (i / 4) 0 >>> byteShift v.littleEndian (i % 4)).setWidth 8 := by
  have hlt : i < 4 * v.stateWords := digestBytes_eq v ▸ hi
  have hmod : i % 4 < 4 := Nat.mod_lt _ (by decide)
  have hlen : i < 4 * (h.toList.take v.stateWords).length := by
    rw [List.length_take, Vector.length_toList, min_eq_left (stateWords_le v)]
    exact hlt
  have hword : (h.toList.take v.stateWords).getD (i / 4) 0 = h.toList.getD (i / 4) 0 := by
    rw [List.getD_eq_getElem?_getD, List.getElem?_take_of_lt (by omega), List.getD_eq_getElem?_getD]
  unfold unpackState
  cases v.littleEndian with
  | true => rw [if_pos rfl, getD_flatMap_four (fun _ => rfl) _ 0 0 hlen, hword, unpackLE_getD _ hmod]
  | false => rw [if_neg (by decide), getD_flatMap_four (fun _ => rfl) _ 0 0 hlen, hword, unpackBE_getD _ hmod]

/-- `HOUT.v` for any variant (R112). -/
theorem exec_hout_completes (v : Variant) {s : State} (d : Fin 4) (hlegal : s.params.legal = true) :
    ∃ t : State, exec (.hout v (byteField d)) s = .next t ∧
      t = { s with mem := t.mem, blen := s.blen.set d (BitVec.ofNat 32 v.digestBytes), status := 0x02, cmd := 0 } ∧
      ∀ b j, t.cellRead b j =
        if b = .byt d ∧ j < v.digestBytes then
          (s.h.toList.getD (j / 4) 0 >>> byteShift v.littleEndian (j % 4)) &&& 0xFF
        else s.cellRead b j := by
  obtain ⟨-, -, hcap, -⟩ := legal_caps hlegal
  refine ⟨_, exec_hout_fits hcap, by rw [← unpackState_length v s.h]; rfl, fun b j => ?_⟩
  have hcells := State.wroteCells_setBytes s d (unpackState v s.h) b j
  rw [byteCells, List.length_map, unpackState_length] at hcells
  refine hcells.trans ?_
  split
  next h =>
    refine .trans ?_ (storedIn_byt d _).symm
    rw [← unpackState_getD v s.h h.2]
    exact List.getD_map _ 0 fun x : Byte => x.setWidth 32
  next => rfl

/-- Settles O36: `exec_hout_completes` for each of the seven variants. -/
theorem houtCompletes : Obligations.HoutCompletes := by
  intro s d i dw le hlegal hi
  have hvariant : ∃ v : Variant, i = .hout v (byteField d) ∧ dw = v.digestBytes ∧ le = v.littleEndian := by
    simp only [List.mem_cons, Prod.mk.injEq, List.not_mem_nil, or_false] at hi
    rcases hi with h | h | h | h | h | h | h
    exacts [⟨.md4, h⟩, ⟨.md5, h⟩, ⟨.md5l, h⟩, ⟨.sha1, h⟩, ⟨.sha256, h⟩, ⟨.sha256l, h⟩, ⟨.rmd160, h⟩]
  obtain ⟨v, rfl, rfl, rfl⟩ := hvariant
  exact exec_hout_completes v d hlegal

end Sys2Proof.Machine
end

section
/-! The hash primitives, MD4 and MD5 (spec/41_md4_md5.md): the initial values, the block check, the words of a block, and the
steps of a compression as sequences of working variables. -/

namespace Sys2Proof.Machine

/-! ### HINIT and HBLK of any variant -/

/-- `HINIT.v` for any variant (R131). -/
theorem exec_hinit_completes (v : Variant) (s : State) :
    exec (.hinit v) s = .next { s with h := initialH v, status := 0x02, cmd := 0 } :=
  (exec_hinit v s).trans (complete_eq _)

/-- `HBLK.v` of a block that is not inside the content of `WBUF` (R130). -/
theorem exec_hblk_outside (v : Variant) {s : State} {imm : BitVec 16} (h : s.wlen.toNat < 16 * imm.toNat + 16) :
    exec (.hblk v imm) s = .next { s with status := 0x56, cmd := 0 } := by
  rw [exec_hblk, hblkOp, if_pos h, raise_eq, statusError_illegalParameter]

/-- `HBLK.v` of a block inside the content of `WBUF` (R130). -/
theorem exec_hblk_inside (v : Variant) {s : State} {imm : BitVec 16} (h : 16 * imm.toNat + 16 ≤ s.wlen.toNat) :
    exec (.hblk v imm) s =
      .next { s with h := compress v s.h (blockAt s.words imm.toNat), status := 0x02, cmd := 0 } := by
  rw [exec_hblk, hblkOp, if_neg (by omega), complete_eq]

/-- Settles O37: `exec_hinit_completes` for each of the seven variants. -/
theorem hinitLoads : Obligations.HinitLoads := by
  intro s
  simp only [List.forall_mem_cons, List.not_mem_nil, false_imp_iff, implies_true, and_true]
  exact ⟨⟨exec_hinit_completes .md4 s, exec_hinit_completes .md5 s, exec_hinit_completes .md5l s⟩,
    ⟨exec_hinit_completes .sha1 s, exec_hinit_completes .rmd160 s⟩,
    exec_hinit_completes .sha256 s, exec_hinit_completes .sha256l s⟩

/-- Word `k` of block `i`, a cell of `WBUF` where the block is inside the content (R130). -/
theorem State.blockAt_words_getD {s : State} {i k : Nat} (hwlen : 16 * i + 16 ≤ s.wlen.toNat) (hk : k < 16) :
    (blockAt s.words i).getD k 0 = s.cellRead .wbuf (16 * i + k) := by
  have hword : (blockAt s.words i).getD k 0 = s.words.getD (16 * i + k) 0 := by
    simp [blockAt, List.getD_eq_getElem?_getD, List.getElem?_take_of_lt hk, List.getElem?_drop]
  rw [hword, State.words_getD, if_pos (by omega)]

/-! ### Steps as a sequence -/

/-- The working variables after the first `j` steps of a compression. -/
def afterSteps {V : Type} (step : V → Nat → V) (start : V) : Nat → V
  | 0 => start
  | j + 1 => step (afterSteps step start j) j

/-- The steps of the model, in order, give the last member of the sequence. -/
theorem foldl_range_eq_afterSteps {V : Type} (step : V → Nat → V) (start : V) (steps : Nat) :
    (List.range steps).foldl step start = afterSteps step start steps := by
  induction steps with
  | zero => rfl
  | succ j ih => rw [List.range_succ, List.foldl_concat, ih, afterSteps]

/-- The working variables of MD4 and MD5 before the first step (R130). -/
def mdStart (h : Vector Word 8) : MdVars := ⟨h[0], h[1], h[2], h[3]⟩

/-- The feed-forward of MD4 and MD5, from the variables after the last step (R130). -/
theorem mdCompress_eq (step : MdVars → Nat → MdVars) (steps : Nat) (h : Vector Word 8) :
    mdCompress step steps h =
      #v[h[0] + (afterSteps step (mdStart h) steps).a, h[1] + (afterSteps step (mdStart h) steps).b,
         h[2] + (afterSteps step (mdStart h) steps).c, h[3] + (afterSteps step (mdStart h) steps).d,
         h[4], h[5], h[6], h[7]] := by
  rw [← foldl_range_eq_afterSteps]
  rfl

theorem not32_eq (x : Word) : not32 x = ~~~x := BitVec.xor_allOnes

/-! ### The steps of MD4 -/

/-- Every MD4 step reads a word of its block (R132). -/
theorem md4Order_getD_lt (j : Nat) : md4Order.getD j 0 < 16 := by
  have hall : ∀ k ∈ md4Order, k < 16 := by decide
  rcases Nat.lt_or_ge j md4Order.length with hj | hj
  · rw [List.getD_eq_getElem _ _ hj]
    exact hall _ (List.getElem_mem hj)
  · rw [List.getD_eq_default _ _ hj]
    decide

section Md4
variable (x : Words) (v : MdVars) {j : Nat}

/-- The three variables that an MD4 step moves (R133). -/
theorem md4Step_moves (j : Nat) : (md4Step x v j).a = v.d ∧ (md4Step x v j).c = v.b ∧ (md4Step x v j).d = v.c :=
  ⟨rfl, rfl, rfl⟩

/-- The new word of an MD4 step of the first round (R132, R133). -/
theorem md4Step_b_of_lt_16 (hj : j < 16) :
    (md4Step x v j).b = rotl32 (v.a + ((v.b &&& v.c) ||| (~~~v.b &&& v.d)) + x.getD (md4Order.getD j 0) 0 + 0x00000000)
      ([3, 7, 11, 19].getD (j % 4) 0) := by
  simp only [md4Step, md4F, md4C, md4S, if_pos hj, choose, not32_eq]

/-- The new word of an MD4 step of the second round (R132, R133). -/
theorem md4Step_b_of_lt_32 (h16 : 16 ≤ j) (hj : j < 32) :
    (md4Step x v j).b =
      rotl32 (v.a + ((v.b &&& v.c) ||| (v.b &&& v.d) ||| (v.c &&& v.d)) + x.getD (md4Order.getD j 0) 0 + 0x5a827999)
        ([3, 5, 9, 13].getD (j % 4) 0) := by
  simp only [md4Step, md4F, md4C, md4S, if_neg h16.not_gt, if_pos hj, majority]

/-- The new word of an MD4 step of the third round (R132, R133). -/
theorem md4Step_b_of_ge_32 (h32 : 32 ≤ j) :
    (md4Step x v j).b = rotl32 (v.a + (v.b ^^^ v.c ^^^ v.d) + x.getD (md4Order.getD j 0) 0 + 0x6ed9eba1)
      ([3, 9, 11, 15].getD (j % 4) 0) := by
  have h16 : ¬ j < 16 := by omega
  simp only [md4Step, md4F, md4C, md4S, if_neg h16, if_neg h32.not_gt, parity]

end Md4

/-- Settles O38: the sequences are the working variables after each number of steps. -/
theorem hblkMd4Completes : Obligations.HblkMd4Completes := by
  refine fun s imm => ⟨fun hout => exec_hblk_outside .md4 hout, fun hin => ?_⟩
  let block := blockAt s.words imm.toNat
  let vars := afterSteps (md4Step block) (mdStart s.h)
  have hword : ∀ j, s.cellRead .wbuf (16 * imm.toNat + md4Order.getD j 0) = block.getD (md4Order.getD j 0) 0 :=
    fun j => (State.blockAt_words_getD hin (md4Order_getD_lt j)).symm
  refine ⟨fun j => (vars j).a, fun j => (vars j).b, fun j => (vars j).c, fun j => (vars j).d, ?_⟩
  simp only [hword]
  refine ⟨⟨rfl, rfl, rfl, rfl⟩, fun j hj => md4Step_b_of_lt_16 _ _ hj, fun j h16 hj => md4Step_b_of_lt_32 _ _ h16 hj,
    fun j h32 _ => md4Step_b_of_ge_32 _ _ h32, fun j _ => md4Step_moves _ _ j, ?_⟩
  calc exec (.hblkMd4 imm) s
      = .next { s with h := mdCompress (md4Step block) 48 s.h, status := 0x02, cmd := 0 } := exec_hblk_inside .md4 hin
    _ = _ := by rw [mdCompress_eq]

/-! ### The steps of MD5 -/

section Md5
variable (x : Words) (v : MdVars) {j : Nat}

/-- The three variables that an MD5 step moves (R143). -/
theorem md5Step_moves (j : Nat) : (md5Step x v j).a = v.d ∧ (md5Step x v j).c = v.b ∧ (md5Step x v j).d = v.c :=
  ⟨rfl, rfl, rfl⟩

/-- The new word of an MD5 step of the first round (R140, R143). -/
theorem md5Step_b_of_lt_16 (hj : j < 16) :
    (md5Step x v j).b = v.b + rotl32 (v.a + ((v.b &&& v.c) ||| (~~~v.b &&& v.d)) + x.getD j 0 + md5T.getD j 0)
      ([7, 12, 17, 22].getD (j % 4) 0) := by
  simp only [md5Step, md5F, md5Index, md5S, if_pos hj, choose, not32_eq]

/-- The new word of an MD5 step of the second round (R140, R143). -/
theorem md5Step_b_of_lt_32 (h16 : 16 ≤ j) (hj : j < 32) :
    (md5Step x v j).b =
      v.b + rotl32 (v.a + ((v.b &&& v.d) ||| (v.c &&& ~~~v.d)) + x.getD ((5 * j + 1) % 16) 0 + md5T.getD j 0)
        ([5, 9, 14, 20].getD (j % 4) 0) := by
  simp only [md5Step, md5F, md5Index, md5S, if_neg h16.not_gt, if_pos hj, not32_eq]

/-- The new word of an MD5 step of the third round (R140, R143). -/
theorem md5Step_b_of_lt_48 (h32 : 32 ≤ j) (hj : j < 48) :
    (md5Step x v j).b =
      v.b + rotl32 (v.a + (v.b ^^^ v.c ^^^ v.d) + x.getD ((3 * j + 5) % 16) 0 + md5T.getD j 0)
        ([4, 11, 16, 23].getD (j % 4) 0) := by
  have h16 : ¬ j < 16 := by omega
  simp only [md5Step, md5F, md5Index, md5S, if_neg h16, if_neg h32.not_gt, if_pos hj, parity]

/-- The new word of an MD5 step of the fourth round (R140, R143). -/
theorem md5Step_b_of_ge_48 (h48 : 48 ≤ j) :
    (md5Step x v j).b =
      v.b + rotl32 (v.a + (v.c ^^^ (v.b ||| ~~~v.d)) + x.getD (7 * j % 16) 0 + md5T.getD j 0)
        ([6, 10, 15, 21].getD (j % 4) 0) := by
  have h16 : ¬ j < 16 := by omega
  have h32 : ¬ j < 32 := by omega
  simp only [md5Step, md5F, md5Index, md5S, if_neg h16, if_neg h32, if_neg h48.not_gt, not32_eq]

end Md5

/-- Both MD5 block commands are `HBLK` of the variant MD5 (R144). -/
theorem exec_hblkMd5_or_hblkMd5l (s : State) (imm : BitVec 16) :
    ∀ i ∈ [Instr.hblkMd5 imm, .hblkMd5l imm], exec i s = exec (.hblk .md5 imm) s := by
  obtain ⟨-, hlegacy, -⟩ := legacyVariantsAreAliases s imm 0 0 0
  exact List.forall_mem_cons.2 ⟨rfl, List.forall_mem_singleton.2 hlegacy⟩

/-- Settles O39: as for MD4, the two commands by `exec_hblkMd5_or_hblkMd5l`. -/
theorem hblkMd5Completes : Obligations.HblkMd5Completes := by
  refine fun s imm => ⟨fun hout i hi => ?_, fun hin => ?_⟩
  · rw [exec_hblkMd5_or_hblkMd5l s imm i hi, exec_hblk_outside .md5 hout]
  let block := blockAt s.words imm.toNat
  let vars := afterSteps (md5Step block) (mdStart s.h)
  have hword : ∀ k < 16, s.cellRead .wbuf (16 * imm.toNat + k) = block.getD k 0 :=
    fun k hk => (State.blockAt_words_getD hin hk).symm
  have hmod : ∀ k, s.cellRead .wbuf (16 * imm.toNat + k % 16) = block.getD (k % 16) 0 :=
    fun k => hword _ (Nat.mod_lt k (by decide))
  refine ⟨fun j => (vars j).a, fun j => (vars j).b, fun j => (vars j).c, fun j => (vars j).d, ?_⟩
  simp only [hmod]
  refine ⟨⟨rfl, rfl, rfl, rfl⟩, fun j hj => ?_, fun j h16 hj => md5Step_b_of_lt_32 _ _ h16 hj,
    fun j h32 hj => md5Step_b_of_lt_48 _ _ h32 hj, fun j h48 _ => md5Step_b_of_ge_48 _ _ h48,
    fun j _ => md5Step_moves _ _ j, fun i hi => ?_⟩
  · rw [hword j hj]
    exact md5Step_b_of_lt_16 _ _ hj
  · calc exec i s
        = exec (.hblk .md5 imm) s := exec_hblkMd5_or_hblkMd5l s imm i hi
      _ = .next { s with h := mdCompress (md5Step block) 64 s.h, status := 0x02, cmd := 0 } := exec_hblk_inside .md5 hin
      _ = _ := by rw [mdCompress_eq]

end Sys2Proof.Machine
end

section
/-! SHA-1 (spec/42_sha1.md): the message schedule by its recurrence, and the steps of a compression as sequences of working
variables. -/

namespace Sys2Proof.Machine

/-! ### Message schedules -/

/-- A schedule is built at its end: the next word, from the words so far. -/
theorem schedule_succ (next : Words → Word) (more : Nat) (x : Words) :
    schedule next (more + 1) x = schedule next more x ++ [next (schedule next more x).reverse] := by
  simp [schedule, List.range_succ]

@[simp] theorem schedule_length (next : Words → Word) (more : Nat) (x : Words) :
    (schedule next more x).length = x.length + more := by
  induction more with
  | zero => simp [schedule]
  | succ n ih => rw [schedule_succ, List.length_append, ih, List.length_singleton, Nat.add_assoc]

/-- A schedule begins with the words of the block. -/
theorem schedule_getD_of_lt (next : Words → Word) (more : Nat) {x : Words} {t : Nat} (ht : t < x.length) :
    (schedule next more x).getD t 0 = x.getD t 0 := by
  induction more with
  | zero => simp [schedule]
  | succ n ih => rw [schedule_succ, List.getD_append _ _ _ _ (by rw [schedule_length]; omega), ih]

/-- Every word after the block comes from the words before it, the last one first. -/
theorem schedule_getD_of_ge (next : Words → Word) {more : Nat} {x : Words} {t : Nat} (hge : x.length ≤ t)
    (hlt : t < x.length + more) :
    (schedule next more x).getD t 0 = next ((schedule next more x).take t).reverse := by
  induction more with
  | zero => omega
  | succ n ih =>
    have hlen := schedule_length next n x
    rw [schedule_succ]
    rcases Nat.lt_or_ge t (x.length + n) with hold | hnew
    · rw [List.getD_append _ _ _ _ (hlen ▸ hold), List.take_append_of_le_length (hlen ▸ hold.le), ih hold]
    · obtain rfl : t = (schedule next n x).length := by omega
      rw [List.getD_append_right _ _ _ _ le_rfl, List.take_left, Nat.sub_self, List.getD_cons_zero]

/-- Of the words before word `t`, the last one first, number `k` is word `t - 1 - k`. -/
theorem getD_reverse_take {ws : Words} {t k : Nat} (ht : t ≤ ws.length) (hk : k < t) :
    (ws.take t).reverse.getD k 0 = ws.getD (t - 1 - k) 0 := by
  have hlen : (ws.take t).length = t := List.length_take_of_le ht
  rw [List.getD_reverse k (hlen.symm ▸ hk), hlen, List.getD_eq_getElem?_getD, List.getElem?_take_of_lt (by omega),
    List.getD_eq_getElem?_getD]

theorem blockAt_words_length {s : State} {i : Nat} (hwlen : 16 * i + 16 ≤ s.wlen.toNat) :
    (blockAt s.words i).length = 16 := by
  rw [blockAt, List.length_take_of_le]
  rw [List.length_drop, State.words_length]
  omega

/-! ### SHA-1 -/

/-- The recurrence of the SHA-1 schedule (R162). -/
theorem sha1_schedule_getD {x : Words} {t : Nat} (hx : x.length = 16) (h16 : 16 ≤ t) (ht : t < 80) :
    let w := fun k => (schedule sha1Next 64 x).getD k 0
    w t = rotl32 (w (t - 3) ^^^ w (t - 8) ^^^ w (t - 14) ^^^ w (t - 16)) 1 := by
  intro w
  have hle : t ≤ (schedule sha1Next 64 x).length := by rw [schedule_length]; omega
  have hback : ∀ k < 16, ((schedule sha1Next 64 x).take t).reverse.getD k 0 = w (t - 1 - k) :=
    fun k hk => getD_reverse_take hle (by omega)
  calc w t
      = sha1Next ((schedule sha1Next 64 x).take t).reverse := schedule_getD_of_ge sha1Next (by omega) (by omega)
    _ = _ := by
      rw [sha1Next, hback 2 (by decide), hback 7 (by decide), hback 13 (by decide), hback 15 (by decide)]
      rfl

/-- The five working variables before the first step (R163). -/
def shaStart (h : Vector Word 8) : ShaVars := ⟨h[0], h[1], h[2], h[3], h[4]⟩

/-- The feed-forward of SHA-1, from the variables after the last step (R163). -/
theorem sha1Compress_eq (h : Vector Word 8) (x : Words) :
    let r := afterSteps (sha1Step (schedule sha1Next 64 x)) (shaStart h) 80
    sha1Compress h x = #v[h[0] + r.a, h[1] + r.b, h[2] + r.c, h[3] + r.d, h[4] + r.e, h[5], h[6], h[7]] := by
  rw [← foldl_range_eq_afterSteps]
  rfl

section Sha1
variable (w : Words) (v : ShaVars) {t : Nat}

/-- The four variables that a SHA-1 step moves (R163). -/
theorem sha1Step_moves (t : Nat) :
    (sha1Step w v t).b = v.a ∧ (sha1Step w v t).c = rotl32 v.b 30 ∧ (sha1Step w v t).d = v.c ∧ (sha1Step w v t).e = v.d :=
  ⟨rfl, rfl, rfl, rfl⟩

/-- The new word of a SHA-1 step of the first round (R162, R163). -/
theorem sha1Step_a_of_lt_20 (ht : t < 20) :
    (sha1Step w v t).a =
      rotl32 v.a 5 + ((v.b &&& v.c) ||| (~~~v.b &&& v.d)) + v.e + 0x5a827999 + w.getD t 0 := by
  simp only [sha1Step, sha1F, sha1K, if_pos ht, choose, not32_eq]

/-- The new word of a SHA-1 step of the second round (R162, R163). -/
theorem sha1Step_a_of_lt_40 (h20 : 20 ≤ t) (ht : t < 40) :
    (sha1Step w v t).a = rotl32 v.a 5 + (v.b ^^^ v.c ^^^ v.d) + v.e + 0x6ed9eba1 + w.getD t 0 := by
  simp only [sha1Step, sha1F, sha1K, if_neg h20.not_gt, if_pos ht, parity]

/-- The new word of a SHA-1 step of the third round (R162, R163). -/
theorem sha1Step_a_of_lt_60 (h40 : 40 ≤ t) (ht : t < 60) :
    (sha1Step w v t).a =
      rotl32 v.a 5 + ((v.b &&& v.c) ||| (v.b &&& v.d) ||| (v.c &&& v.d)) + v.e + 0x8f1bbcdc + w.getD t 0 := by
  have h20 : ¬ t < 20 := by omega
  simp only [sha1Step, sha1F, sha1K, if_neg h20, if_neg h40.not_gt, if_pos ht, majority]

/-- The new word of a SHA-1 step of the fourth round (R162, R163). -/
theorem sha1Step_a_of_ge_60 (h60 : 60 ≤ t) :
    (sha1Step w v t).a = rotl32 v.a 5 + (v.b ^^^ v.c ^^^ v.d) + v.e + 0xca62c1d6 + w.getD t 0 := by
  have h20 : ¬ t < 20 := by omega
  have h40 : ¬ t < 40 := by omega
  simp only [sha1Step, sha1F, sha1K, if_neg h20, if_neg h40, if_neg h60.not_gt, parity]

end Sha1

/-- Settles O40: `w` is the model's schedule of the block, the other sequences are the working variables after each number of
steps. -/
theorem hblkSha1Completes : Obligations.HblkSha1Completes := by
  refine fun s imm => ⟨fun hout => exec_hblk_outside .sha1 hout, fun hin => ?_⟩
  let block := blockAt s.words imm.toNat
  let words := schedule sha1Next 64 block
  let vars := afterSteps (sha1Step words) (shaStart s.h)
  have hblock : block.length = 16 := blockAt_words_length hin
  have hfirst : ∀ t < 16, words.getD t 0 = s.cellRead .wbuf (16 * imm.toNat + t) := fun t ht =>
    (schedule_getD_of_lt sha1Next 64 (hblock.symm ▸ ht)).trans (State.blockAt_words_getD hin ht)
  refine ⟨fun t => words.getD t 0, fun t => (vars t).a, fun t => (vars t).b, fun t => (vars t).c, fun t => (vars t).d,
    fun t => (vars t).e, hfirst, fun t h16 ht => sha1_schedule_getD hblock h16 ht, ⟨rfl, rfl, rfl, rfl, rfl⟩,
    fun t ht => sha1Step_a_of_lt_20 _ _ ht, fun t h20 ht => sha1Step_a_of_lt_40 _ _ h20 ht,
    fun t h40 ht => sha1Step_a_of_lt_60 _ _ h40 ht, fun t h60 _ => sha1Step_a_of_ge_60 _ _ h60,
    fun t _ => sha1Step_moves _ _ t, ?_⟩
  calc exec (.hblkSha1 imm) s
      = .next { s with h := sha1Compress s.h block, status := 0x02, cmd := 0 } := exec_hblk_inside .sha1 hin
    _ = _ := by rw [sha1Compress_eq]

end Sys2Proof.Machine
end

section
/-! SHA-256 (spec/43_sha256.md): the recurrence of its message schedule, and the steps of a compression as sequences of working
variables. -/

namespace Sys2Proof.Machine

/-- The recurrence of the SHA-256 schedule, with `Gamma0` and `Gamma1` written out (R178). -/
theorem sha2_schedule_getD {x : Words} {t : Nat} (hx : x.length = 16) (h16 : 16 ≤ t) (ht : t < 64) :
    let w := fun k => (schedule sha2Next 48 x).getD k 0
    w t = (rotr32 (w (t - 2)) 17 ^^^ rotr32 (w (t - 2)) 19 ^^^ (w (t - 2) >>> 10)) + w (t - 7) +
      (rotr32 (w (t - 15)) 7 ^^^ rotr32 (w (t - 15)) 18 ^^^ (w (t - 15) >>> 3)) + w (t - 16) := by
  intro w
  have hle : t ≤ (schedule sha2Next 48 x).length := by rw [schedule_length]; omega
  have hback : ∀ k < 16, ((schedule sha2Next 48 x).take t).reverse.getD k 0 = w (t - 1 - k) :=
    fun k hk => getD_reverse_take hle (by omega)
  calc w t
      = sha2Next ((schedule sha2Next 48 x).take t).reverse := schedule_getD_of_ge sha2Next (by omega) (by omega)
    _ = _ := by
      rw [sha2Next, hback 1 (by decide), hback 6 (by decide), hback 14 (by decide), hback 15 (by decide)]
      rfl

/-- The eight working variables before the first step (R179). -/
def sha2Start (h : Vector Word 8) : Sha2Vars := ⟨h[0], h[1], h[2], h[3], h[4], h[5], h[6], h[7]⟩

/-- The feed-forward of SHA-256, from the variables after the last step (R179). -/
theorem sha2Compress_eq (h : Vector Word 8) (x : Words) :
    let r := afterSteps (sha2Step (schedule sha2Next 48 x)) (sha2Start h) 64
    sha2Compress h x =
      #v[h[0] + r.a, h[1] + r.b, h[2] + r.c, h[3] + r.d, h[4] + r.e, h[5] + r.f, h[6] + r.g, h[7] + r.h] := by
  rw [← foldl_range_eq_afterSteps]
  rfl

/-- `Ch` with the complement of `BitVec` (R178). -/
theorem sha2Ch_eq (e f g : Word) : sha2Ch e f g = (e &&& f) ^^^ (~~~e &&& g) := by
  rw [sha2Ch, not32_eq]

/-- A SHA-256 step: the two new words `a` and `e` from `T1` and `T2`, and the six variables that it moves (R179). -/
theorem sha2Step_vars (w : Words) (v : Sha2Vars) (t : Nat) :
    let t1 := v.h + (rotr32 v.e 6 ^^^ rotr32 v.e 11 ^^^ rotr32 v.e 25) + ((v.e &&& v.f) ^^^ (~~~v.e &&& v.g)) +
      sha256K.getD t 0 + w.getD t 0
    let t2 := (rotr32 v.a 2 ^^^ rotr32 v.a 13 ^^^ rotr32 v.a 22) + ((v.a &&& v.b) ^^^ (v.a &&& v.c) ^^^ (v.b &&& v.c))
    (sha2Step w v t).a = t1 + t2 ∧ (sha2Step w v t).b = v.a ∧ (sha2Step w v t).c = v.b ∧ (sha2Step w v t).d = v.c ∧
    (sha2Step w v t).e = v.d + t1 ∧ (sha2Step w v t).f = v.e ∧ (sha2Step w v t).g = v.f ∧ (sha2Step w v t).h = v.g := by
  rw [← sha2Ch_eq]
  exact ⟨rfl, rfl, rfl, rfl, rfl, rfl, rfl, rfl⟩

/-- Both SHA-256 block commands are `HBLK` of the variant SHA-256 (R180). -/
theorem exec_hblkSha256_or_hblkSha256l (s : State) (imm : BitVec 16) :
    ∀ i ∈ [Instr.hblkSha256 imm, .hblkSha256l imm], exec i s = exec (.hblk .sha256 imm) s := by
  obtain ⟨-, -, -, -, -, -, hlegacy, -⟩ := legacyVariantsAreAliases s imm 0 0 0
  exact List.forall_mem_cons.2 ⟨rfl, List.forall_mem_singleton.2 hlegacy⟩

/-- Settles O41: as for SHA-1, the two commands by `exec_hblkSha256_or_hblkSha256l`. -/
theorem hblkSha256Completes : Obligations.HblkSha256Completes := by
  refine fun s imm => ⟨fun hout i hi => ?_, fun hin => ?_⟩
  · rw [exec_hblkSha256_or_hblkSha256l s imm i hi, exec_hblk_outside .sha256 hout]
  let block := blockAt s.words imm.toNat
  let words := schedule sha2Next 48 block
  let vars := afterSteps (sha2Step words) (sha2Start s.h)
  have hblock : block.length = 16 := blockAt_words_length hin
  have hfirst : ∀ t < 16, words.getD t 0 = s.cellRead .wbuf (16 * imm.toNat + t) := fun t ht =>
    (schedule_getD_of_lt sha2Next 48 (hblock.symm ▸ ht)).trans (State.blockAt_words_getD hin ht)
  refine ⟨fun t => words.getD t 0, fun t => (vars t).a, fun t => (vars t).b, fun t => (vars t).c, fun t => (vars t).d,
    fun t => (vars t).e, fun t => (vars t).f, fun t => (vars t).g, fun t => (vars t).h, hfirst,
    fun t h16 ht => sha2_schedule_getD hblock h16 ht, ⟨rfl, rfl, rfl, rfl, rfl, rfl, rfl, rfl⟩,
    fun t _ => sha2Step_vars words (vars t) t, fun i hi => ?_⟩
  calc exec i s
      = exec (.hblk .sha256 imm) s := exec_hblkSha256_or_hblkSha256l s imm i hi
    _ = .next { s with h := sha2Compress s.h block, status := 0x02, cmd := 0 } := exec_hblk_inside .sha256 hin
    _ = _ := by rw [sha2Compress_eq]

end Sys2Proof.Machine
end

section
/-! RIPEMD-160 (spec/44_ripemd160.md): the selection function by ranges, the message words that the two lines read, and the steps
of a line as sequences of working variables. -/

namespace Sys2Proof.Machine

/-! ### The selection function -/

/-- The selection function of range `r`, sixteen consecutive steps of the left line (R197). -/
def rmdSelect (r : Nat) (x y z : Word) : Word :=
  match r with
  | 0 => x ^^^ y ^^^ z
  | 1 => (x &&& y) ||| (~~~x &&& z)
  | 2 => (x ||| ~~~y) ^^^ z
  | 3 => (x &&& z) ||| (y &&& ~~~z)
  | _ => x ^^^ (y ||| ~~~z)

/-- The function of a step is that of its range (R197). -/
theorem rmdF_eq_rmdSelect (j : Nat) (x y z : Word) : rmdF j x y z = rmdSelect (j / 16) x y z := by
  simp only [rmdF, parity, choose, not32_eq]
  split_ifs with h16 h32 h48 h64
  · rw [Nat.div_eq_of_lt h16, rmdSelect]
  · rw [show j / 16 = 1 by omega, rmdSelect]
  · rw [show j / 16 = 2 by omega, rmdSelect]
  · rw [show j / 16 = 3 by omega, rmdSelect]
  · rw [rmdSelect] <;> omega

/-! ### The message words -/

/-- An entry of a table of hexadecimal digits, or 0 after its end, is the number of a word of a block (R197). -/
theorem nibbleRows_getD_lt (rows : List Nat) (j : Nat) : (nibbleRows rows).getD j 0 < 16 := by
  have hall : ∀ k ∈ nibbleRows rows, k < 16 := by
    intro k hk
    obtain ⟨row, -, hk⟩ := List.mem_flatMap.1 hk
    simp only [unpack, List.mem_map] at hk
    obtain ⟨i, -, rfl⟩ := hk
    exact Nat.mod_lt _ (by decide)
  rcases Nat.lt_or_ge j (nibbleRows rows).length with hj | hj
  · rw [List.getD_eq_getElem _ _ hj]
    exact hall _ (List.getElem_mem hj)
  · rw [List.getD_eq_default _ _ hj]
    decide

/-! ### The steps of the two lines -/

/-- A step of the left line, line 0, or of the right one, line 1 (R198). -/
def rmdStep (x : Words) : Fin 2 → ShaVars → Nat → ShaVars
  | 0 => rmdLeftStep x
  | 1 => rmdRightStep x

section Rmd160
variable (x : Words) (v : ShaVars) {j : Nat}

/-- The four variables that a step of either line moves (R198). -/
theorem rmdStep_moves (l : Fin 2) (j : Nat) :
    (rmdStep x l v j).a = v.e ∧ (rmdStep x l v j).c = v.b ∧ (rmdStep x l v j).d = rotl32 v.c 10 ∧
      (rmdStep x l v j).e = v.d := by
  match l with
  | 0 => exact ⟨rfl, rfl, rfl, rfl⟩
  | 1 => exact ⟨rfl, rfl, rfl, rfl⟩

/-- The new word of a step of the left line (R198). -/
theorem rmdStep_left_b (j : Nat) :
    (rmdStep x 0 v j).b =
      rotl32 (v.a + rmdSelect (j / 16) v.b v.c v.d + x.getD (rmdRl.getD j 0) 0 + rmdKl.getD (j / 16) 0)
        (rmdSl.getD j 0) + v.e := by
  rw [← rmdF_eq_rmdSelect]
  rfl

/-- The new word of a step of the right line, which takes the functions of the ranges in the opposite order (R198). -/
theorem rmdStep_right_b (hj : j < 80) :
    (rmdStep x 1 v j).b =
      rotl32 (v.a + rmdSelect (4 - j / 16) v.b v.c v.d + x.getD (rmdRr.getD j 0) 0 + rmdKr.getD (j / 16) 0)
        (rmdSr.getD j 0) + v.e := by
  have hrange : (79 - j) / 16 = 4 - j / 16 := by omega
  rw [← hrange, ← rmdF_eq_rmdSelect]
  rfl

end Rmd160

/-- The cross-wise combination of the two lines, from the variables after their last steps (R198). -/
theorem rmdCompress_eq (h : Vector Word 8) (x : Words) :
    let r := fun l => afterSteps (rmdStep x l) (shaStart h) 80
    rmdCompress h x =
      #v[h[1] + (r 0).c + (r 1).d, h[2] + (r 0).d + (r 1).e, h[3] + (r 0).e + (r 1).a, h[4] + (r 0).a + (r 1).b,
         h[0] + (r 0).b + (r 1).c, h[5], h[6], h[7]] := by
  simp only [← foldl_range_eq_afterSteps]
  rfl

/-- Settles O42: the sequences of a line are its working variables after each number of steps. -/
theorem hblkRmd160Completes : Obligations.HblkRmd160Completes := by
  refine fun s imm => ⟨fun hout => exec_hblk_outside .rmd160 hout, fun hin => ?_⟩
  let block := blockAt s.words imm.toNat
  let vars := fun l => afterSteps (rmdStep block l) (shaStart s.h)
  have hleft : ∀ j, s.cellRead .wbuf (16 * imm.toNat + rmdRl.getD j 0) = block.getD (rmdRl.getD j 0) 0 :=
    fun j => (State.blockAt_words_getD hin (nibbleRows_getD_lt _ j)).symm
  have hright : ∀ j, s.cellRead .wbuf (16 * imm.toNat + rmdRr.getD j 0) = block.getD (rmdRr.getD j 0) 0 :=
    fun j => (State.blockAt_words_getD hin (nibbleRows_getD_lt _ j)).symm
  refine ⟨fun l j => (vars l j).a, fun l j => (vars l j).b, fun l j => (vars l j).c, fun l j => (vars l j).d,
    fun l j => (vars l j).e, ?_⟩
  simp only [hleft, hright]
  refine ⟨fun _ => ⟨rfl, rfl, rfl, rfl, rfl⟩, fun j _ => rmdStep_left_b _ _ j, fun j hj => rmdStep_right_b _ _ hj,
    fun l j _ => rmdStep_moves _ _ l j, ?_⟩
  calc exec (.hblkRmd160 imm) s
      = .next { s with h := rmdCompress s.h block, status := 0x02, cmd := 0 } := exec_hblk_inside .rmd160 hin
    _ = _ := by rw [rmdCompress_eq]

end Sys2Proof.Machine
end

section
/-! `DIGEST.v` and `HMAC.v` (spec/45_digest_hmac.md R215 to R222): the write of a digest with the scrub, and the outer hash of
`HMAC.SHA256L` as two compressions. -/

namespace Sys2Proof.Machine

/-! ### The write of a digest -/

/-- A digest of any variant fits in `BYT[d]` whatever the legal parameters are, so its write cannot fail (R217, R221). -/
theorem deliverScrubbed_storeDigest {s : State} {v : Variant} {out : Bytes} (d : Fin 4) (hlegal : s.params.legal = true)
    (hout : out.length = v.digestBytes) :
    ∃ t : State, deliverScrubbed s (s.storeBytes d out) = .next t ∧
      t = { s with mem := t.mem, blen := s.blen.set d (BitVec.ofNat 32 v.digestBytes), wlen := 0,
                   h := Vector.replicate 8 0, status := 0x02, cmd := 0 } ∧
      WroteCellsScrubbed s t (.byt d) (byteCells out) ∧ t.bytes d = out := by
  obtain ⟨-, -, hcap, -⟩ := legal_caps hlegal
  have hfits : out.length ≤ s.params.bytCap := by
    rw [hout]
    exact (digestBytes_le v).trans (by omega)
  rw [← hout]
  exact deliverScrubbed_storeBytes hlegal hfits

/-- Settles O44: the write of the digest, for each of the seven variants. -/
theorem digestCompletes : Obligations.DigestCompletes := by
  intro s a d i v dw hlegal hi
  obtain ⟨v, -, ⟨⟩⟩ := List.mem_map.1
    (show (i, v, dw) ∈ variants.map fun v => (Instr.digest v (byteField a) (byteField d), v, v.digestBytes) from hi)
  have hexec : exec (.digest v (byteField a) (byteField d)) s =
      deliverScrubbed s (s.storeBytes d (digest v (s.bytes a))) := by
    rw [exec_digest, digestOp, withByteBuf_byteField, withByteBuf_byteField]
  obtain ⟨t, hwrite, ht⟩ := deliverScrubbed_storeDigest d hlegal (digest_length v (s.bytes a))
  exact ⟨t, hexec.trans hwrite, digest_length .., ht⟩

/-! ### HMAC -/

theorem hmacOp_byteField (mac : Bytes → Bytes → Bytes) (a b d : Fin 4) (s : State) :
    hmacOp mac (byteField a) (byteField b) (byteField d) s =
      deliverScrubbed s (s.storeBytes d (mac (s.bytes a) (s.bytes b))) := by
  rw [hmacOp, withByteBuf_byteField, withByteBuf_byteField, withByteBuf_byteField]

/-- The keyed hash of every variant but SHA256L is `hmac` (R220, R221). -/
theorem exec_hmac {v : Variant} (hv : v ≠ .sha256l) (a b d : BufField) (s : State) :
    exec (.hmac v a b d) s = hmacOp (hmac v) a b d s := by
  cases v with
  | sha256l => exact absurd rfl hv
  | md4 | md5 | md5l | sha1 | sha256 | rmd160 => rfl

/-- Settles O46: the write of `hmac`, whose value is the outer digest of the statement by definition. -/
theorem hmacCompletes : Obligations.HmacCompletes := by
  intro s a b d i v dw hlegal hi
  obtain ⟨v, hv, ⟨⟩⟩ := List.mem_map.1
    (show (i, v, dw) ∈ (variants.filter (· ≠ .sha256l)).map fun v =>
      (Instr.hmac v (byteField a) (byteField b) (byteField d), v, v.digestBytes) from hi)
  have hordinary : v ≠ .sha256l := of_decide_eq_true (List.mem_filter.1 hv).2
  obtain ⟨t, hwrite, ht⟩ := deliverScrubbed_storeDigest d hlegal (hmac_length v (s.bytes a) (s.bytes b))
  exact ⟨t, (exec_hmac hordinary ..).trans ((hmacOp_byteField ..).trans hwrite), prepKey_length v (s.bytes a),
    hmac_length v (s.bytes a) (s.bytes b), ht⟩

/-! ### The outer hash of `HMAC.SHA256L` -/

/-- The last block of the outer hash as R222 unfolds it: the marker of 672 bits falls into word 5 of the inner hash, and words 6
and 7 stay. -/
def legacyLastBlock (inner : Words) : Words :=
  inner.set 5 (inner.getD 5 0 ||| 0x80000000) ++ List.replicate 7 0 ++ [0x000002a0]

@[simp] theorem legacyLastBlock_length (inner : Words) : (legacyLastBlock inner).length = inner.length + 8 := by
  simp [legacyLastBlock]

/-- `markPadding` from the words as it extends them (R110). -/
theorem markPadding_of_extended {ws p : Words} {bits shift : Nat}
    (hp : ws ++ List.replicate (paddedWords bits - ws.length) 0 = p) :
    markPadding ws bits shift = p.set (bits / 32) (p.getD (bits / 32) 0 ||| (0x80#32 <<< shift)) := by
  subst hp
  rfl

section OuterWords
variable {block0 inner : Words} (hblock0 : block0.length = 16) (hinner : inner.length = 8)
include hblock0 hinner

/-- Eight zero words follow the 24 given, and the marker of 672 bits is ORed into word 21 (R110, R222). -/
theorem markPadding_672 :
    markPadding (block0 ++ inner) 672 24 =
      block0 ++ (inner.set 5 (inner.getD 5 0 ||| 0x80000000) ++ List.replicate 8 0) := by
  have hextended : block0 ++ inner ++ List.replicate (paddedWords 672 - (block0 ++ inner).length) 0 =
      block0 ++ (inner ++ List.replicate 8 0) := by
    rw [List.length_append, hblock0, hinner, List.append_assoc]
    rfl
  have hword : (block0 ++ (inner ++ List.replicate 8 0)).getD 21 0 = inner.getD 5 0 := by
    rw [List.getD_append_right _ _ _ _ (by omega), hblock0, List.getD_append _ _ _ _ (by omega)]
  calc markPadding (block0 ++ inner) 672 24
      = (block0 ++ (inner ++ List.replicate 8 0)).set 21
          ((block0 ++ (inner ++ List.replicate 8 0)).getD 21 0 ||| 0x80000000) := markPadding_of_extended hextended
    _ = _ := by rw [hword, List.set_append_right _ _ (by omega), hblock0, List.set_append_left _ _ (by omega)]

/-- The big-endian padder on 24 words that it is told are 21 (R110, R222): words 22 and 23 are kept, the length stands in the
last word. -/
theorem padBE_672 : padBE (block0 ++ inner) 672 = block0 ++ legacyLastBlock inner := by
  have hmarked : (inner.set 5 (inner.getD 5 0 ||| 0x80000000)).length = 8 := List.length_set.trans hinner
  calc padBE (block0 ++ inner) 672
      = ((markPadding (block0 ++ inner) 672 24).set 30 0).set 31 0x000002a0 := rfl
    _ = block0 ++ (inner.set 5 (inner.getD 5 0 ||| 0x80000000) ++ ((List.replicate 8 0).set 6 0).set 7 0x000002a0) := by
      rw [markPadding_672 hblock0 hinner, List.set_append_right _ _ (by omega), List.set_append_right _ _ (by omega),
        hblock0, List.set_append_right _ _ (by omega), List.set_append_right _ _ (by omega), hmarked]
    _ = block0 ++ legacyLastBlock inner := by rw [legacyLastBlock, List.append_assoc]; rfl

end OuterWords

/-- Two blocks, compressed one after the other (R215). -/
theorem compressBlocks_two {v : Variant} {h : Vector Word 8} {block0 block1 : Words} (hblock0 : block0.length = 16)
    (hblock1 : block1.length = 16) :
    compressBlocks v h (block0 ++ block1) = compress v (compress v h block0) block1 := by
  have hfirst : blockAt (block0 ++ block1) 0 = block0 := List.take_left' hblock0
  have hsecond : blockAt (block0 ++ block1) 1 = block1 := by
    rw [blockAt, List.drop_left' hblock0, List.take_of_length_le hblock1.le]
  rw [compressBlocks, List.length_append, hblock0, hblock1]
  change compress v (compress v h (blockAt (block0 ++ block1) 0)) (blockAt (block0 ++ block1) 1) = _
  rw [hfirst, hsecond]

/-- The outer pad of a prepared key fills one block (R218, R219). -/
theorem packBE_opad_length (v : Variant) (key : Bytes) : (packBE (opad (prepKey v key))).length = 16 := by
  rw [packBE_length, opad, List.length_map, prepKey_length]

/-- The inner hash of `HMAC.SHA256L` is eight words (R222). -/
theorem packBE_digest_sha256_length (m : Bytes) : (packBE (digest .sha256 m)).length = 8 := by
  rw [packBE_length, digest_length]
  rfl

/-- `hmacLegacy`, unfolded to its two outer compressions (R222). -/
theorem hmacLegacy_eq (key data : Bytes) :
    hmacLegacy key data =
      unpackState .sha256 (compress .sha256 (compress .sha256 (initialH .sha256) (packBE (opad (prepKey .sha256 key))))
        (legacyLastBlock (packBE (digest .sha256 (ipad (prepKey .sha256 key) ++ data))))) := by
  have hblock0 := packBE_opad_length .sha256 key
  have hinner := packBE_digest_sha256_length (ipad (prepKey .sha256 key) ++ data)
  have hwhole : (opad (prepKey .sha256 key)).length % 4 = 0 := by rw [opad, List.length_map, prepKey_length]
  have hpack : packBE (opad (prepKey .sha256 key) ++ digest .sha256 (ipad (prepKey .sha256 key) ++ data)) =
      packBE (opad (prepKey .sha256 key)) ++ packBE (digest .sha256 (ipad (prepKey .sha256 key) ++ data)) :=
    packWords_append wordBE _ _ hwhole
  have hpad := padBE_672 hblock0 hinner
  have hblock1 := (legacyLastBlock_length _).trans (congrArg (· + 8) hinner)
  calc hmacLegacy key data
      = unpackState .sha256 (compressBlocks .sha256 (initialH .sha256) (padBE
          (packBE (opad (prepKey .sha256 key) ++ digest .sha256 (ipad (prepKey .sha256 key) ++ data))) 672)) := rfl
    _ = _ := by rw [hpack, hpad, compressBlocks_two hblock0 hblock1]

/-- Settles O47: the write of `hmacLegacy`, unfolded by `hmacLegacy_eq`. -/
theorem hmacLegacyCompletes : Obligations.HmacLegacyCompletes := by
  intro s a b d hlegal k0 k inner block0 block1 out
  have hout : hmacLegacy (s.bytes a) (s.bytes b) = out := hmacLegacy_eq (s.bytes a) (s.bytes b)
  have hlen : out.length = Variant.sha256.digestBytes := unpackState_length ..
  obtain ⟨t, hwrite, ht⟩ := deliverScrubbed_storeDigest d hlegal hlen
  have hexec : exec (.hmacSha256l (byteField a) (byteField b) (byteField d)) s =
      deliverScrubbed s (s.storeBytes d out) := hout ▸ hmacOp_byteField hmacLegacy a b d s
  exact ⟨t, hexec.trans hwrite, packBE_digest_sha256_length _, packBE_opad_length .sha256 (s.bytes a), hlen, ht⟩

end Sys2Proof.Machine
end

section
/-! The radix encoder (spec/46_radix.md R241 to R246): the number a dividend spells, what one pass of long division makes of it,
the digits the passes give, and `RADIX` with its checks. -/

namespace Sys2Proof.Machine

/-! ### The number a dividend spells (R242) -/

/-- The number that the 16-bit words `ws` spell when they continue the number `x`; `value` of R242 where `x` is 0. -/
def wordsValue (x : Nat) (ws : List Nat) : Nat := ws.foldl (fun v w => 65536 * v + w) x

@[simp] theorem wordsValue_nil (x : Nat) : wordsValue x [] = x := rfl
@[simp] theorem wordsValue_cons (x w : Nat) (ws : List Nat) :
    wordsValue x (w :: ws) = wordsValue (65536 * x + w) ws := rfl

theorem le_wordsValue (x : Nat) (ws : List Nat) : x ≤ wordsValue x ws := by
  induction ws generalizing x with
  | nil => simp
  | cons w ws ih => exact (by omega : x ≤ 65536 * x + w).trans (ih _)

/-- Two bytes a word: bytes and words that continue the same number spell the same number. -/
theorem wordsValue_dividendWords {b : Bytes} (heven : b.length % 2 = 0) (x : Nat) :
    wordsValue x (dividendWords b) = b.foldl (fun v y => 256 * v + y.toNat) x := by
  induction b using dividendWords.induct generalizing x with
  | case1 hi lo rest ih =>
    have hrest : rest.length % 2 = 0 := by simp only [List.length_cons] at heven; omega
    have hword : 65536 * x + (hi.toNat * 256 + lo.toNat) = 256 * (256 * x + hi.toNat) + lo.toNat := by omega
    rw [dividendWords, wordsValue_cons, ih hrest, hword]
    rfl
  | case2 b hshort =>
    match b with
    | [] => rfl
    | [_] => simp at heven
    | hi :: lo :: rest => exact absurd rfl (hshort hi lo rest)

theorem bigEndianValue_eq_wordsValue {b : Bytes} (heven : b.length % 2 = 0) :
    bigEndianValue b = wordsValue 0 (dividendWords b) := (wordsValue_dividendWords heven 0).symm

theorem dividendWords_length (b : Bytes) : (dividendWords b).length = b.length / 2 := by
  induction b using dividendWords.induct with
  | case1 hi lo rest ih => simp only [dividendWords, List.length_cons, ih]; omega
  | case2 b hshort =>
    match b with
    | [] => rfl
    | [_] => simp [dividendWords]
    | hi :: lo :: rest => exact absurd rfl (hshort hi lo rest)

theorem dividendWords_eq_nil_iff {b : Bytes} (heven : b.length % 2 = 0) : dividendWords b = [] ↔ b = [] := by
  rw [← List.length_eq_zero_iff, dividendWords_length, ← List.length_eq_zero_iff]
  omega

theorem bigEndianValue_lt (b : Bytes) : bigEndianValue b < 256 ^ b.length := by
  induction b using List.reverseRecOn with
  | nil => decide
  | append_singleton b y ih =>
    have hvalue : bigEndianValue (b ++ [y]) = 256 * bigEndianValue b + y.toNat := by simp [bigEndianValue]
    have hy : y.toNat < 256 := y.isLt
    rw [hvalue, List.length_append, List.length_singleton, Nat.pow_succ]
    omega

/-! ### One pass of long division (R243) -/

section Division
variable {n : Nat}

/-- The quotient words, continuing `q`, and the remainder are those of the dividend, continuing `n·q + x`. -/
theorem wordsValue_divideWords (n q x : Nat) (ws : List Nat) :
    wordsValue (n * q + x) ws = n * wordsValue q (divideWords n x ws).1 + (divideWords n x ws).2 := by
  induction ws generalizing q x with
  | nil => rfl
  | cons w ws ih =>
    have hdivide : n * ((x * 65536 + w) / n) + (x * 65536 + w) % n = x * 65536 + w := Nat.div_add_mod ..
    have hstep : 65536 * (n * q + x) + w =
        n * (65536 * q + (x * 65536 + w) / n) + (x * 65536 + w) % n := by linarith
    rw [wordsValue_cons, hstep, ih]
    rfl

theorem divideWords_snd_lt {x : Nat} (hx : x < n) (ws : List Nat) : (divideWords n x ws).2 < n := by
  induction ws generalizing x with
  | nil => exact hx
  | cons w ws ih => exact ih (Nat.mod_lt _ (Nat.zero_lt_of_lt hx))

/-- Dropping leading zero words keeps the number. -/
theorem wordsValue_dropWhile_zero (ws : List Nat) : wordsValue 0 (ws.dropWhile (· == 0)) = wordsValue 0 ws := by
  induction ws with
  | nil => rfl
  | cons w ws ih =>
    cases w with
    | zero => simpa using ih
    | succ w => simp

/-- Words that spell 0 are all leading zero words. -/
theorem dropWhile_zero_eq_nil {ws : List Nat} (h : wordsValue 0 ws = 0) : ws.dropWhile (· == 0) = [] := by
  induction ws with
  | nil => rfl
  | cons w ws ih =>
    have hw : w = 0 := by
      have := le_wordsValue (65536 * 0 + w) ws
      rw [wordsValue_cons] at h
      omega
    subst hw
    simpa using ih h

variable (hn : 0 < n) (dv : List Nat)
include hn

theorem radixPass_remainder_lt : (radixPass dv n).2 < n := divideWords_snd_lt hn dv

/-- A pass divides the number its dividend spells (R243). -/
theorem radixPass_eq_div_mod :
    wordsValue 0 (radixPass dv n).1 = wordsValue 0 dv / n ∧ (radixPass dv n).2 = wordsValue 0 dv % n := by
  have hquotient : wordsValue 0 (radixPass dv n).1 = wordsValue 0 (divideWords n 0 dv).1 := wordsValue_dropWhile_zero _
  have hdivide := wordsValue_divideWords n 0 0 dv
  obtain ⟨hdiv, hmod⟩ := (Nat.div_mod_unique hn).mpr
    ⟨(Nat.add_comm _ _).trans hdivide.symm, radixPass_remainder_lt hn dv⟩
  exact ⟨hquotient.trans hdiv.symm, hmod.symm⟩

/-- The loop of R244 ends with the quotient 0: the pass leaves no word of it. -/
theorem radixPass_quotient_eq_nil (h : wordsValue 0 dv / n = 0) : (radixPass dv n).1 = [] := by
  obtain ⟨hquotient, -⟩ := radixPass_eq_div_mod hn dv
  have hdrop : (radixPass dv n).1 = (divideWords n 0 dv).1.dropWhile (· == 0) := rfl
  rw [hdrop, wordsValue_dropWhile_zero] at hquotient
  exact dropWhile_zero_eq_nil (hquotient.trans h)

end Division

/-! ### The digits of all passes (R244, R245) -/

section Digits
variable {n : Nat}

@[simp] theorem radixDigits_nil (n fuel : Nat) : radixDigits n fuel [] = [] := by cases fuel <;> rfl

theorem radixDigits_succ (n fuel : Nat) {dv : List Nat} (hdv : dv ≠ []) :
    radixDigits n (fuel + 1) dv = radixDigits n fuel (radixPass dv n).1 ++ [(radixPass dv n).2] := by
  cases dv with
  | nil => exact absurd rfl hdv
  | cons w ws => rfl

theorem radixDigits_length_le (n fuel : Nat) (dv : List Nat) : (radixDigits n fuel dv).length ≤ fuel := by
  induction fuel generalizing dv with
  | zero => exact Nat.le_refl 0
  | succ fuel ih =>
    rcases eq_or_ne dv [] with rfl | hdv
    · simp
    · simpa [radixDigits_succ n fuel hdv] using ih _

/-- Every digit is the remainder of a pass (R245 (c)). -/
theorem radixDigits_lt (hn : 0 < n) (fuel : Nat) (dv : List Nat) : ∀ r ∈ radixDigits n fuel dv, r < n := by
  induction fuel generalizing dv with
  | zero => simp [radixDigits]
  | succ fuel ih =>
    rcases eq_or_ne dv [] with rfl | hdv
    · simp
    · rw [radixDigits_succ n fuel hdv]
      intro r hr
      rcases List.mem_append.1 hr with hr | hr
      · exact ih _ r hr
      · rw [List.mem_singleton.1 hr]
        exact radixPass_remainder_lt hn dv

/-- With a pass for each digit, the digits of a positive number are its digits in base `n`, most significant first
(R245 (a)): each pass splits off the last one. -/
theorem radixDigits_eq_digits (hn : 2 ≤ n) {fuel : Nat} {dv : List Nat} (hpos : 0 < wordsValue 0 dv)
    (hfuel : wordsValue 0 dv < n ^ fuel) : radixDigits n fuel dv = (Nat.digits n (wordsValue 0 dv)).reverse := by
  induction fuel generalizing dv with
  | zero => exact absurd hfuel (by simpa using hpos.ne')
  | succ fuel ih =>
    have hdv : dv ≠ [] := by
      rintro rfl
      exact absurd hpos (by simp)
    have hn0 : 0 < n := by omega
    obtain ⟨hquotient, hremainder⟩ := radixPass_eq_div_mod hn0 dv
    have hrest : radixDigits n fuel (radixPass dv n).1 = (Nat.digits n (wordsValue 0 dv / n)).reverse := by
      rcases Nat.eq_zero_or_pos (wordsValue 0 dv / n) with hzero | hmore
      · simp [radixPass_quotient_eq_nil hn0 dv hzero, hzero]
      · rw [← hquotient] at hmore ⊢
        refine ih hmore ?_
        rw [hquotient]
        exact Nat.div_lt_of_lt_mul (by rwa [Nat.pow_succ'] at hfuel)
    rw [radixDigits_succ n fuel hdv, hrest, hremainder, Nat.digits_def' hn hpos, List.reverse_cons]

/-- A dividend of zero words gives the one digit 0 (R245 (a)). -/
theorem radixDigits_zero (hn : 0 < n) {fuel : Nat} {dv : List Nat} (hfuel : 0 < fuel) (hdv : dv ≠ [])
    (hzero : wordsValue 0 dv = 0) : radixDigits n fuel dv = [0] := by
  obtain ⟨fuel, rfl⟩ := Nat.exists_eq_add_one_of_ne_zero hfuel.ne'
  obtain ⟨-, hremainder⟩ := radixPass_eq_div_mod hn dv
  have hquotient := radixPass_quotient_eq_nil hn dv (by simp [hzero])
  rw [radixDigits_succ n fuel hdv, hquotient, hremainder, hzero]
  simp

theorem radixDigits_ne_nil (n : Nat) {fuel : Nat} {dv : List Nat} (hfuel : 0 < fuel) (hdv : dv ≠ []) :
    radixDigits n fuel dv ≠ [] := by
  obtain ⟨fuel, rfl⟩ := Nat.exists_eq_add_one_of_ne_zero hfuel.ne'
  simp [radixDigits_succ n fuel hdv]

end Digits

/-! ### The encoder -/

/-- The model's passes, eight a byte, are enough for every alphabet with two symbols (log 21). -/
theorem bigEndianValue_lt_pow {n : Nat} (hn : 2 ≤ n) (b : Bytes) : bigEndianValue b < n ^ (8 * b.length) :=
  calc bigEndianValue b < 256 ^ b.length := bigEndianValue_lt b
    _ = 2 ^ (8 * b.length) := by rw [Nat.pow_mul]
    _ ≤ n ^ (8 * b.length) := Nat.pow_le_pow_left hn _

theorem radixEncode_eq_map {b : Bytes} (heven : b.length % 2 = 0) (alpha : Text) :
    radixEncode b alpha =
      (radixDigits alpha.length (8 * b.length) (dividendWords b)).map fun r => alpha.getD r 0 := by
  have hpasses : 16 * (dividendWords b).length = 8 * b.length := by rw [dividendWords_length]; omega
  rw [radixEncode, hpasses]

/-- Settles O48: the passes give the digits of the number the bytes spell, and each digit names a symbol. -/
theorem radixEncodeIsBaseN : Obligations.RadixEncodeIsBaseN := by
  intro b alpha heven hdistinct value n out
  have hn : 2 ≤ n := hdistinct.trans alpha.toFinset_card_le
  have hn0 : 0 < n := by omega
  have hvalue : value = wordsValue 0 (dividendWords b) := bigEndianValue_eq_wordsValue heven
  have hout : out = (radixDigits n (8 * b.length) (dividendWords b)).map fun r => alpha.getD r 0 :=
    radixEncode_eq_map heven alpha
  have hdv (hb : b ≠ []) : dividendWords b ≠ [] := fun h => hb ((dividendWords_eq_nil_iff heven).1 h)
  have hpasses (hb : b ≠ []) : 0 < 8 * b.length := Nat.mul_pos (by decide) (List.length_pos_of_ne_nil hb)
  refine ⟨fun hpos => ?positive, fun hzero hb => ?zero, fun hb => ?empty, fun hb => ?nonempty, ?bound, fun u hu => ?symbol⟩
  case positive =>
    have hfuel : value < n ^ (8 * b.length) := bigEndianValue_lt_pow hn b
    have hdigits : radixDigits n (8 * b.length) (dividendWords b) = (Nat.digits n value).reverse := by
      rw [hvalue] at hpos hfuel ⊢
      exact radixDigits_eq_digits hn hpos hfuel
    rw [hout, hdigits, List.length_map, List.length_reverse, Nat.length_digits n value hn hpos.ne']
    exact ⟨rfl, rfl⟩
  case zero =>
    rw [hout, radixDigits_zero hn0 (hpasses hb) (hdv hb) (hvalue.symm.trans hzero)]
    rfl
  case empty =>
    rw [hout, (dividendWords_eq_nil_iff heven).2 hb, radixDigits_nil]
    rfl
  case nonempty =>
    rw [hout, List.length_map]
    exact List.length_pos_of_ne_nil (radixDigits_ne_nil n (hpasses hb) (hdv hb))
  case bound =>
    rw [hout, List.length_map]
    exact radixDigits_length_le ..
  case symbol =>
    rw [hout] at hu
    obtain ⟨r, hr, rfl⟩ := List.mem_map.1 hu
    have hlt : r < alpha.length := radixDigits_lt hn0 _ _ r hr
    rw [List.getD_eq_getElem _ _ hlt]
    exact List.getElem_mem hlt

/-! ### `RADIX` -/

/-- The charset guard counts distinct code units (R246). -/
theorem charsetOk_iff (alpha : Text) : charsetOk alpha = true ↔ 2 ≤ alpha.toFinset.card := by
  rw [charsetOk, distinctCount, decide_eq_true_iff, List.card_toFinset]

section Radix
variable {s : State} (a : Fin 4) (d : Fin 8)

/-- An odd byte count is looked for first (R241). -/
theorem exec_radix_odd (hodd : s.blen[a].toNat % 2 = 1) :
    exec (.radix (byteField a) (textField d)) s = raise s .illegalParameter := by
  change execRadix (byteField a) (textField d) s = _
  rw [execRadix, withByteBuf_byteField]
  exact if_pos (by rwa [State.bytes_length])

variable (heven : s.blen[a].toNat % 2 = 0)
include heven

/-- The charset guard of `RADIX`, which compat mode makes silent (R246, R306). -/
theorem exec_radix_badCharset (hcharset : (s.text 5).toFinset.card < 2) :
    exec (.radix (byteField a) (textField d)) s =
      if s.compat then completeWarn (s.setText d []) .invalidCharset else raise s .invalidCharset := by
  have hbad : charsetOk (s.text alphaBuf) = false :=
    Bool.eq_false_iff.2 fun h => Nat.not_le.2 hcharset ((charsetOk_iff _).1 h)
  change execRadix (byteField a) (textField d) s = _
  rw [execRadix, withByteBuf_byteField, textBuf_textField]
  exact (if_neg (by rw [State.bytes_length]; omega)).trans (if_pos hbad)

/-- Both checks passed: `RADIX` is the destination write of the encoded bytes (R241). -/
theorem exec_radix_checked (hcharset : 2 ≤ (s.text 5).toFinset.card) :
    exec (.radix (byteField a) (textField d)) s = deliver s (s.storeText d (radixEncode (s.bytes a) (s.text 5))) := by
  have hok : charsetOk (s.text alphaBuf) = true := (charsetOk_iff _).2 hcharset
  change execRadix (byteField a) (textField d) s = _
  rw [execRadix, withByteBuf_byteField, textBuf_textField]
  exact (if_neg (by rw [State.bytes_length]; omega)).trans (if_neg (by simp [hok]))

end Radix

/-- Settles O49: the checks in the order of R241, then the destination write, which the capacity decides. -/
theorem radixCompletes : Obligations.RadixCompletes := by
  intro s a d hlegal i n distinct compat out
  refine ⟨fun hodd => ?odd, fun heven hcharset hcompat => ?error, fun heven hcharset hcompat => ?silent,
    fun heven hcharset hlong => ?long, fun heven hcharset hfits => ?fits⟩
  case odd => rw [exec_radix_odd a d hodd, raise_eq, statusError_illegalParameter]
  case error =>
    have hmode : ¬ s.compat = true := Bool.eq_false_iff.1 hcompat
    rw [exec_radix_badCharset a d heven hcharset, if_neg hmode, raise_eq, statusError_invalidCharset]
  case silent =>
    have hmode : s.compat = true := hcompat
    rw [exec_radix_badCharset a d heven hcharset, if_pos hmode, ← statusWarn_invalidCharset]
    exact completeWarn_empty .invalidCharset
  case long => rw [exec_radix_checked a d heven hcharset, deliver_storeText_none hlong]
  case fits =>
    rw [exec_radix_checked a d heven hcharset]
    exact deliver_storeText hlegal hfits

end Sys2Proof.Machine
end

section
/-! What every command does to `STATUS` and to the control registers, and the life of a command from its accept to its
completion (spec/60_exceptions.md R303 to R310, spec/48_derive.md R290, R291, spec/70_reset_and_hazards.md R330). The
facts about commands are read off the shapes of `Effect`. -/

namespace Sys2Proof.Machine

/-- What a command that ends in `t` has done: one of the shapes of `Effect`, then the completion. -/
theorem exec_next {i : Instr} {s t : State} (h : exec i s = .next t) : ∃ u st, Effect s i u st ∧ t = u.finish st := by
  obtain ⟨u, st, heffect, hexec⟩ := exec_effect i s
  refine ⟨u, st, heffect, ?_⟩
  rw [hexec] at h
  injection h with h
  exact h.symm

/-! ### The fields of `STATUS` -/

section Status
variable {s u : State} {i : Instr} {st : Word}

/-- Every `STATUS` that `raise` writes shows `DONE` and `ERR` alone (R303). -/
theorem statusError_fields (e : ErrorCode) :
    (statusError e).getLsbD 0 = false ∧ (statusError e).getLsbD 1 = true ∧ (statusError e).getLsbD 2 = true ∧
      (statusError e).getLsbD 3 = false := by
  cases e <;> decide

/-- Every `STATUS` of a silent path shows `DONE` and `WARN` alone (R306). -/
theorem statusWarn_fields (e : ErrorCode) :
    (statusWarn e).getLsbD 0 = false ∧ (statusWarn e).getLsbD 1 = true ∧ (statusWarn e).getLsbD 2 = false ∧
      (statusWarn e).getLsbD 3 = true := by
  cases e <;> decide

/-- A command completes with `BUSY` 0 and `DONE` 1 (R309). -/
theorem Effect.status_done (h : Effect s i u st) : st.getLsbD 0 = false ∧ st.getLsbD 1 = true := by
  cases h with
  | nop | wipe | hash | pack | pad | bytes | bytesScrubbed | text => decide
  | error _ e =>
    obtain ⟨hbusy, hdone, -⟩ := statusError_fields e
    exact ⟨hbusy, hdone⟩
  | emptyText => decide
  | engine _ _ _ _ _ _ _ hst => obtain rfl | ⟨-, rfl | rfl⟩ := hst <;> decide

/-- Only the error shape shows `ERR`. -/
theorem Effect.error_of_err (h : Effect s i u st) (herr : st.getLsbD 2 = true) :
    u = s ∧ ∃ e, e ≠ .malformedInput ∧ st = statusError e := by
  cases h with
  | error _ e he => exact ⟨rfl, e, he, rfl⟩
  | nop | wipe | hash | pack | pad | bytes | bytesScrubbed | text | emptyText => exact absurd herr (by decide)
  | engine _ _ _ _ _ _ _ hst => obtain rfl | ⟨-, rfl | rfl⟩ := hst <;> exact absurd herr (by decide)

/-- Only the silent paths show `WARN`: that of `RADIX`, and the two of the engine (R306). -/
theorem Effect.silent_of_warn (h : Effect s i u st) (hwarn : st.getLsbD 3 = true) :
    s.compat = true ∧
      (((∃ a d, i = .radix a d) ∧ st = statusWarn .invalidCharset) ∨
        (((∃ alg a b d, i = .genonce alg a b d) ∨ ∃ alg, i = .derive alg) ∧
          (st = statusWarn .invalidCharset ∨ st = statusWarn .unknownAlgorithm))) := by
  cases h with
  | error _ e =>
    obtain ⟨-, -, -, hnowarn⟩ := statusError_fields e
    rw [hnowarn] at hwarn
    cases hwarn
  | nop | wipe | hash | pack | pad | bytes | bytesScrubbed | text => exact absurd hwarn (by decide)
  | emptyText a d _ hcompat => exact ⟨hcompat, .inl ⟨⟨a, d, rfl⟩, rfl⟩⟩
  | engine _ hi _ _ _ _ _ hst =>
    obtain rfl | ⟨hcompat, hst⟩ := hst
    · exact absurd hwarn (by decide)
    · exact ⟨hcompat, .inr ⟨hi, hst⟩⟩

end Status

/-! ### What a command leaves -/

section Fields
variable {s u : State} {i : Instr} {st : Word}

/-- No shape touches `CTRL` or the model's own fields (R24; log 3, log 13). -/
theorem Effect.untouched (h : Effect s i u st) :
    u.ctrl = s.ctrl ∧ u.inputs = s.inputs ∧ u.reply = s.reply ∧ u.params = s.params ∧ u.freeIx = s.freeIx := by
  cases h with
  | error | nop | wipe | hash | pack | pad | bytes | bytesScrubbed | text | emptyText | engine =>
    exact ⟨rfl, rfl, rfl, rfl, rfl⟩

/-- The packers and `WIPE` write `BITLEN` (R30). -/
theorem Effect.bitlen_eq_or (h : Effect s i u st) :
    u.bitlen = s.bitlen ∨ i = .wipe ∨ ∃ a, i = .packle a ∨ i = .packbe a := by
  cases h with
  | error | nop | hash | pad | bytes | bytesScrubbed | text | emptyText | engine => exact .inl rfl
  | wipe => exact .inr (.inl rfl)
  | pack _ a hi => exact .inr (.inr ⟨a, hi⟩)

/-- The engine and `WIPE` write `RND` (R31). -/
theorem Effect.rnd_eq_or (h : Effect s i u st) :
    u.rnd = s.rnd ∨ i = .wipe ∨ (∃ alg a b d, i = .genonce alg a b d) ∨ ∃ alg, i = .derive alg := by
  cases h with
  | error | nop | hash | pack | pad | bytes | bytesScrubbed | text | emptyText => exact .inl rfl
  | wipe => exact .inr (.inl rfl)
  | engine _ hi => exact .inr (.inr hi)

/-- `WIPE` alone writes `PWLEN` and `LEETCTL` (R28, R29). -/
theorem Effect.pwlen_leetctl_eq_or (h : Effect s i u st) : (u.pwlen = s.pwlen ∧ u.leetctl = s.leetctl) ∨ i = .wipe := by
  cases h with
  | error | nop | hash | pack | pad | bytes | bytesScrubbed | text | emptyText | engine => exact .inl ⟨rfl, rfl⟩
  | wipe => exact .inr rfl

end Fields

/-- A command that ends has `BUSY` 0 and `DONE` 1 (R309). -/
theorem exec_busy_done {i : Instr} {s t : State} (h : exec i s = .next t) : t.busy = false ∧ t.done = true := by
  obtain ⟨u, st, heffect, rfl⟩ := exec_next h
  exact heffect.status_done

/-- No command writes `CTRL` (R24). -/
theorem exec_ctrl {i : Instr} {s t : State} (h : exec i s = .next t) : t.ctrl = s.ctrl := by
  obtain ⟨u, st, heffect, rfl⟩ := exec_next h
  obtain ⟨hctrl, -⟩ := heffect.untouched
  exact hctrl

/-- Settles O9: every command ends in a shape of `Effect`, and its completion consumes the command word. -/
theorem everyCommandCompletes : Obligations.EveryCommandCompletes := by
  intro i s
  obtain ⟨u, st, heffect, hexec⟩ := exec_effect i s
  obtain ⟨hbusy, hdone⟩ := exec_busy_done hexec
  obtain ⟨-, hinputs, hreply, hparams, hfree⟩ := heffect.untouched
  exact ⟨u.finish st, hexec, hbusy, hdone, rfl, hinputs, hreply, hparams, hfree⟩

/-- Settles O10: only the error shape shows `ERR`, and it leaves the state of the issue but for the completion. -/
theorem errorChangesOnlyStatus : Obligations.ErrorChangesOnlyStatus := by
  intro i s t hexec herr
  obtain ⟨u, st, heffect, rfl⟩ := exec_next hexec
  obtain ⟨rfl, e, he, rfl⟩ := heffect.error_of_err herr
  refine ⟨rfl, ?_⟩
  cases e with
  | malformedInput => exact absurd rfl he
  | invalidCharset | unknownAlgorithm | illegalCommand | illegalParameter | capacityExceeded => simp

/-- Settles O11: only a silent path shows `WARN`, and its `STATUS` is one of two words. -/
theorem warnOnlyInCompatMode : Obligations.WarnOnlyInCompatMode := by
  intro i s t hexec hwarn
  obtain ⟨u, st, heffect, rfl⟩ := exec_next hexec
  obtain ⟨hcompat, hsilent⟩ := heffect.silent_of_warn hwarn
  refine ⟨hcompat, ?_, by rwa [statusWarn_invalidCharset, statusWarn_unknownAlgorithm] at hsilent⟩
  obtain ⟨e, rfl⟩ : ∃ e, st = statusWarn e := by
    obtain ⟨-, h⟩ | ⟨-, h | h⟩ := hsilent <;> exact ⟨_, h⟩
  obtain ⟨-, -, hnoerr, -⟩ := statusWarn_fields e
  exact hnoerr

/-- Settles O12, register by register: a shape that changes it belongs to one of the commands named. -/
theorem onlyNamedCommandsWriteControl : Obligations.OnlyNamedCommandsWriteControl := by
  intro i s t hexec
  obtain ⟨u, st, heffect, rfl⟩ := exec_next hexec
  refine ⟨exec_ctrl hexec, fun hne => heffect.bitlen_eq_or.resolve_left hne, fun hne => heffect.rnd_eq_or.resolve_left hne,
    fun hne => heffect.pwlen_leetctl_eq_or.resolve_left fun h => hne h.1,
    fun hne => heffect.pwlen_leetctl_eq_or.resolve_left fun h => hne h.2⟩

/-! ### `NOP` and `WIPE` -/

/-- The opcode of a word is its low byte (R81). -/
theorem fieldsOf_opc_eq_zero {w : Word} (h : w.toNat % 256 = 0) : (fieldsOf w).opc = 0 :=
  BitVec.eq_of_toNat_eq (by simpa [fieldsOf, BitVec.extractLsb'_toNat] using h)

/-- The word 0 is the one command of opcode 0 (R84, R88). -/
theorem decode_error_of_opcode_zero {w : Word} (h : w.toNat % 256 = 0) (hne : w ≠ 0) : ∃ why, decode w = .error why := by
  cases hd : decode w with
  | error why => exact ⟨why, rfl⟩
  | ok i =>
    have hline : decode w = checked {} (fieldsOf w) .nop := if_pos (fieldsOf_opc_eq_zero h)
    obtain ⟨rfl, -⟩ := checked_ok (hline.symm.trans hd)
    obtain ⟨-, hword⟩ := encodeOfDecode w .nop hd
    exact absurd hword.symm hne

/-- An accepted word that is no command ends with `IllegalCommand`, nothing else changed (R88). -/
theorem step_accept_of_decode_error {s : State} {w : Word} {why : DecodeError} (hd : decode w = .error why)
    (hin : s.inputs = []) : step (s.accept w) = .next { s with status := 0x46, cmd := 0 } := by
  have hbusy : (s.accept w).busy = true := by simp [State.busy]
  rw [step_of_inputs_nil (s := s.accept w) hin, advance_of_decode_error hbusy hd, raise_eq, statusError_illegalCommand]
  rfl

/-- Settles O27: `NOP` is the completion alone, and the decoder's line for opcode 0 accepts the word 0 alone. -/
theorem nopCompletes : Obligations.NopCompletes := by
  intro s
  refine ⟨complete_eq s, by decide, fun w hopc hne hin => ?_⟩
  obtain ⟨why, hd⟩ := decode_error_of_opcode_zero hopc hne
  exact step_accept_of_decode_error hd hin

/-- Settles O28: no cell is listed, and the background of every buffer is 0. -/
theorem wipeClearsEverything : Obligations.WipeClearsEverything :=
  fun s => ⟨_, complete_eq s.wiped, rfl, State.cellRead_wiped s⟩

/-! ### From the accept to the completion -/

/-- While a command runs `STATUS` shows `BUSY` alone (R309). -/
theorem State.running_fields {s : State} (h : s.status = 0x01) :
    s.busy = true ∧ s.done = false ∧ s.err = false ∧ s.warn = false ∧ s.ecode = 0 := by
  simp [State.busy, State.done, State.err, State.warn, State.ecode, h]

/-- Settles O7: the write to `CMD` is the accept, and the decoder gives the sampled word its instruction back. -/
theorem commandLife : Obligations.CommandLife := by
  intro s i rest hidle hwf hin
  have haccept : step s = .next { s with status := 0x01, cmd := encode i, inputs := .idle :: rest, reply := none } := by
    rw [step_write_register (r := .cmd) hidle hin, Register.target, State.writeTarget, State.accept, statusRunning_eq]
  obtain ⟨t, hexec, htbusy, htdone, -⟩ :=
    everyCommandCompletes i { s with status := 0x01, cmd := encode i, inputs := rest, reply := none }
  obtain ⟨hbusy, hdone, herr, hwarn, hecode⟩ := State.running_fields
    (s := { s with status := 0x01, cmd := encode i, inputs := .idle :: rest, reply := none }) rfl
  refine ⟨_, t, haccept, rfl, hbusy, hdone, herr, hwarn, hecode, ?_, hexec, htbusy, htdone⟩
  rw [step_of_inputs_idle rfl]
  exact advance_of_decode hbusy (decodeOfEncode i hwf)

/-- Settles O26: `irq` reads `CTRL`, which no command writes, and `DONE`, which an accept clears and a completion sets. -/
theorem interruptLine : Obligations.InterruptLine := by
  intro s i w
  obtain ⟨t, hexec, -, hdone, -⟩ := everyCommandCompletes i s
  obtain ⟨-, haccept, -⟩ := State.running_fields (s := s.accept w) rfl
  refine ⟨rfl, fun hie => ?_, ?_, t, hexec, ?_⟩
  · rw [State.irq, State.ie, hie, Bool.false_and]
  · rw [State.irq, haccept, Bool.and_false]
  · rw [State.irq, hdone, Bool.and_true, State.ie, exec_ctrl hexec]

/-- What a step does to `STATUS`: it stays, an accept shows `BUSY` alone, a completion clears `BUSY` and sets `DONE`, a
reset clears it. -/
theorem step_status {s t : State} (h : step s = .next t) :
    t.status = s.status ∨ t.status = 0x01 ∨ (t.busy = false ∧ t.done = true) ∨
      (t.status = 0 ∧ ∃ rest, s.inputs = .reset :: rest) := by
  obtain ⟨rest, -, hmove⟩ | ⟨off, rest, -, hread⟩ | ⟨off, v, rest, -, hwrite⟩ | ⟨rest, hin, rfl⟩ := step_next h
  · obtain ⟨-, i, -, hexec⟩ | ⟨-, -, rfl⟩ | ⟨-, rfl⟩ := advance_next hmove
    · exact .inr (.inr (.inl (exec_busy_done hexec)))
    · exact .inr (.inr (.inl (by simp [State.busy, State.done])))
    · exact .inl rfl
  · obtain ⟨-, -, ⟨-, -, rfl⟩ | rfl⟩ := hostRead_next hread <;> exact .inl rfl
  · obtain ⟨-, -, -, rfl⟩ := hostWrite_next hwrite
    by_cases hg : targetOf s.params off.toNat = .cmd
    · exact .inr (.inl (by simp [hg, State.writeTarget]))
    · obtain ⟨hstatus, -⟩ := State.writeTarget_command { s with inputs := rest } v hg
      exact .inl hstatus
  · exact .inr (.inr (.inr ⟨rfl, rest, hin⟩))

/-- No legal `STATUS` shows `BUSY` and `DONE` at once (R309). -/
theorem not_busy_done_of_legal : ∀ st ∈ legalStatuses, ¬ (st.getLsbD 0 = true ∧ st.getLsbD 1 = true) := by
  simp [legalStatuses]

/-- Settles O17, by what the step does to `STATUS`. -/
theorem busyAndDone : Obligations.BusyAndDone := by
  intro s t hlegal hstep
  obtain hstay | haccept | ⟨hbusy, hdone⟩ | ⟨hreset, hin⟩ := step_status hstep
  · have hbusy : t.busy = s.busy := congrArg (·.getLsbD 0) hstay
    have hdone : t.done = s.done := congrArg (·.getLsbD 1) hstay
    rw [hbusy, hdone]
    exact ⟨not_busy_done_of_legal _ hlegal, fun hb hd => .inl ⟨hb, hd⟩⟩
  · simp [State.busy, State.done, haccept]
  · simp [hbusy, hdone]
  · exact ⟨by simp [State.busy, hreset], fun _ _ => .inr hin⟩

/-! ### Reset -/

/-- A cell of a buffer that nothing has written since the reset numbered `epoch` (R39; log 4). -/
theorem Cells.get_unwritten {w : Nat} (epoch : Nat) (buf : BufId) (i : Nat) :
    (⟨.unspecified epoch buf, []⟩ : Cells w).get i = Config.unspecifiedCell w epoch buf i := rfl

/-- Settles O19: the step is the reset, and no cell is listed after it. -/
theorem resetAtAnyTime : Obligations.ResetAtAnyTime := by
  intro s rest hin
  refine ⟨hostReset { s with inputs := rest }, by simp [step, hin], rfl, by simp [State.busy], fun i => rfl, fun k i => ?_,
    fun k i => ?_⟩
  · simp [unwrittenMemory, Cells.get_unwritten]
  · simp [unwrittenMemory, Cells.get_unwritten]

end Sys2Proof.Machine
end

section
/-! The leet transformer (spec/47_leet.md R256 to R260): the constraints every `LOWER` of the model obeys, the shape of a legal
`LEET_ROM`, the function `leet` with its length bounds, and `LEET` with its checks. -/

namespace Sys2Proof.Machine

/-! ### `LOWER` (R256) -/

/-- R256 (a) and (b), whatever stands around the unit. -/
theorem tableUnit_ascii (t : LowerTable) (q r : Nat) {u : CodeUnit} (h : u.toNat < 0x80) :
    tableUnit t q u r = [asciiLower u] := if_pos h

@[simp] theorem tablePieces_length (t : LowerTable) (q : Nat) (s : Text) : (tablePieces t q s).1.length = s.length := by
  induction s generalizing q with
  | nil => rfl
  | cons u rest ih => simp [tablePieces, ih]

theorem tablePieces_ascii (t : LowerTable) (q : Nat) {s : Text} {i : Nat} {u : CodeUnit} (hi : s[i]? = some u)
    (hu : u.toNat < 0x80) : (tablePieces t q s).1[i]? = some [asciiLower u] := by
  induction s generalizing q i with
  | nil => simp at hi
  | cons v rest ih =>
    cases i with
    | zero =>
      obtain rfl : v = u := by simpa using hi
      simp [tablePieces, tableUnit_ascii t _ _ hu]
    | succ i => simpa [tablePieces] using ih _ (by simpa using hi)

/-- The default `LOWER` replaces unit by unit (R256). -/
theorem asciiLowerText_admissible : LowerAdmissible asciiLowerText := by
  intro s
  refine ⟨by simp [asciiLowerText]; omega, s.map fun u => [asciiLower u], ?_, by simp, fun i u hi _ => by simp [hi]⟩
  rw [asciiLowerText, List.map_eq_flatMap, List.flatMap_def]

/-- A table that keeps the length bound gives its pieces, any other one is the default (R256; log 10). -/
theorem tableLower_admissible (t : LowerTable) : LowerAdmissible (tableLower t) := by
  intro s
  by_cases hlen : (tablePieces t 0 s).1.flatten.length ≤ 2 * s.length
  · have himage : tableLower t s = (tablePieces t 0 s).1.flatten := if_pos hlen
    rw [himage]
    exact ⟨hlen, _, rfl, tablePieces_length t 0 s, fun _ _ => tablePieces_ascii t 0⟩
  · have hdefault : tableLower t s = asciiLowerText s := if_neg hlen
    rw [hdefault]
    exact asciiLowerText_admissible s

/-- Every `Lowering` is a function R256 admits. -/
theorem lowerText_admissible (l : Lowering) : LowerAdmissible (lowerText l) := by
  cases l with
  | ascii => exact asciiLowerText_admissible
  | table t => exact tableLower_admissible t

theorem lowerText_length_le (l : Lowering) (s : Text) : (lowerText l s).length ≤ 2 * s.length := (lowerText_admissible l s).1

@[simp] theorem lowerText_ascii_length (s : Text) : (lowerText .ascii s).length = s.length := List.length_map _

/-- On an ASCII text every `LOWER` is the default (R256). -/
theorem lowerText_of_ascii (l : Lowering) {s : Text} (h : ∀ u ∈ s, u.toNat < 0x80) : lowerText l s = s.map asciiLower := by
  obtain ⟨-, pieces, hflat, hcount, hascii⟩ := lowerText_admissible l s
  have hpieces : pieces = s.map fun u => [asciiLower u] := by
    refine List.ext_getElem? fun i => ?_
    rcases Nat.lt_or_ge i s.length with hi | hi
    · have hget : s[i]? = some s[i] := List.getElem?_eq_getElem hi
      rw [hascii i _ hget (h _ (List.getElem_mem hi)), List.getElem?_map, hget]
      rfl
    · rw [List.getElem?_eq_none (by omega), List.getElem?_eq_none (by simpa using hi)]
  rw [hflat, hpieces, ← List.flatMap_def, ← List.map_eq_flatMap]

theorem asciiLower_upper {u : CodeUnit} (h : 0x41 ≤ u.toNat ∧ u.toNat ≤ 0x5A) : asciiLower u = u + 32 := if_pos h

theorem asciiLower_other {u : CodeUnit} (h : ¬ (0x41 ≤ u.toNat ∧ u.toNat ≤ 0x5A)) : asciiLower u = u := if_neg h

/-- Settles O50: the pieces of an admissible function are the images the statement asks for. -/
theorem lowerObeysItsConstraints : Obligations.LowerObeysItsConstraints := by
  intro l s
  obtain ⟨hlen, pieces, hflat, hcount, hascii⟩ := lowerText_admissible l s
  refine ⟨⟨pieces, hflat, hcount, fun i u hi => ⟨fun hupper => ?_, fun hu hother => ?_⟩⟩, hlen, ?_, rfl⟩
  · rw [hascii i u hi (by omega), asciiLower_upper hupper]
  · rw [hascii i u hi hu, asciiLower_other hother]
  · simpa using lowerText_length_le l []

/-! ### `LEET_ROM` (R257) -/

/-- The tokens of a level, one for each letter, each of 1 to `max` code units (R257). -/
structure LegalRow (row : List Text) (max : Nat) : Prop where
  letters : row.length = 26
  tokens : ∀ t ∈ row, 1 ≤ t.length ∧ t.length ≤ max

theorem romLegal_iff (p : Params) :
    p.romLegal = true ↔ p.leetRom.length = 9 ∧ (∀ row ∈ p.leetRom, LegalRow row p.leetTokMax) ∧
      ∀ e ∈ fixedLeetEntries, (p.leetRom.getD 0 []).getD e.1 [] = [e.2] := by
  have hrow (row : List Text) : LegalRow row p.leetTokMax ↔
      row.length = 26 ∧ ∀ t ∈ row, 1 ≤ t.length ∧ t.length ≤ p.leetTokMax :=
    ⟨fun h => ⟨h.letters, h.tokens⟩, fun ⟨hletters, htokens⟩ => ⟨hletters, htokens⟩⟩
  simp [Params.romLegal, hrow, and_assoc]

/-- Under legal parameters each of the levels 0 to 8 has its row (R257). -/
theorem legalRow_of_legal {p : Params} (hp : p.legal = true) {n : Nat} (hn : n ≤ 8) :
    LegalRow (p.leetRom.getD n []) p.leetTokMax := by
  obtain ⟨-, -, -, -, -, -, hrom⟩ := legal_caps hp
  obtain ⟨hlevels, hrows, -⟩ := (romLegal_iff p).1 hrom
  have hlt : n < p.leetRom.length := by omega
  rw [List.getD_eq_getElem _ _ hlt]
  exact hrows _ (List.getElem_mem hlt)

/-- The five entries of level 0 that R257 fixes. -/
theorem fixedEntry_of_legal {p : Params} (hp : p.legal = true) {e : Nat × CodeUnit} (he : e ∈ fixedLeetEntries) :
    (p.leetRom.getD 0 []).getD e.1 [] = [e.2] := by
  obtain ⟨-, -, -, -, -, -, hrom⟩ := legal_caps hp
  obtain ⟨-, -, hfixed⟩ := (romLegal_iff p).1 hrom
  exact hfixed e he

/-! ### The function `leet` (R260) -/

section Leet
variable {p : Params} {level : Int} {s : Text}

/-- The image of a code unit has 1 to `LEET_TOK_MAX` code units. -/
theorem leetUnit_length {row : List Text} {max : Nat} (hrow : LegalRow row max) (hmax : 1 ≤ max) (u : CodeUnit) :
    1 ≤ (leetUnit row u).length ∧ (leetUnit row u).length ≤ max := by
  unfold leetUnit
  split
  · have hlt : u.toNat - 0x61 < row.length := by rw [hrow.letters]; omega
    rw [List.getD_eq_getElem _ _ hlt]
    exact hrow.tokens _ (List.getElem_mem hlt)
  · exact ⟨Nat.le_refl 1, hmax⟩

/-- A text whose units have images of `1` to `max` code units. -/
theorem flatMap_length_bounds {f : CodeUnit → Text} {max : Nat} (h : ∀ u, 1 ≤ (f u).length ∧ (f u).length ≤ max) (s : Text) :
    s.length ≤ (s.flatMap f).length ∧ (s.flatMap f).length ≤ max * s.length := by
  induction s with
  | nil => simp
  | cons u rest ih =>
    have hu := h u
    simp only [List.flatMap_cons, List.length_append, List.length_cons, Nat.mul_succ]
    omega

theorem leetText_negative (p : Params) (s : Text) (h : level < 0) : leetText p level s = s := if_pos h

theorem leetText_nonneg (p : Params) (s : Text) (h : 0 ≤ level) :
    leetText p level s = (lowerText p.lower s).flatMap (leetUnit (p.leetRom.getD level.toNat [])) := if_neg (by omega)

/-- The lowercased text bounds the result, token by token (R260). -/
theorem leetText_length_bounds (hp : p.legal = true) (h0 : 0 ≤ level) (h8 : level ≤ 8) (s : Text) :
    (lowerText p.lower s).length ≤ (leetText p level s).length ∧
      (leetText p level s).length ≤ p.leetTokMax * (lowerText p.lower s).length := by
  obtain ⟨-, -, -, -, hmax, -⟩ := legal_caps hp
  rw [leetText_nonneg p s h0]
  exact flatMap_length_bounds (leetUnit_length (legalRow_of_legal hp (by omega)) hmax) _

/-- A letter of level 0 that R257 fixes, in the form R260 looks it up. -/
theorem leetUnit_fixed (hp : p.legal = true) {e : Nat × CodeUnit} (he : e ∈ fixedLeetEntries) :
    leetUnit (p.leetRom.getD 0 []) (BitVec.ofNat 16 (0x61 + e.1)) = [e.2] := by
  have hentry := fixedEntry_of_legal hp he
  have hletter : e.1 < 26 := (by decide : ∀ e ∈ fixedLeetEntries, e.1 < 26) e he
  have hnat : (BitVec.ofNat 16 (0x61 + e.1)).toNat = 0x61 + e.1 := Nat.mod_eq_of_lt (by omega)
  rw [leetUnit, hnat, if_pos (by omega), Nat.add_sub_cancel_left, hentry]

/-- Level 0 replaces the five fixed letters, given as entries of R257, by their tokens. -/
theorem flatMap_leetUnit_entries (hp : p.legal = true) {es : List (Nat × CodeUnit)} (hes : ∀ e ∈ es, e ∈ fixedLeetEntries) :
    (es.map fun e => BitVec.ofNat 16 (0x61 + e.1)).flatMap (leetUnit (p.leetRom.getD 0 [])) = es.map Prod.snd := by
  induction es with
  | nil => rfl
  | cons e es ih =>
    have hrest := ih fun e he => hes e (List.mem_cons_of_mem _ he)
    rw [List.map_cons, List.flatMap_cons, hrest, leetUnit_fixed hp (hes e List.mem_cons_self)]
    rfl

/-- Level 0 on an ASCII text that lowercases to fixed letters, whatever `LOWER` is. -/
theorem leetText_zero_of_entries (hp : p.legal = true) {es : List (Nat × CodeUnit)} (hes : ∀ e ∈ es, e ∈ fixedLeetEntries)
    (hascii : ∀ u ∈ s, u.toNat < 0x80) (hs : s.map asciiLower = es.map fun e => BitVec.ofNat 16 (0x61 + e.1)) :
    leetText p 0 s = es.map Prod.snd := by
  rw [leetText_nonneg p s le_rfl, lowerText_of_ascii p.lower hascii, hs]
  exact flatMap_leetUnit_entries hp hes

end Leet

theorem asciiText_leet : asciiText "leet" = [0x6C, 0x65, 0x65, 0x74] := rfl

theorem asciiText_AELOT : asciiText "AELOT" = [0x41, 0x45, 0x4C, 0x4F, 0x54] := rfl

/-- Settles O51: passthrough, the substitution by definition, the bounds from the token lengths and R256 (c), and the two
known answers from the fixed entries. -/
theorem leetTransforms : Obligations.LeetTransforms := by
  intro p level s hp h8
  refine ⟨leetText_negative p s, fun h0 => ?_, ?_, ?_⟩
  · obtain ⟨hlow, hhigh⟩ := leetText_length_bounds hp h0 h8 s
    have hdouble : p.leetTokMax * (lowerText p.lower s).length ≤ 2 * p.leetTokMax * s.length :=
      calc p.leetTokMax * (lowerText p.lower s).length
          ≤ p.leetTokMax * (2 * s.length) := Nat.mul_le_mul_left _ (lowerText_length_le p.lower s)
        _ = 2 * p.leetTokMax * s.length := by ring
    refine ⟨leetText_nonneg p s h0, hlow, hhigh, hhigh.trans hdouble, fun hascii => ?_⟩
    rw [hascii, lowerText_ascii_length] at hlow hhigh
    exact ⟨hlow, hhigh⟩
  · rw [asciiText_leet]
    exact leetText_zero_of_entries (es := [(11, 0x31), (4, 0x33), (4, 0x33), (19, 0x37)]) hp (by decide) (by simp)
      (by simp [asciiLower])
  · rw [asciiText_AELOT]
    exact leetText_zero_of_entries (es := [(0, 0x34), (4, 0x33), (11, 0x31), (14, 0x30), (19, 0x37)]) hp (by decide)
      (by simp) (by simp [asciiLower])

/-! ### `LEET` (R259) -/

/-- The level that R29 gives, as the statements read it. -/
theorem State.leetLevel_eq (s : State) : s.leetLevel = (s.leetctl.extractLsb' 8 8).toInt := sext8_eq_toInt _

section Checks
variable {s : State} (a d : Fin 8)

theorem exec_leet_badLevel (h : 8 < s.leetLevel) :
    exec (.leet (textField a) (textField d)) s = raise s .illegalParameter := if_pos h

/-- With a level up to 8 `LEET` is the destination write of the transformed text. -/
theorem exec_leet_checked (h : s.leetLevel ≤ 8) :
    exec (.leet (textField a) (textField d)) s = deliver s (s.storeText d (leetText s.params s.leetLevel (s.text a))) := by
  have hwrite : exec (.leet (textField a) (textField d)) s = deliver s (s.storeText (textBuf (textField d))
      (leetText s.params s.leetLevel (s.text (textBuf (textField a))))) := if_neg (by omega)
  rwa [textBuf_textField, textBuf_textField] at hwrite

end Checks

/-- Settles O52: the level check, then the destination write, which the capacity decides. -/
theorem leetCompletes : Obligations.LeetCompletes := by
  intro s a d hp i level out
  have hlevel : s.leetLevel = level := s.leetLevel_eq
  refine ⟨fun h => ?level, fun h hlong => ?long, fun h hfits => ?fits⟩
  case level => rw [exec_leet_badLevel a d (hlevel ▸ h), raise_eq, statusError_illegalParameter]
  case long => rw [exec_leet_checked a d (hlevel ▸ h), hlevel, deliver_storeText_none hlong]
  case fits =>
    rw [exec_leet_checked a d (hlevel ▸ h), hlevel]
    exact deliver_storeText hp hfits

end Sys2Proof.Machine
end

section
/-! The parts of the derivation engine (spec/48_derive.md R270 to R286): the chunk of one round, the decimal round number, the
loop of rounds and the post-processing. -/

namespace Sys2Proof.Machine

/-! ### The tags and the timing (R12, R29) -/

/-- The `ALG` field names a tag below 13, and none from there up (R86). -/
theorem tag_ofField_eq_none_iff (alg : BitVec 4) : Tag.ofField alg = none ↔ 13 ≤ alg.toNat := by
  revert alg; decide

/-- The legacy HMAC of SHA-256 is the tag number 2 (R86). -/
theorem tag_ofField_eq_legacy_iff {alg : BitVec 4} {tag : Tag} (h : Tag.ofField alg = some tag) :
    tag = .hmacSha256Legacy ↔ alg = 2 := by
  revert alg
  cases tag <;> decide

theorem leetBefore_iff (timing : BitVec 2) : leetBefore timing = true ↔ timing.toNat = 1 ∨ timing.toNat = 3 := by
  revert timing; decide

theorem leetAfter_iff (timing : BitVec 2) : leetAfter timing = true ↔ timing.toNat = 2 ∨ timing.toNat = 3 := by
  revert timing; decide

/-! ### One round (R270, R272) -/

section Chunk
variable {p : Params} {tag : Tag} {timing : BitVec 2} {level : Int} {alpha : Text}

/-- The digest of a round is never empty, so it has a digit (R270). -/
theorem radixEncode_hashOf_ne_nil (tag : Tag) (key data : Bytes) (halpha : 2 ≤ alpha.toFinset.card) :
    radixEncode (hashOf tag key data) alpha ≠ [] := by
  have hlen := hashOf_length tag key data
  have heven : (hashOf tag key data).length % 2 = 0 := by rw [hlen]; exact digestBytes_even _
  have hpos := digestBytes_pos tag.variant
  have hne : hashOf tag key data ≠ [] := List.ne_nil_of_length_pos (by omega)
  obtain ⟨-, -, -, hnonempty, -⟩ := radixEncodeIsBaseN (hashOf tag key data) alpha heven halpha
  exact List.ne_nil_of_length_pos (hnonempty hne)

/-- `leet` empties a nonempty text only where `LOWER` does: a token is never empty (R257, R260). -/
theorem leetText_ne_nil (hp : p.legal = true) (h8 : level ≤ 8) {s : Text} (hs : s ≠ [])
    (hlower : 0 ≤ level → lowerText p.lower s ≠ []) : leetText p level s ≠ [] := by
  rcases Int.lt_or_le level 0 with hneg | h0
  · rwa [leetText_negative p s hneg]
  · obtain ⟨hlow, -⟩ := leetText_length_bounds hp h0 h8 s
    exact List.ne_nil_of_length_pos ((List.length_pos_of_ne_nil (hlower h0)).trans_le hlow)

/-- A chunk is empty only where the post-pass runs under a `LOWER` that empties a nonempty text (R272; log 10). -/
theorem generateOnce_ne_nil (hp : p.legal = true) (h8 : level ≤ 8) (halpha : 2 ≤ alpha.toFinset.card) (key data : Text)
    (hlower : timing.toNat = 2 ∨ timing.toNat = 3 → 0 ≤ level → ∀ x : Text, x ≠ [] → lowerText p.lower x ≠ []) :
    generateOnce p tag key data timing level alpha ≠ [] := by
  unfold generateOnce leetIf
  simp only
  split
  · rename_i hafter
    refine leetText_ne_nil hp h8 (radixEncode_hashOf_ne_nil _ _ _ halpha) fun h0 => ?_
    exact hlower ((leetAfter_iff timing).1 hafter) h0 _ (radixEncode_hashOf_ne_nil _ _ _ halpha)
  · exact radixEncode_hashOf_ne_nil _ _ _ halpha

end Chunk

/-! ### The decimal round number (R282) -/

/-- With a digit for each unit of fuel, the digits of a positive number are its digits in base 10. -/
theorem decimalDigits_eq_digits {fuel n : Nat} (hpos : 0 < n) (hfuel : n < fuel) :
    decimalDigits fuel n = (Nat.digits 10 n).reverse.map fun d => BitVec.ofNat 16 (0x30 + d) := by
  induction fuel generalizing n with
  | zero => omega
  | succ fuel ih =>
    rw [decimalDigits, Nat.digits_def' (by decide) hpos, List.reverse_cons, List.map_append]
    by_cases hn : n < 10
    · simp [hn, Nat.div_eq_of_lt hn]
    · rw [if_neg hn, ih (by omega) (by omega)]
      rfl

/-- Settles O60: `n + 1` units of fuel are enough for `n`. -/
theorem decimalRendering : Obligations.DecimalRendering :=
  fun _ hpos => decimalDigits_eq_digits hpos (Nat.lt_succ_self _)

/-! ### Post-processing (R285) -/

section PostProcess
variable (pre acc : Text) {suf : Text} {len : Nat}

theorem postProcess_noSuffix (len : Nat) : postProcess pre acc [] len = (pre ++ acc).take len := rfl

theorem postProcess_suffix (hsuf : suf ≠ []) (len : Nat) :
    postProcess pre acc suf len = ((pre ++ acc).take (len - suf.length) ++ suf).take len :=
  congrArg (List.take len) (if_neg (by simpa using hsuf))

/-- The two cases of R285 as the statements write them. -/
theorem postProcess_eq (suf : Text) (len : Nat) :
    postProcess pre acc suf len =
      if suf = [] then (pre ++ acc).take len else ((pre ++ acc).take (len - suf.length) ++ suf).take len := by
  split
  · subst suf; exact postProcess_noSuffix pre acc len
  · exact postProcess_suffix pre acc ‹_› len

/-- A suffix that fits stands whole at the end. -/
theorem postProcess_suffix_fits (hsuf : suf ≠ []) (hlen : suf.length ≤ len) :
    postProcess pre acc suf len = (pre ++ acc).take (len - suf.length) ++ suf := by
  rw [postProcess_suffix pre acc hsuf]
  refine List.take_of_length_le ?_
  rw [List.length_append, List.length_take]
  omega

/-- Of a suffix that is too long the first `len` code units are left. -/
theorem postProcess_suffix_long (hlen : len < suf.length) : postProcess pre acc suf len = suf.take len := by
  have hsuf : suf ≠ [] := List.ne_nil_of_length_pos (by omega)
  rw [postProcess_suffix pre acc hsuf, Nat.sub_eq_zero_of_le hlen.le, List.take_zero, List.nil_append]

/-- With enough code units the result has the length asked for. -/
theorem postProcess_length_eq {pre acc : Text} (suf : Text) (hlen : len ≤ (pre ++ acc).length) :
    (postProcess pre acc suf len).length = len := by
  rw [postProcess_eq]
  split <;> simp only [List.length_take, List.length_append] at hlen ⊢ <;> omega

end PostProcess

/-- Settles O59, by the cases of the suffix. -/
theorem postProcessKeepsTheSuffix : Obligations.PostProcessKeepsTheSuffix := by
  intro pre acc suf len r
  refine ⟨?_, postProcess_suffix_fits pre acc, postProcess_suffix_long pre acc, postProcess_length_le ..,
    postProcess_length_eq suf⟩
  rintro rfl
  exact postProcess_noSuffix pre acc len

/-! ### The rounds (R283) -/

/-- The text that the first `n` rounds accumulate. -/
def roundsText (chunkOf : Nat → Text) (n : Nat) : Text := (List.range n).flatMap chunkOf

@[simp] theorem roundsText_zero (chunkOf : Nat → Text) : roundsText chunkOf 0 = [] := rfl

theorem roundsText_succ (chunkOf : Nat → Text) (n : Nat) :
    roundsText chunkOf (n + 1) = roundsText chunkOf n ++ chunkOf n := by
  simp [roundsText, List.range_succ]

/-- Rounds that add something accumulate a code unit each. -/
theorem le_roundsText_length {chunkOf : Nat → Text} {n : Nat} (h : ∀ m < n, chunkOf m ≠ []) :
    n ≤ (roundsText chunkOf n).length := by
  induction n with
  | zero => exact Nat.zero_le _
  | succ n ih =>
    have hrest := ih fun m hm => h m (by omega)
    have hlast := List.length_pos_of_ne_nil (h n (Nat.lt_succ_self n))
    rw [roundsText_succ, List.length_append]
    omega

/-- `n` is the least number of rounds after which the loop of R283 is over: the text reaches `len` code units, or the last chunk
is empty. -/
structure RoundsRun (chunkOf : Nat → Text) (len n : Nat) : Prop where
  stop : len ≤ (roundsText chunkOf n).length ∨ (1 ≤ n ∧ chunkOf (n - 1) = [])
  least : ∀ m < n, (roundsText chunkOf m).length < len ∧ (m + 1 < n → chunkOf m ≠ [])

namespace RoundsRun
variable {chunkOf : Nat → Text} {len n : Nat}

/-- Every round but the last adds a code unit to a text of fewer than `len` (log 21). -/
theorem le_len (h : RoundsRun chunkOf len n) : n ≤ len := by
  cases n with
  | zero => exact Nat.zero_le _
  | succ n =>
    obtain ⟨hshort, -⟩ := h.least n (Nat.lt_succ_self n)
    have hmany : n ≤ (roundsText chunkOf n).length :=
      le_roundsText_length fun m hm => (h.least m (by omega)).2 (by omega)
    omega

theorem pos (h : RoundsRun chunkOf len n) (hlen : 1 ≤ len) : 1 ≤ n := by
  obtain hreach | ⟨hn, -⟩ := h.stop
  · cases n with
    | zero => simp at hreach; omega
    | succ n => omega
  · exact hn

/-- Without empty chunks the text reaches its length. -/
theorem reaches (h : RoundsRun chunkOf len n) (hchunk : ∀ m, chunkOf m ≠ []) : len ≤ (roundsText chunkOf n).length :=
  h.stop.resolve_right fun ⟨_, hempty⟩ => hchunk _ hempty

end RoundsRun

section Loop
variable {chunkOf : Nat → Text} {len n : Nat} (hbefore : ∀ m < n, (roundsText chunkOf m).length < len ∧ chunkOf m ≠ [])
include hbefore

/-- The loop ends before a round whose text is long enough. -/
theorem RoundsRun.of_reached (hreach : len ≤ (roundsText chunkOf n).length) : RoundsRun chunkOf len n :=
  ⟨.inl hreach, fun m hm => ⟨(hbefore m hm).1, fun _ => (hbefore m hm).2⟩⟩

/-- The loop ends after a round with an empty chunk. -/
theorem RoundsRun.of_empty (hshort : (roundsText chunkOf n).length < len) (hempty : chunkOf n = []) :
    RoundsRun chunkOf len (n + 1) := by
  refine ⟨.inr ⟨by omega, hempty⟩, fun m hm => ?_⟩
  rcases Nat.lt_succ_iff_lt_or_eq.1 hm with hlt | rfl
  · exact ⟨(hbefore m hlt).1, fun _ => (hbefore m hlt).2⟩
  · exact ⟨hshort, fun h => absurd h (Nat.lt_irrefl _)⟩

/-- The loop goes on after a round that adds something. -/
theorem rounds_continue (hshort : (roundsText chunkOf n).length < len) (hadds : chunkOf n ≠ []) :
    ∀ m < n + 1, (roundsText chunkOf m).length < len ∧ chunkOf m ≠ [] := by
  intro m hm
  rcases Nat.lt_succ_iff_lt_or_eq.1 hm with hlt | rfl
  · exact hbefore m hlt
  · exact ⟨hshort, hadds⟩

/-- The loop of R283 from round `n`, all rounds before it having added something to a text still too short; the fuel covers the
code units that are missing. -/
theorem deriveRounds_from {fuel : Nat} (hfuel : len ≤ fuel + n) :
    ∃ k, deriveRounds chunkOf len fuel n (roundsText chunkOf n) = (roundsText chunkOf k, k) ∧ RoundsRun chunkOf len k := by
  induction fuel generalizing n with
  | zero =>
    have hmany : n ≤ (roundsText chunkOf n).length := le_roundsText_length fun m hm => (hbefore m hm).2
    exact ⟨n, rfl, .of_reached hbefore (by omega)⟩
  | succ fuel ih =>
    rw [deriveRounds]
    by_cases hshort : (roundsText chunkOf n).length < len
    · rw [if_pos hshort]
      have hnext := roundsText_succ chunkOf n
      cases hchunk : chunkOf n with
      | nil =>
        rw [hchunk, List.append_nil] at hnext
        exact ⟨n + 1, by rw [hnext], .of_empty hbefore hshort hchunk⟩
      | cons u rest =>
        rw [hchunk] at hnext
        simp only [← hnext]
        exact ih (rounds_continue hbefore hshort (by simp [hchunk])) (by omega)
    · rw [if_neg hshort]
      exact ⟨n, rfl, .of_reached hbefore (by omega)⟩

end Loop

/-- The accumulated text and the number of rounds of `DERIVE` (R283). -/
theorem deriveAcc_run (s : State) (tag : Option Tag) :
    ∃ n, deriveAcc s tag = (roundsText (deriveChunk s tag) n, n) ∧ RoundsRun (deriveChunk s tag) s.pwlen.toNat n :=
  deriveRounds_from (n := 0) (fun m hm => absurd hm (Nat.not_lt_zero m)) (Nat.le_add_right _ _)

end Sys2Proof.Machine
end

section
/-! `GENONCE` and `DERIVE` (spec/48_derive.md R271 to R273, R280 to R286): the checks in their order, the silent paths of compat
mode, and what a command that passes its checks leaves. -/

namespace Sys2Proof.Machine

theorem charsetOk_eq_false_iff (alpha : Text) : charsetOk alpha = false ↔ alpha.toFinset.card < 2 := by
  rw [← Bool.not_eq_true, charsetOk_iff, Nat.not_le]

theorem charsetOk_ne_false {alpha : Text} (h : 2 ≤ alpha.toFinset.card) : ¬ charsetOk alpha = false := by
  rwa [charsetOk_eq_false_iff, Nat.not_lt]

/-- The silent charset path leaves the empty text, `RND` 0 and the scrub (R306). -/
theorem silentCharset_leaves (s : State) (d : Fin 8) :
    ∃ t : State, silentCharset s d = .next t ∧
      t = { s with mem := t.mem, tlen := s.tlen.set d 0, rnd := 0, wlen := 0, h := Vector.replicate 8 0,
                   status := 0x1a, cmd := 0 } ∧ WroteCellsScrubbed s t (.txt d) [] := by
  rw [← statusWarn_invalidCharset]
  exact completeWarn_scrub .invalidCharset 0

/-! ### `GENONCE` -/

section Genonce
variable {s : State} {alg : BitVec 4} (a b d : Fin 8)

theorem exec_genonce_badLevel (h : 8 < s.leetLevel) :
    exec (.genonce alg (textField a) (textField b) (textField d)) s = raise s .illegalParameter := if_pos h

variable (hlevel : s.leetLevel ≤ 8)
include hlevel

/-- The charset guard, which compat mode makes silent (R246, R306). -/
theorem exec_genonce_badCharset (hcharset : (s.text 5).toFinset.card < 2) :
    exec (.genonce alg (textField a) (textField b) (textField d)) s =
      if s.compat then silentCharset s d else raise s .invalidCharset := by
  have hbad : charsetOk (s.text alphaBuf) = false := (charsetOk_eq_false_iff _).2 hcharset
  change execGenonce alg (textField a) (textField b) (textField d) s = _
  rw [execGenonce, textBuf_textField d]
  exact (if_neg (by omega)).trans (if_pos hbad)

variable (hcharset : 2 ≤ (s.text 5).toFinset.card)
include hcharset

/-- The tag check, which compat mode makes silent (R273, R307). -/
theorem exec_genonce_noTag (htag : Tag.ofField alg = none) :
    exec (.genonce alg (textField a) (textField b) (textField d)) s =
      if s.compat then completeWarn { (s.setText d []) with rnd := 1 }.scrub .unknownAlgorithm
      else raise s .unknownAlgorithm := by
  change execGenonce alg (textField a) (textField b) (textField d) s = _
  rw [execGenonce, textBuf_textField d, htag]
  exact (if_neg (by omega)).trans (if_neg (charsetOk_ne_false hcharset))

/-- All checks passed: `GENONCE` is the destination write of one chunk, with the scrub (R271). -/
theorem exec_genonce_checked {tag : Tag} (htag : Tag.ofField alg = some tag) :
    exec (.genonce alg (textField a) (textField b) (textField d)) s =
      deliverScrubbed s ((s.storeText d
        (generateOnce s.params tag (s.text a) (s.text b) s.leetTiming s.leetLevel (s.text 5))).map
          fun t => { t with rnd := 1 }) := by
  change execGenonce alg (textField a) (textField b) (textField d) s = _
  rw [execGenonce, textBuf_textField a, textBuf_textField b, textBuf_textField d, htag]
  exact (if_neg (by omega)).trans (if_neg (charsetOk_ne_false hcharset))

end Genonce

/-- `hashOf` by the number of its tag (R270). -/
theorem hashOf_eq {alg : BitVec 4} {tag : Tag} (htag : Tag.ofField alg = some tag) (key data : Bytes) :
    hashOf tag key data =
      if tag.keyed = false then digest tag.variant key
      else if alg = 2 then hmacLegacy key data
      else hmac tag.variant key data := by
  simp only [hashOf, tag_ofField_eq_legacy_iff htag]

/-- Settles O53: the six steps of R272 read with the fields of `LEETCTL` and `ALG`, then the destination write, which the
capacity decides. -/
theorem genonceCompletes : Obligations.GenonceCompletes := by
  intro s alg tag a b d hp htag i level timing h8 halpha key1 key data bytes chunk1 chunk
  have hlevel : s.leetLevel = level := s.leetLevel_eq
  have hchunk : generateOnce s.params tag (s.text a) (s.text b) s.leetTiming level (s.text 5) = chunk := by
    simp only [generateOnce, leetIf, Bool.and_eq_true, leetBefore_iff, leetAfter_iff, hashOf_eq htag]
    rfl
  have hexec := exec_genonce_checked a b d (hlevel ▸ h8) halpha htag
  rw [hlevel, hchunk] at hexec
  refine ⟨fun hlower => hchunk ▸ generateOnce_ne_nil hp h8 halpha _ _ hlower, fun hlong => ?long, fun hfits => ?fits⟩
  case long => rw [hexec, State.storeText_none hlong, Option.map_none, deliverScrubbed_none, raise_eq,
    statusError_capacityExceeded]
  case fits =>
    rw [hexec]
    exact deliverScrubbed_storeText hp hfits

/-- Settles O54, check by check. -/
theorem genonceChecks : Obligations.GenonceChecks := by
  intro s alg a b d i level distinct compat
  have hlevel : s.leetLevel = level := s.leetLevel_eq
  rw [← hlevel]
  refine ⟨fun h => ?level, fun h hcharset hcompat => ?charset, fun h hcharset hcompat => ?silentCharset,
    fun h hcharset halg hcompat => ?tag, fun h hcharset halg hcompat => ?silentTag⟩
  case level => rw [exec_genonce_badLevel a b d h, raise_eq, statusError_illegalParameter]
  case charset =>
    have hmode : ¬ s.compat = true := Bool.eq_false_iff.1 hcompat
    rw [exec_genonce_badCharset a b d h hcharset, if_neg hmode, raise_eq, statusError_invalidCharset]
  case silentCharset =>
    have hmode : s.compat = true := hcompat
    rw [exec_genonce_badCharset a b d h hcharset, if_pos hmode]
    exact silentCharset_leaves s d
  case tag =>
    have hmode : ¬ s.compat = true := Bool.eq_false_iff.1 hcompat
    rw [exec_genonce_noTag a b d h hcharset ((tag_ofField_eq_none_iff alg).2 halg), if_neg hmode, raise_eq,
      statusError_unknownAlgorithm]
  case silentTag =>
    have hmode : s.compat = true := hcompat
    rw [exec_genonce_noTag a b d h hcharset ((tag_ofField_eq_none_iff alg).2 halg), if_pos hmode,
      ← statusWarn_unknownAlgorithm]
    exact completeWarn_scrub .unknownAlgorithm 1

/-! ### `DERIVE` -/

section Derive
variable {s : State} {alg : BitVec 4}

theorem exec_derive_badLevel (h : 8 < s.leetLevel) : exec (.derive alg) s = raise s .illegalParameter := if_pos h

variable (hlevel : s.leetLevel ≤ 8)
include hlevel

/-- The charset guard, which compat mode makes silent (R246, R306). -/
theorem exec_derive_badCharset (hcharset : (s.text 5).toFinset.card < 2) :
    exec (.derive alg) s = if s.compat then silentCharset s outBuf else raise s .invalidCharset := by
  have hbad : charsetOk (s.text alphaBuf) = false := (charsetOk_eq_false_iff _).2 hcharset
  change execDerive alg s = _
  rw [execDerive]
  exact (if_neg (by omega)).trans (if_pos hbad)

variable (hcharset : 2 ≤ (s.text 5).toFinset.card)
include hcharset

/-- Under no tag compat mode decides, and then the length (R273, R281, R307). -/
theorem exec_derive_noTag (htag : Tag.ofField alg = none) :
    exec (.derive alg) s =
      if s.compat = false then raise s .unknownAlgorithm
      else if s.params.txtCap < s.pwlen.toNat then raise s .capacityExceeded
      else completeWarn (s.derived none) .unknownAlgorithm := by
  change execDerive alg s = _
  rw [execDerive, htag]
  exact (if_neg (by omega)).trans (if_neg (charsetOk_ne_false hcharset))

/-- Under a tag the length decides (R281). -/
theorem exec_derive_tag {tag : Tag} (htag : Tag.ofField alg = some tag) :
    exec (.derive alg) s =
      if s.params.txtCap < s.pwlen.toNat then raise s .capacityExceeded else complete (s.derived (some tag)) := by
  change execDerive alg s = _
  rw [execDerive, htag]
  exact (if_neg (by omega)).trans (if_neg (charsetOk_ne_false hcharset))

end Derive

/-- The text that a `DERIVE` which passed its checks leaves in `OUT` is at most `PWLEN` long, so its length fits the register
(R280). -/
theorem text_derived (s : State) (tag : Option Tag) :
    (s.derived tag).text 7 = postProcess (s.text 3) (deriveAcc s tag).1 (s.text 4) s.pwlen.toNat :=
  State.text_setText s outBuf _ ((postProcess_length_le ..).trans_lt s.pwlen.isLt)

/-- What a `DERIVE` that passed its checks leaves (R280, R285): the text `out`, `n` rounds, the scrub. -/
theorem derived_leaves {s : State} {tag : Option Tag} {acc out : Text} {n : Nat} (st : Word)
    (hacc : deriveAcc s tag = (acc, n)) (hout : postProcess (s.text 3) acc (s.text 4) s.pwlen.toNat = out) :
    (s.derived tag).finish st =
      { s with mem := (s.derived tag).mem, tlen := s.tlen.set 7 (BitVec.ofNat 32 out.length), rnd := BitVec.ofNat 32 n,
               wlen := 0, h := Vector.replicate 8 0, status := st, cmd := 0 } ∧
      WroteCellsScrubbed s ((s.derived tag).finish st) (.txt 7) (textCells out) ∧
      ((s.derived tag).finish st).text 7 = out := by
  have htext := text_derived s tag
  rw [hacc, hout] at htext
  refine ⟨?_, ?_, htext⟩
  · rw [State.derived, hacc, hout]; rfl
  · rw [State.derived, hacc, hout]; exact State.wroteCellsScrubbed_setText s outBuf out

/-- Settles O55: the loop of R283 runs the least number of rounds, and its text is post-processed. -/
theorem deriveCompletes : Obligations.DeriveCompletes := by
  intro s alg tag hp htag level timing len h8 halpha hlen key chunk
  have hlevel : s.leetLevel = level := s.leetLevel_eq
  have hchunk : deriveChunk s (some tag) = chunk := by
    funext n
    rw [deriveChunk, hlevel]
    rfl
  obtain ⟨n, hacc, hrun⟩ := deriveAcc_run s (some tag)
  rw [hchunk] at hacc hrun
  obtain ⟨hleaves, hcells, htext⟩ := derived_leaves 0x02 hacc (postProcess_eq ..)
  refine ⟨n, _, ?exec, hrun.stop, hrun.least, fun h => ⟨hrun.pos h, hrun.le_len⟩, fun h => ?none, fun hlower => ?length,
    hleaves, hcells, htext⟩
  case exec =>
    rw [exec_derive_tag (hlevel ▸ h8) halpha htag, if_neg (Nat.not_lt.2 hlen), complete_eq]
    rfl
  case none =>
    have := hrun.le_len
    omega
  case length =>
    have hreach := hrun.reaches fun m => generateOnce_ne_nil hp h8 halpha _ _ hlower
    refine ⟨hreach, ?_⟩
    rw [← postProcess_eq]
    exact postProcess_length_eq _ (hreach.trans (by simp [roundsText]))

/-- Under no tag the first chunk is empty, so one round runs, or none (R273). -/
theorem deriveAcc_none (s : State) : deriveAcc s none = ([], if s.pwlen.toNat = 0 then 0 else 1) := by
  unfold deriveAcc
  cases s.pwlen.toNat with
  | zero => rfl
  | succ len => simp [deriveRounds, deriveChunk]

/-- Settles O56, check by check. -/
theorem deriveChecks : Obligations.DeriveChecks := by
  intro s alg hp level len distinct compat
  have hlevel : s.leetLevel = level := s.leetLevel_eq
  rw [← hlevel]
  refine ⟨fun h => ?level, fun h hcharset hcompat => ?charset, fun h hcharset hcompat => ?silentCharset,
    fun h hcharset halg hcompat => ?tag, fun h hcharset halg hlong => ?long, fun h hcharset halg hcompat hlen => ?silentTag⟩
  case level => rw [exec_derive_badLevel h, raise_eq, statusError_illegalParameter]
  case charset =>
    have hmode : ¬ s.compat = true := Bool.eq_false_iff.1 hcompat
    rw [exec_derive_badCharset h hcharset, if_neg hmode, raise_eq, statusError_invalidCharset]
  case silentCharset =>
    have hmode : s.compat = true := hcompat
    rw [exec_derive_badCharset h hcharset, if_pos hmode]
    exact silentCharset_leaves s outBuf
  case tag =>
    have hmode : s.compat = false := hcompat
    rw [exec_derive_noTag h hcharset ((tag_ofField_eq_none_iff alg).2 halg), if_pos hmode, raise_eq,
      statusError_unknownAlgorithm]
  case long =>
    rw [← statusError_capacityExceeded, ← raise_eq]
    cases htag : Tag.ofField alg with
    | none =>
      have hnone := (tag_ofField_eq_none_iff alg).1 htag
      have hmode : s.compat = true := halg.resolve_left (by omega)
      rw [exec_derive_noTag h hcharset htag, if_neg (by simp [hmode]), if_pos hlong]
    | some tag => rw [exec_derive_tag h hcharset htag, if_pos hlong]
  case silentTag =>
    intro out
    have hmode : s.compat = true := hcompat
    have hout : postProcess (s.text 3) [] (s.text 4) s.pwlen.toNat = out := by
      rw [postProcess_eq, List.append_nil]
    have hrounds : BitVec.ofNat 32 (if len = 0 then 0 else 1) = if len = 0 then 0 else 1 := by split <;> rfl
    obtain ⟨hleaves, hcells, htext⟩ := derived_leaves 0x2a (deriveAcc_none s) hout
    rw [hrounds] at hleaves
    refine ⟨(s.derived none).finish 0x2a, ?_, hleaves, hcells, htext⟩
    rw [exec_derive_noTag h hcharset ((tag_ofField_eq_none_iff alg).2 halg), if_neg (by simp [hmode]),
      if_neg (Nat.not_lt.2 hlen), completeWarn_eq, statusWarn_unknownAlgorithm]
    rfl

/-! ### Determinism (R286) -/

/-- What `DERIVE` reads, the same in both states: the parameters, `CTRL.COMPAT`, `LEETCTL`, `PWLEN` and the seven
source texts. -/
structure DeriveAgree (s u : State) : Prop where
  params : s.params = u.params
  compat : s.compat = u.compat
  leetctl : s.leetctl = u.leetctl
  pwlen : s.pwlen = u.pwlen
  text : ∀ k : Fin 8, k ≠ 7 → s.text k = u.text k

/-- Both results are completions with one `STATUS` and, without an error, one `OUT` and one `RND`. -/
def SameOutcome (r r' : Result) : Prop :=
  ∃ t v : State, r = .next t ∧ r' = .next v ∧ t.status = v.status ∧
    (t.err = false → t.text 7 = v.text 7 ∧ t.tlen[7] = v.tlen[7] ∧ t.rnd = v.rnd)

theorem sameOutcome_raise (s u : State) (e : ErrorCode) : SameOutcome (raise s e) (raise u e) := by
  obtain ⟨-, -, herr, -⟩ := statusError_fields e
  refine ⟨_, _, rfl, rfl, rfl, fun hno => ?_⟩
  exact absurd (herr.symm.trans hno) (by decide)

theorem sameOutcome_silentCharset (s u : State) : SameOutcome (silentCharset s outBuf) (silentCharset u outBuf) := by
  have htext (x : State) : (x.setText outBuf []).text 7 = [] := State.text_setText x outBuf [] (by decide)
  exact ⟨_, _, rfl, rfl, rfl, fun _ => ⟨(htext s).trans (htext u).symm, by simp [outBuf], rfl⟩⟩

namespace DeriveAgree
variable {s u : State}

theorem leetLevel_eq (h : DeriveAgree s u) : s.leetLevel = u.leetLevel := by rw [State.leetLevel, State.leetLevel, h.leetctl]

theorem deriveChunk_eq (h : DeriveAgree s u) (tag : Option Tag) : deriveChunk s tag = deriveChunk u tag := by
  funext n
  cases tag with
  | none => rfl
  | some tag =>
    simp only [deriveChunk, State.leetTiming, h.leetLevel_eq, h.params, h.leetctl, h.text 0 (by decide),
      h.text 1 (by decide), h.text 2 (by decide), h.text 6 (by decide), h.text alphaBuf (by decide)]

theorem deriveAcc_eq (h : DeriveAgree s u) (tag : Option Tag) : deriveAcc s tag = deriveAcc u tag := by
  rw [deriveAcc, deriveAcc, h.deriveChunk_eq, h.pwlen]

/-- The completion after the loop and the post-processing. -/
theorem sameOutcome_derived (h : DeriveAgree s u) (tag : Option Tag) (st : Word) :
    SameOutcome (.next ((s.derived tag).finish st)) (.next ((u.derived tag).finish st)) := by
  obtain ⟨n, hacc, -⟩ := deriveAcc_run u tag
  generalize roundsText (deriveChunk u tag) n = acc at hacc
  have hout : postProcess (s.text 3) acc (s.text 4) s.pwlen.toNat = postProcess (u.text 3) acc (u.text 4) u.pwlen.toNat := by
    rw [h.pwlen, h.text 3 (by decide), h.text 4 (by decide)]
  obtain ⟨hs, -, htexts⟩ := derived_leaves st ((h.deriveAcc_eq tag).trans hacc) hout
  obtain ⟨hu, -, htextu⟩ := derived_leaves st hacc rfl
  refine ⟨_, _, rfl, rfl, ?_, fun _ => ⟨htexts.trans htextu.symm, ?_, ?_⟩⟩
  · rw [State.finish_status, State.finish_status]
  · rw [hs, hu]; simp
  · rw [hs, hu]

end DeriveAgree

/-- Settles O57: the checks and the text depend on what the states agree on, and each end of `DERIVE` shows nothing else. -/
theorem deriveIsDeterministic : Obligations.DeriveIsDeterministic := by
  intro s u alg hparams hcompat hleetctl hpwlen htext
  have h : DeriveAgree s u := ⟨hparams, hcompat, hleetctl, hpwlen, htext⟩
  show SameOutcome (execDerive alg s) (execDerive alg u)
  rw [execDerive, execDerive, h.leetLevel_eq, h.text alphaBuf (by decide), h.compat, h.params, h.pwlen]
  split
  · exact sameOutcome_raise ..
  split
  · split
    · exact sameOutcome_silentCharset s u
    · exact sameOutcome_raise ..
  cases Tag.ofField alg with
  | none =>
    simp only
    split
    · exact sameOutcome_raise ..
    split
    · exact sameOutcome_raise ..
    · exact h.sameOutcome_derived none _
  | some tag =>
    simp only
    split
    · exact sameOutcome_raise ..
    · exact h.sameOutcome_derived (some tag) _

end Sys2Proof.Machine
end
